-- ==== Sys2Proof/Word.lean ====
section
/-! DEFINITION. The word types of the engine and the order of bits inside a byte (R8, R106, R107). -/

namespace Sys2Proof

/-- One byte of IN_MEM or OUT_MEM (R104: every access is one byte wide). -/
abbrev Byte := BitVec 8

/-- A host-visible register: 32 bits (R7). -/
abbrev Word := BitVec 32

/-- A stretch of the stream, the bit read first at the head. -/
abbrev Bits := List Bool

end Sys2Proof
end

