-- ==== Sys2Proof/Config.lean ====
section
/-! DEFINITION. What an implementation fixes (R7) and the format's constants (R6). -/

namespace Sys2Proof.Config

/-- `IN_LEN_MAX` as an implementation fixes it (R7, U20): OPEN, with `8 × IN_LEN_MAX ≤ 2^32 − 1`, that is
`IN_LEN_MAX < 2^29`. It has no body, so no proof can see its value (log 4). -/
opaque inLenMaxParam : Fin 536870912

/-- `IN_LEN_MAX`, the largest input length the engine accepts, in bytes (R7). -/
def inLenMax : Nat := inLenMaxParam.val

/-- `MAXBITS`: the longest Huffman code, in bits (R6). -/
def maxBits : Nat := 15

/-- What a byte of IN_MEM or OUT_MEM that nothing has written reads as. DESIGN CHOICE (log 2): the spec leaves the
contents after reset unspecified and lets a model give them any value (U11, R490). -/
def unlistedByte : Byte := 0#8

end Sys2Proof.Config
end

