-- ==== Sys2Proof/Machine/Huffman.lean ====
section
/-! DEFINITION. The CanonicalHuffmanDecoder (42_huffman.md): `Build` and `Decode`, over plain lists of code lengths and
plain bits, with no dependency on the block-decode state. -/

namespace Sys2Proof

/-- One entry of a tree: the pair (bit length, numeric code value) and the symbol it maps to (R220). -/
structure Code where
  len  : Nat
  code : Nat
  sym  : Nat
  deriving DecidableEq, Repr

/-- A tree: "the mapping from (bit-length, numeric code value) to symbol" (R220), in symbol order. -/
structure Tree where
  codes : List Code
  deriving DecidableEq, Repr

namespace Huffman

/-! ## Construction (R220–R224) -/

/-- `count[l]` (R221): how many symbols have length `l`; unused symbols (length 0) take no code. -/
def count (ls : List Nat) (l : Nat) : Nat :=
  if l = 0 then 0 else ls.count l

/-- `first_code[l]` (R221). -/
def firstCode (ls : List Nat) : Nat → Nat
  | 0 => 0
  | l + 1 => (firstCode ls l + count ls l) * 2

/-- The over-subscription check (R222, C1): the codes of every length 1..15 fit in that many bits. -/
def fits (ls : List Nat) : Bool :=
  (List.range Config.maxBits).all fun k => firstCode ls (k + 1) + count ls (k + 1) ≤ 2 ^ (k + 1)

/-- Code assignment (R223): the symbols in index order, from symbol `s` on; `next` holds the per-length cursors. -/
def assign (next : List Nat) (s : Nat) : List Nat → List Code
  | [] => []
  | l :: ls =>
    if l = 0 then assign next (s + 1) ls
    else ⟨l, next.getD l 0, s⟩ :: assign (next.set l (next.getD l 0 + 1)) (s + 1) ls

/-- The cursors before the first symbol (R223): `next[l] = first_code[l]`. -/
def firstCodes (ls : List Nat) : List Nat :=
  (List.range (Config.maxBits + 1)).map (firstCode ls)

/-- `Build(lengths)` (R220–R224): a tree, or nothing where it answers `InvalidHuffmanTree`. -/
def build (ls : List Nat) : Option Tree :=
  if fits ls then some ⟨assign (firstCodes ls) 0 ls⟩ else none

/-! ## Decoding (R225–R228) -/

/-- The symbol a tree maps `(len, code)` to, if any (R220). -/
def find (t : Tree) (len code : Nat) : Option Nat :=
  (t.codes.find? fun c => c.code == code && c.len == len).map (·.sym)

/-- `T.nsym` (R220): the number of symbols of nonzero length. -/
def nsym (t : Tree) : Nat := t.codes.length

/-- The loop of `Decode` (R225, R228): at most `fuel` more bits, `len` bits read so far with the running value `c`, first-read
bit most significant. It answers the symbol and the length of its code, or nothing where no code matches (or the bits run
out first). -/
def walk (t : Tree) : (fuel : Nat) → (len c : Nat) → Bits → Option (Nat × Nat)
  | 0, _, _, _ => none
  | _ + 1, _, _, [] => none
  | fuel + 1, len, c, b :: bs =>
    match find t (len + 1) (2 * c + b.toNat) with
    | some s => some (s, len + 1)
    | none => walk t fuel (len + 1) (2 * c + b.toNat) bs

/-- `Decode(T)` on the bits that come next: the symbol and how many bits it takes. A tree with one symbol reads that
symbol's length, whatever the bits (R226); every other tree walks (R225), the empty one in vain (R227). -/
def decode (t : Tree) (bits : Bits) : Option (Nat × Nat) :=
  match t.codes with
  | [c] => if c.len ≤ bits.length then some (c.sym, c.len) else none
  | _ => walk t Config.maxBits 0 0 bits

/-! ## Encoding -/

/-- The `len` bits of a code value, first-read bit most significant (R108, R228). -/
def codeBits : (len code : Nat) → Bits
  | 0, _ => []
  | len + 1, code => code.testBit len :: codeBits len code

/-- The entry of a symbol, if the tree gives it a code. -/
def entry (t : Tree) (sym : Nat) : Option Code :=
  t.codes.find? fun c => c.sym == sym

/-- The code of a symbol as stream bits; empty where the tree gives it none. -/
def symBits (t : Tree) (sym : Nat) : Bits :=
  match entry t sym with
  | some c => codeBits c.len c.code
  | none => []

end Huffman
end Sys2Proof
end

