-- ==== Sys2Proof/Syntax.lean ====
section
/-! DEFINITION. The elements of the bitstream (R2, R140): one constructor for each row of spec/opcode_table.json, with the
operand fields the row has after its key. Every fixed-width operand is a bit vector of the field's width (R147). -/

namespace Sys2Proof

/-- One element of the stream. The key of a row (R164: BTYPE, or the decoded symbol) is the constructor; the other fields
of the element are its arguments. A length row is followed, in the same step, by a distance row (R145, R320). -/
inductive Instr where
  /-- BTYPE 0 (R281), with BFINAL. -/
  | stored (final : Bool)
  /-- BTYPE 1 (R282), with BFINAL. -/
  | fixed (final : Bool)
  /-- BTYPE 2 (R283), with BFINAL. -/
  | dynamic (final : Bool)
  /-- BTYPE 3 (R284), with BFINAL. -/
  | reserved (final : Bool)
  /-- The stored block's length pair (R285). The pad before it is ignored (U6) and is no operand. -/
  | storedHdr (len nlen : BitVec 16)
  /-- One stored byte (R286). -/
  | storedByte (data : Byte)
  /-- The dynamic header (R250): HLIT, HDIST, HCLEN and the 3-bit code-length code lengths in stream order. -/
  | dynHdr (hlit hdist : BitVec 5) (hclen : BitVec 4) (lens : List (BitVec 3))
  /-- Code-length symbols 0–15 (R254): one length `v`. -/
  | clLen (v : BitVec 4)
  /-- Code-length symbol 16 (R255): repeat the previous length `3 + extra` times. -/
  | clRep16 (extra : BitVec 2)
  /-- Code-length symbol 17 (R256): `3 + extra` zeros. -/
  | clZero17 (extra : BitVec 3)
  /-- Code-length symbol 18 (R257): `11 + extra` zeros. -/
  | clZero18 (extra : BitVec 7)
  /-- Literal/length symbols 0–255 (R288): the byte. -/
  | lit (b : Byte)
  /-- Literal/length symbol 256 (R289): end of block. -/
  | eob
  -- Length symbols (R321–R349, table R352): the extra field, where the row has one.
  | len257
  | len258
  | len259
  | len260
  | len261
  | len262
  | len263
  | len264
  | len265 (extra : BitVec 1)
  | len266 (extra : BitVec 1)
  | len267 (extra : BitVec 1)
  | len268 (extra : BitVec 1)
  | len269 (extra : BitVec 2)
  | len270 (extra : BitVec 2)
  | len271 (extra : BitVec 2)
  | len272 (extra : BitVec 2)
  | len273 (extra : BitVec 3)
  | len274 (extra : BitVec 3)
  | len275 (extra : BitVec 3)
  | len276 (extra : BitVec 3)
  | len277 (extra : BitVec 4)
  | len278 (extra : BitVec 4)
  | len279 (extra : BitVec 4)
  | len280 (extra : BitVec 4)
  | len281 (extra : BitVec 5)
  | len282 (extra : BitVec 5)
  | len283 (extra : BitVec 5)
  | len284 (extra : BitVec 5)
  | len285
  /-- Literal/length symbol 286 (R350): invalid. -/
  | llInvalid286
  /-- Literal/length symbol 287 (R351): invalid. -/
  | llInvalid287
  -- Distance symbols (R361–R390, table R393): the extra field, where the row has one.
  | dist0
  | dist1
  | dist2
  | dist3
  | dist4 (extra : BitVec 1)
  | dist5 (extra : BitVec 1)
  | dist6 (extra : BitVec 2)
  | dist7 (extra : BitVec 2)
  | dist8 (extra : BitVec 3)
  | dist9 (extra : BitVec 3)
  | dist10 (extra : BitVec 4)
  | dist11 (extra : BitVec 4)
  | dist12 (extra : BitVec 5)
  | dist13 (extra : BitVec 5)
  | dist14 (extra : BitVec 6)
  | dist15 (extra : BitVec 6)
  | dist16 (extra : BitVec 7)
  | dist17 (extra : BitVec 7)
  | dist18 (extra : BitVec 8)
  | dist19 (extra : BitVec 8)
  | dist20 (extra : BitVec 9)
  | dist21 (extra : BitVec 9)
  | dist22 (extra : BitVec 10)
  | dist23 (extra : BitVec 10)
  | dist24 (extra : BitVec 11)
  | dist25 (extra : BitVec 11)
  | dist26 (extra : BitVec 12)
  | dist27 (extra : BitVec 12)
  | dist28 (extra : BitVec 13)
  | dist29 (extra : BitVec 13)
  /-- Distance symbol 30 (R391): invalid. -/
  | dInvalid30
  /-- Distance symbol 31 (R392): invalid. -/
  | dInvalid31
  deriving DecidableEq, Repr

end Sys2Proof
end

