-- ==== Sys2Proof/WellFormed.lean ====
section
/-! DEFINITION. Well-formed elements. Every operand but one is a bit vector of its field's width, so the one check left is
that a dynamic header lists as many code-length code lengths as its HCLEN says (R144, R250). -/

namespace Sys2Proof

/-- A dynamic header has `HCLEN + 4` code-length lengths (R144); every other element is well formed by its type. -/
def Instr.wellFormed : Instr → Bool
  | .dynHdr _ _ hclen lens => lens.length == hclen.toNat + 4
  | _ => true

end Sys2Proof
end

