-- ==== Sys2Proof/Decode.lean ====
section
/-! DEFINITION. The decoder and the encoder of the stream's elements (30_encoding.md). Decoding has the two stages of R164:
the format, which PHASE and the tree in force select (R161), and the row, which the key selects. -/

namespace Sys2Proof

/-! ## Bits of the stream -/

/-- The bits of a byte in reading order, least significant first (R106). -/
def bitsOfByte (b : Byte) : Bits := (List.range 8).map b.getLsbD

/-- The bits of bytes in reading order: bit `k` of the stream is bit `k & 7` of byte `k >> 3` (R106). -/
def bitsOfBytes (bs : List Byte) : Bits := bs.flatMap bitsOfByte

/-- The value of a fixed-width field, the first-read bit least significant (R107, R201). -/
def bitsValue : Bits → Nat
  | [] => 0
  | b :: bs => b.toNat + 2 * bitsValue bs

/-- The field of `w` bits that comes next (R107); bits that are not there count as 0. -/
def getField (w : Nat) (bits : Bits) : BitVec w := BitVec.ofNat w (bitsValue (bits.take w))

/-- A field's value as stream bits, first-read bit least significant (R107). -/
def fieldBits {w : Nat} (v : BitVec w) : Bits := (List.range w).map v.getLsbD

/-- `n` fields of 3 bits, in stream order (R144). -/
def getFields3 : Nat → Bits → List (BitVec 3)
  | 0, _ => []
  | n + 1, bits => getField 3 bits :: getFields3 n (bits.drop 3)

/-- Eight bits as a byte, the first-read bit least significant. -/
def bytesOfBits : Nat → Bits → List Byte
  | 0, _ => []
  | n + 1, bits => getField 8 bits :: bytesOfBits n (bits.drop 8)

/-! ## Formats -/

/-- The element formats (R140), each with what its decoding depends on (R161): the number of pad bits before a stored header,
the tree in force before a symbol. -/
inductive Format where
  | blockHdr
  | storedHdr (pad : Nat)
  | storedByte
  | dynHdr
  | clSymbol (t : Tree)
  | llSymbol (t : Tree)
  | dSymbol (t : Tree)
  deriving DecidableEq, Repr

/-- The tree a format decodes its symbol with; the formats without a symbol have none, shown as the empty tree. -/
def Format.tree : Format → Tree
  | .clSymbol t | .llSymbol t | .dSymbol t => t
  | _ => ⟨[]⟩

/-- The pad bits before a stored header's LEN (R142). -/
def Format.pad : Format → Nat
  | .storedHdr pad => pad
  | _ => 0

/-- Why the decoder reads no element from some bits. -/
inductive Reject where
  /-- The bits end inside the element: on the engine this is `UnexpectedEndOfStream` (R452). -/
  | truncated
  /-- Fifteen bits match no code of the tree: on the engine this is `InvalidHuffmanCode` (R456). -/
  | noCode
  deriving DecidableEq, Repr

/-! ## Rows (R151–R154): the key selects the row, the operand fields follow -/

/-- The row of a block header: BTYPE is the key (R151). -/
def blockRow (btype : BitVec 2) (final : Bool) : Instr :=
  match btype with
  | 0#2 => .stored final
  | 1#2 => .fixed final
  | 2#2 => .dynamic final
  | 3#2 => .reserved final

/-- The row of a code-length symbol (R154, R254); `ops` are the bits after its code. -/
def clRow (sym : Nat) (ops : Bits) : Instr :=
  if sym ≤ 15 then .clLen (BitVec.ofNat 4 sym)
  else if sym = 16 then .clRep16 (getField 2 ops)
  else if sym = 17 then .clZero17 (getField 3 ops)
  else .clZero18 (getField 7 ops)

/-- The row of a literal/length symbol (R152, R287); `ops` are the bits after its code. A tree of the engine has no symbol
above 287; as R287's last branch, every symbol from 287 on is the invalid row (log 17). -/
def llRow (sym : Nat) (ops : Bits) : Instr :=
  if sym < 256 then .lit (BitVec.ofNat 8 sym)
  else match sym with
  | 256 => .eob
  | 257 => .len257
  | 258 => .len258
  | 259 => .len259
  | 260 => .len260
  | 261 => .len261
  | 262 => .len262
  | 263 => .len263
  | 264 => .len264
  | 265 => .len265 (getField 1 ops)
  | 266 => .len266 (getField 1 ops)
  | 267 => .len267 (getField 1 ops)
  | 268 => .len268 (getField 1 ops)
  | 269 => .len269 (getField 2 ops)
  | 270 => .len270 (getField 2 ops)
  | 271 => .len271 (getField 2 ops)
  | 272 => .len272 (getField 2 ops)
  | 273 => .len273 (getField 3 ops)
  | 274 => .len274 (getField 3 ops)
  | 275 => .len275 (getField 3 ops)
  | 276 => .len276 (getField 3 ops)
  | 277 => .len277 (getField 4 ops)
  | 278 => .len278 (getField 4 ops)
  | 279 => .len279 (getField 4 ops)
  | 280 => .len280 (getField 4 ops)
  | 281 => .len281 (getField 5 ops)
  | 282 => .len282 (getField 5 ops)
  | 283 => .len283 (getField 5 ops)
  | 284 => .len284 (getField 5 ops)
  | 285 => .len285
  | 286 => .llInvalid286
  | _ => .llInvalid287

/-- The row of a distance symbol (R153, R360); `ops` are the bits after its code. A tree of the engine has no symbol above
31; as R360's `dsym >= 30`, every symbol from 31 on is the invalid row (log 17). -/
def dRow (sym : Nat) (ops : Bits) : Instr :=
  match sym with
  | 0 => .dist0
  | 1 => .dist1
  | 2 => .dist2
  | 3 => .dist3
  | 4 => .dist4 (getField 1 ops)
  | 5 => .dist5 (getField 1 ops)
  | 6 => .dist6 (getField 2 ops)
  | 7 => .dist7 (getField 2 ops)
  | 8 => .dist8 (getField 3 ops)
  | 9 => .dist9 (getField 3 ops)
  | 10 => .dist10 (getField 4 ops)
  | 11 => .dist11 (getField 4 ops)
  | 12 => .dist12 (getField 5 ops)
  | 13 => .dist13 (getField 5 ops)
  | 14 => .dist14 (getField 6 ops)
  | 15 => .dist15 (getField 6 ops)
  | 16 => .dist16 (getField 7 ops)
  | 17 => .dist17 (getField 7 ops)
  | 18 => .dist18 (getField 8 ops)
  | 19 => .dist19 (getField 8 ops)
  | 20 => .dist20 (getField 9 ops)
  | 21 => .dist21 (getField 9 ops)
  | 22 => .dist22 (getField 10 ops)
  | 23 => .dist23 (getField 10 ops)
  | 24 => .dist24 (getField 11 ops)
  | 25 => .dist25 (getField 11 ops)
  | 26 => .dist26 (getField 12 ops)
  | 27 => .dist27 (getField 12 ops)
  | 28 => .dist28 (getField 13 ops)
  | 29 => .dist29 (getField 13 ops)
  | 30 => .dInvalid30
  | _ => .dInvalid31

/-- The extra field of an element, as stream bits (R140): after a code-length, length or distance symbol. -/
def Instr.extraBits : Instr → Bits
  | .clRep16 e => fieldBits e
  | .clZero17 e => fieldBits e
  | .clZero18 e => fieldBits e
  | .len265 e => fieldBits e
  | .len266 e => fieldBits e
  | .len267 e => fieldBits e
  | .len268 e => fieldBits e
  | .len269 e => fieldBits e
  | .len270 e => fieldBits e
  | .len271 e => fieldBits e
  | .len272 e => fieldBits e
  | .len273 e => fieldBits e
  | .len274 e => fieldBits e
  | .len275 e => fieldBits e
  | .len276 e => fieldBits e
  | .len277 e => fieldBits e
  | .len278 e => fieldBits e
  | .len279 e => fieldBits e
  | .len280 e => fieldBits e
  | .len281 e => fieldBits e
  | .len282 e => fieldBits e
  | .len283 e => fieldBits e
  | .len284 e => fieldBits e
  | .dist4 e => fieldBits e
  | .dist5 e => fieldBits e
  | .dist6 e => fieldBits e
  | .dist7 e => fieldBits e
  | .dist8 e => fieldBits e
  | .dist9 e => fieldBits e
  | .dist10 e => fieldBits e
  | .dist11 e => fieldBits e
  | .dist12 e => fieldBits e
  | .dist13 e => fieldBits e
  | .dist14 e => fieldBits e
  | .dist15 e => fieldBits e
  | .dist16 e => fieldBits e
  | .dist17 e => fieldBits e
  | .dist18 e => fieldBits e
  | .dist19 e => fieldBits e
  | .dist20 e => fieldBits e
  | .dist21 e => fieldBits e
  | .dist22 e => fieldBits e
  | .dist23 e => fieldBits e
  | .dist24 e => fieldBits e
  | .dist25 e => fieldBits e
  | .dist26 e => fieldBits e
  | .dist27 e => fieldBits e
  | .dist28 e => fieldBits e
  | .dist29 e => fieldBits e
  | _ => []

/-- The symbol of an element of a Huffman-coded format (R152–R154). -/
def Instr.symbol : Instr → Option Nat
  | .clLen v => some v.toNat
  | .clRep16 _ => some 16
  | .clZero17 _ => some 17
  | .clZero18 _ => some 18
  | .lit b => some b.toNat
  | .eob => some 256
  | .len257 => some 257
  | .len258 => some 258
  | .len259 => some 259
  | .len260 => some 260
  | .len261 => some 261
  | .len262 => some 262
  | .len263 => some 263
  | .len264 => some 264
  | .len265 _ => some 265
  | .len266 _ => some 266
  | .len267 _ => some 267
  | .len268 _ => some 268
  | .len269 _ => some 269
  | .len270 _ => some 270
  | .len271 _ => some 271
  | .len272 _ => some 272
  | .len273 _ => some 273
  | .len274 _ => some 274
  | .len275 _ => some 275
  | .len276 _ => some 276
  | .len277 _ => some 277
  | .len278 _ => some 278
  | .len279 _ => some 279
  | .len280 _ => some 280
  | .len281 _ => some 281
  | .len282 _ => some 282
  | .len283 _ => some 283
  | .len284 _ => some 284
  | .len285 => some 285
  | .llInvalid286 => some 286
  | .llInvalid287 => some 287
  | .dist0 => some 0
  | .dist1 => some 1
  | .dist2 => some 2
  | .dist3 => some 3
  | .dist4 _ => some 4
  | .dist5 _ => some 5
  | .dist6 _ => some 6
  | .dist7 _ => some 7
  | .dist8 _ => some 8
  | .dist9 _ => some 9
  | .dist10 _ => some 10
  | .dist11 _ => some 11
  | .dist12 _ => some 12
  | .dist13 _ => some 13
  | .dist14 _ => some 14
  | .dist15 _ => some 15
  | .dist16 _ => some 16
  | .dist17 _ => some 17
  | .dist18 _ => some 18
  | .dist19 _ => some 19
  | .dist20 _ => some 20
  | .dist21 _ => some 21
  | .dist22 _ => some 22
  | .dist23 _ => some 23
  | .dist24 _ => some 24
  | .dist25 _ => some 25
  | .dist26 _ => some 26
  | .dist27 _ => some 27
  | .dist28 _ => some 28
  | .dist29 _ => some 29
  | .dInvalid30 => some 30
  | .dInvalid31 => some 31
  | _ => none

/-! ## The decoder -/

/-- A symbol's element: its code in the tree, then the row's extra field. The element and how many bits it takes. -/
def decodeSymbol (t : Tree) (row : Nat → Bits → Instr) (bits : Bits) : Option (Instr × Nat) :=
  match Huffman.decode t bits with
  | some (sym, n) => some (row sym (bits.drop n), n + (row sym (bits.drop n)).extraBits.length)
  | none => none

/-- A block header (R141): BFINAL, then BTYPE. -/
def blockHdrElem (bits : Bits) : Instr := blockRow (getField 2 (bits.drop 1)) (bits.headD false)

/-- A stored header (R142) behind `pad` bits, which are not looked at. -/
def storedHdrElem (pad : Nat) (bits : Bits) : Instr :=
  .storedHdr (getField 16 (bits.drop pad)) (getField 16 (bits.drop (pad + 16)))

/-- A stored byte (R143). -/
def storedByteElem (bits : Bits) : Instr := .storedByte (getField 8 bits)

/-- How many code-length code lengths a dynamic header has: `HCLEN + 4` (R144). -/
def clCount (bits : Bits) : Nat := (getField 4 (bits.drop 10)).toNat + 4

/-- A dynamic header (R144). -/
def dynHdrElem (bits : Bits) : Instr :=
  .dynHdr (getField 5 bits) (getField 5 (bits.drop 5)) (getField 4 (bits.drop 10)) (getFields3 (clCount bits) (bits.drop 14))

/-- The element of a format at the head of some bits, and how many bits it takes (R140, R160); bits that are not there count
as 0. Nothing where no code of the tree is there. -/
def decodeRaw (f : Format) (bits : Bits) : Option (Instr × Nat) :=
  match f with
  | .blockHdr => some (blockHdrElem bits, 3)
  | .storedHdr pad => some (storedHdrElem pad bits, pad + 32)
  | .storedByte => some (storedByteElem bits, 8)
  | .dynHdr => some (dynHdrElem bits, 14 + 3 * clCount bits)
  | .clSymbol t => decodeSymbol t clRow bits
  | .llSymbol t => decodeSymbol t llRow bits
  | .dSymbol t => decodeSymbol t dRow bits

/-- The decoder: total on any bits. It answers the element at their head and the bits after it, or why there is none. -/
def decode (f : Format) (bits : Bits) : Except Reject (Instr × Bits) :=
  match decodeRaw f bits with
  | some (i, n) => if n ≤ bits.length then .ok (i, bits.drop n) else .error .truncated
  | none => if bits.length < Config.maxBits then .error .truncated else .error .noCode

/-- The decoder on bytes, from bit `start` of the first one. -/
def decodeBytes (f : Format) (start : Nat) (bytes : List Byte) : Except Reject (Instr × Bits) :=
  decode f ((bitsOfBytes bytes).drop start)

/-! ## The encoder -/

/-- The stream bits of an element in a format (R140, R162): fixed-width fields least significant bit first, the pad as zeros,
a symbol as its code in the format's tree (no bits where that tree gives it no code). -/
def encode (f : Format) (i : Instr) : Bits :=
  match i with
  | .stored final => final :: fieldBits 0#2
  | .fixed final => final :: fieldBits 1#2
  | .dynamic final => final :: fieldBits 2#2
  | .reserved final => final :: fieldBits 3#2
  | .storedHdr len nlen => List.replicate f.pad false ++ fieldBits len ++ fieldBits nlen
  | .storedByte b => fieldBits b
  | .dynHdr hlit hdist hclen lens =>
    fieldBits hlit ++ fieldBits hdist ++ fieldBits hclen ++ lens.flatMap fieldBits
  | i =>
    match i.symbol with
    | some sym => Huffman.symBits f.tree sym ++ i.extraBits
    | none => []

/-- The name of a format, without what its decoding depends on (the column `format` of the opcode table). -/
inductive Kind where
  | blockHdr
  | storedHdr
  | storedByte
  | dynHdr
  | clSymbol
  | llSymbol
  | dSymbol
  deriving DecidableEq, Repr

/-- The format of a row (R140, R164). -/
def Instr.kind : Instr → Kind
  | .stored _ | .fixed _ | .dynamic _ | .reserved _ => .blockHdr
  | .storedHdr _ _ => .storedHdr
  | .storedByte _ => .storedByte
  | .dynHdr _ _ _ _ => .dynHdr
  | .clLen _ | .clRep16 _ | .clZero17 _ | .clZero18 _ => .clSymbol
  | .lit _ | .eob | .llInvalid286 | .llInvalid287 => .llSymbol
  | .len257 | .len258 | .len259 | .len260 | .len261 | .len262 | .len263 | .len264
  | .len265 _ | .len266 _ | .len267 _ | .len268 _ | .len269 _ | .len270 _ | .len271 _ | .len272 _
  | .len273 _ | .len274 _ | .len275 _ | .len276 _ | .len277 _ | .len278 _ | .len279 _ | .len280 _
  | .len281 _ | .len282 _ | .len283 _ | .len284 _ | .len285 => .llSymbol
  | .dist0 | .dist1 | .dist2 | .dist3 | .dist4 _ | .dist5 _ | .dist6 _ | .dist7 _
  | .dist8 _ | .dist9 _ | .dist10 _ | .dist11 _ | .dist12 _ | .dist13 _ | .dist14 _ | .dist15 _
  | .dist16 _ | .dist17 _ | .dist18 _ | .dist19 _ | .dist20 _ | .dist21 _ | .dist22 _ | .dist23 _
  | .dist24 _ | .dist25 _ | .dist26 _ | .dist27 _ | .dist28 _ | .dist29 _ => .dSymbol
  | .dInvalid30 | .dInvalid31 => .dSymbol

/-- The name of a format. -/
def Format.kind : Format → Kind
  | .blockHdr => .blockHdr
  | .storedHdr _ => .storedHdr
  | .storedByte => .storedByte
  | .dynHdr => .dynHdr
  | .clSymbol _ => .clSymbol
  | .llSymbol _ => .llSymbol
  | .dSymbol _ => .dSymbol

/-! ## The words of spec/opcode_table.json -/

/-- The tree whose only symbol is `sym`, with a code of one bit: a degenerate tree (R226). -/
def soloTree (sym : Nat) : Tree := ⟨[⟨1, 0, sym⟩]⟩

/-- A word of the opcode table as a format and stream bits. The table numbers a row's KEY, not its stream bits (R164), and the
keys of three formats overlap in one byte: there the block headers (0–3) and the code-length repeats (16–18) win, and the
other values are distance symbols (log 6). A symbol is laid out as its code in a tree of its own, with its extra field zero; a key the table has no row for gets the
empty tree, which decodes nothing. -/
def tableWord (nbits w : Nat) : Format × Bits :=
  let zeros := List.replicate 71 false
  let keyTree (bound : Nat) := if w < bound then soloTree w else ⟨[]⟩
  if nbits = 0 then (.storedHdr 0, zeros)
  else if nbits ≤ 8 then
    if w < 4 then (.blockHdr, false :: fieldBits (BitVec.ofNat 2 w) ++ zeros)
    else if w = 16 ∨ w = 17 ∨ w = 18 then (.clSymbol (soloTree w), zeros)
    else (.dSymbol (keyTree 32), zeros)
  else if nbits ≤ 16 then (.llSymbol (keyTree 288), zeros)
  else if nbits ≤ 40 then (.storedHdr 0, fieldBits (BitVec.ofNat 32 w) ++ zeros)
  else (.dynHdr, fieldBits (BitVec.ofNat 71 w) ++ zeros)

/-- The instruction the decoder reads from a word of the opcode table (log 6). -/
def decodeTableWord (nbits w : Nat) : Option Instr :=
  match decode (tableWord nbits w).1 (tableWord nbits w).2 with
  | .ok (i, _) => some i
  | .error _ => none

end Sys2Proof
end

