-- ==== Sys2Proof/Machine/State.lean ====
section
/-! DEFINITION. The state of the engine (10_state.md), the reasons a step can stop, and the state after reset (R490). -/

namespace Sys2Proof.Machine

/-- The block state machine's state (R45). -/
inductive Phase where
  | idle
  | hdr
  | storedHdr
  | storedData
  | dynHdr
  | dynSeq
  | sym
  | copy
  | paused
  | done
  | error
  deriving DecidableEq, Repr

/-- The errors of the code table (R451). `invalidHeader` and `trailerMismatch` are the host's: the engine never raises them
(R462, log 24). -/
inductive Err where
  | invalidHeader
  | unexpectedEndOfStream
  | invalidBlockType
  | storedBlockLengthMismatch
  | invalidHuffmanTree
  | invalidHuffmanCode
  | invalidTreeDescription
  | invalidSymbol
  | invalidDistance
  | trailerMismatch
  | outputOverflow
  deriving DecidableEq, Repr

/-- What the host does next (log 3). One host command is one step (R15). -/
inductive HostEvent where
  /-- The host does nothing: the engine moves. -/
  | quiet
  /-- A register write of `bytes` bytes at a byte offset of the register block (R58, R105). -/
  | writeReg (off bytes : Nat) (v : Word)
  /-- A register read of `bytes` bytes at a byte offset of the register block (R58, R105). -/
  | readReg (off bytes : Nat)
  /-- The host places a byte of the payload in IN_MEM (R437, R492). -/
  | fillIn (a : Word) (b : Byte)
  /-- The host reads a byte of OUT_MEM (R500: at any time). -/
  | readOut (a : Word)
  /-- The host writes a byte of OUT_MEM (R408, R500: never during a session). -/
  | writeOut (a : Word) (b : Byte)
  /-- The platform asserts reset (R490). -/
  | reset
  deriving DecidableEq, Repr

/-- The whole state of the engine (R41): every piece 10_state.md names, then the model's own two fields. -/
structure State where
  /-- `PHASE` (R45). -/
  phase : Phase
  /-- `BITPOS`, the program counter (R42). -/
  bitpos : Word
  /-- `BFINAL` (R46). -/
  bfinal : Bool
  /-- `BTYPE` (R47). -/
  btype : BitVec 2
  /-- `BLOCK_IDX` (R48). -/
  blockIdx : Word
  /-- `LL_LEN[0..287]` (R49). -/
  llLen : Vector (BitVec 4) 288
  /-- `D_LEN[0..31]` (R50). -/
  dLen : Vector (BitVec 4) 32
  /-- `CL_LEN[0..18]` (R51). -/
  clLen : Vector (BitVec 3) 19
  /-- `T_LL` (R52); none before its first `Build`. -/
  tLL : Option Tree
  /-- `T_D` (R52). -/
  tD : Option Tree
  /-- `T_CL` (R52). -/
  tCL : Option Tree
  /-- `HLIT` (R53). -/
  hlit : BitVec 5
  /-- `HDIST` (R53). -/
  hdist : BitVec 5
  /-- `HCLEN` (R53). -/
  hclen : BitVec 4
  /-- `SEQ[0..319]` (R54). -/
  seq : Vector (BitVec 4) 320
  /-- `SEQ_IDX` (R54). -/
  seqIdx : BitVec 9
  /-- `SEQ_TOTAL` (R54). -/
  seqTotal : BitVec 9
  /-- `STORED_LEN` (R55). -/
  storedLen : BitVec 16
  /-- `STORED_NLEN` (R55). -/
  storedNlen : BitVec 16
  /-- `STORED_REM` (R55). -/
  storedRem : BitVec 16
  /-- `MATCH_LEN` (R56). -/
  matchLen : BitVec 9
  /-- `MATCH_DIST` (R56). -/
  matchDist : BitVec 16
  /-- `COPY_REM` (R56). -/
  copyRem : BitVec 9
  /-- IN_MEM (R71, R100). -/
  inMem : List Host.Cell
  /-- `IN_LEN` (R61). -/
  inLen : Word
  /-- OUT_MEM (R71, R100). -/
  outMem : List Host.Cell
  /-- `OUT_LEN` (R57, R63). -/
  outLen : Word
  /-- `OUT_CAP` (R62). -/
  outCap : Word
  /-- `CTRL.BLOCK_STEP` (R59). -/
  blockStep : Bool
  /-- `ERR_CODE` (R66). -/
  errCode : BitVec 4
  /-- `ERR_BITPOS` (R67). -/
  errBitpos : Word
  /-- `ERR_BLOCK` (R68). -/
  errBlock : Word
  /-- The model's own (log 3): what the host does in the steps to come, first event first. -/
  hostQueue : List HostEvent
  /-- The model's own (log 3): what the last host read returned. -/
  hostData : Word
  deriving DecidableEq, Repr

/-- Why the machine stops with a fault. Both are raised only in states that no run from reset reaches. -/
inductive Fault where
  /-- Raised by a `Decode` while the tree it needs was never built (R52: "a tree exists only after its `Build`"). Safe: the
  spec gives such a decode no meaning (log 9). -/
  | treeAbsent
  /-- Raised by a copy step whose distance exceeds `OUT_LEN`, so that its source byte does not exist (R11, R402). Safe: `CopyStart`
  rules it out (log 10). -/
  | copySourceAbsent
  deriving DecidableEq, Repr

/-- Why the model gives a step no meaning. -/
inductive Refusal where
  /-- Raised by `exec` for an instruction with no meaning yet. Safe: nothing is claimed of it. -/
  | notModelled (mnemonic : String)
  /-- Raised by a host write to IN_MEM or OUT_MEM while a session runs or pauses (R500, U14: refuse). Safe: such a program is
  outside the model. -/
  | bufferWriteInSession
  /-- Raised by a host write of `IN_LEN > IN_LEN_MAX` outside a session (R502, U15: refuse). Safe: as above. -/
  | inLenTooLarge
  /-- Raised by a register access that is not an aligned 32-bit access of the 64-byte block (R105, U17: refuse). Safe: as
  above. -/
  | badRegisterAccess
  deriving DecidableEq, Repr

/-- What every step and every meaning answers. -/
abbrev Result := Host.Outcome State Fault Refusal

/-- The machine right after reset (R490). The tables and `SEQ`, which R490 leaves unspecified, are zero (log 1); both memories
list nothing (log 2); the host has nothing to do (log 3). -/
def State.reset : State where
  phase := .idle
  bitpos := 0
  bfinal := false
  btype := 0
  blockIdx := 0
  llLen := Vector.replicate 288 0
  dLen := Vector.replicate 32 0
  clLen := Vector.replicate 19 0
  tLL := none
  tD := none
  tCL := none
  hlit := 0
  hdist := 0
  hclen := 0
  seq := Vector.replicate 320 0
  seqIdx := 0
  seqTotal := 0
  storedLen := 0
  storedNlen := 0
  storedRem := 0
  matchLen := 0
  matchDist := 0
  copyRem := 0
  inMem := []
  inLen := 0
  outMem := []
  outLen := 0
  outCap := 0
  blockStep := false
  errCode := 0
  errBitpos := 0
  errBlock := 0
  hostQueue := []
  hostData := 0

end Sys2Proof.Machine
end

