-- ==== Sys2Proof/Machine/Ops.lean ====
section
/-! DEFINITION. The named operations over memory, tables and the output, and taking an error (R460), written once. An operation
that can end its step takes the rest of the step as an argument and drops it when it raises (R13). -/

namespace Sys2Proof.Machine

/-! ## Memory: IN_MEM and OUT_MEM (R100) -/

/-- A byte space in canonical form: addresses strictly rising, no entry equal to what an unlisted address reads as. -/
abbrev Memory := List Host.Cell

namespace Memory

/-- The byte at an address (R11); an address not listed reads as `Config.unlistedByte` (log 2). -/
def read (m : Memory) (a : Nat) : Byte :=
  match m.find? (fun c => c.1 == a) with
  | some c => c.2
  | none => Config.unlistedByte

/-- An entry in front of a memory, left out where it is what the address reads as anyway. -/
def cons (a : Nat) (b : Byte) (m : Memory) : Memory :=
  if b = Config.unlistedByte then m else (a, b) :: m

/-- Write one byte (R11, R104), keeping the canonical form. -/
def write (a : Nat) (b : Byte) : Memory → Memory
  | [] => cons a b []
  | (a', b') :: m =>
    if a < a' then cons a b ((a', b') :: m)
    else if a = a' then cons a b m
    else (a', b') :: write a b m

/-- Write bytes at rising addresses from `a`. -/
def writeBytes (a : Nat) : List Byte → Memory → Memory
  | [], m => m
  | b :: bs, m => writeBytes (a + 1) bs (write a b m)

/-- The canonical form. -/
abbrev wf (m : Memory) : Prop :=
  m.Pairwise (fun c c' => c.1 < c'.1) ∧ ∀ c ∈ m, c.2 ≠ Config.unlistedByte

end Memory

/-! ## Tables (R49–R51, R54) -/

/-- Entry `i` of a table (R10). -/
def tableGet {w n : Nat} (t : Vector (BitVec w) n) (i : Nat) : BitVec w := t.toList.getD i 0

/-- `T[i] <- v` (R10). -/
def tableSet {w n : Nat} (t : Vector (BitVec w) n) (i : Nat) (v : BitVec w) : Vector (BitVec w) n :=
  t.setIfInBounds i v

/-- The table whose entry `i` is `f i`. -/
def tableOf (w n : Nat) (f : Nat → BitVec w) : Vector (BitVec w) n := Vector.ofFn fun i => f i.val

/-- `for k in 0..r-1: T[i + k] <- v` (R255–R257). -/
def tableFill {w n : Nat} (t : Vector (BitVec w) n) (i : Nat) (v : BitVec w) : Nat → Vector (BitVec w) n
  | 0 => t
  | r + 1 => tableFill (tableSet t i v) (i + 1) v r

/-- The first `k` entries of a table as the code lengths `Build` takes (R220). -/
def tableLengths {w n : Nat} (t : Vector (BitVec w) n) (k : Nat) : List Nat :=
  (t.toList.take k).map BitVec.toNat

/-! ## Taking an error (R450, R460) -/

/-- The error numbers (R451). -/
def Err.code : Err → BitVec 4
  | .invalidHeader => 1
  | .unexpectedEndOfStream => 2
  | .invalidBlockType => 3
  | .storedBlockLengthMismatch => 4
  | .invalidHuffmanTree => 5
  | .invalidHuffmanCode => 6
  | .invalidTreeDescription => 7
  | .invalidSymbol => 8
  | .invalidDistance => 9
  | .trailerMismatch => 10
  | .outputOverflow => 11

/-- Trap entry `RAISE(E)` (R460): the error, where it was found and in which block are recorded, and the session stops.
There is no saved return point and no return (R463); only START or reset leaves `ERROR`. -/
def raise (e : Err) (s : State) : State :=
  { s with errCode := e.code, errBitpos := s.bitpos, errBlock := s.blockIdx, phase := .error }

/-- `T <- Build(lengths)` (R220): the rest of the step gets the tree; an over-subscribed set raises (R222, R455). -/
def buildThen (ls : List Nat) (s : State) (k : Tree → Result) : Result :=
  match Huffman.build ls with
  | some t => k t
  | none => .next (raise .invalidHuffmanTree s)

/-- `T_LL <- Build(…)`, then `T_D <- Build(…)`, then `PHASE <- SYM`: how a fixed and a dynamic block get their trees (R282, R260,
D17). A first tree that fails leaves both as they were; a second one leaves the new `T_LL`. -/
def buildTrees (ll d : List Nat) (s : State) : Result :=
  buildThen ll s fun tLL =>
    buildThen d { s with tLL := some tLL } fun tD =>
      .next { s with tLL := some tLL, tD := some tD, phase := .sym }

/-! ## The output (R400–R406) and the end of a block (R290) -/

/-- `Append(b)` (R401, R406): raises `OutputOverflow` before writing where the output is full. -/
def append (b : Byte) (s : State) (k : State → Result) : Result :=
  if s.outLen = s.outCap then .next (raise .outputOverflow s)
  else k { s with outMem := Memory.write s.outLen.toNat b s.outMem, outLen := s.outLen + 1 }

/-- `CopyStart()` (R403): the distance must be between 1 and the number of bytes produced so far. -/
def copyStart (s : State) : State :=
  if s.matchDist.toNat < 1 ∨ s.outLen.toNat < s.matchDist.toNat then raise .invalidDistance s
  else { s with copyRem := s.matchLen, phase := .copy }

/-- The copy step (R402): one byte of a match, read relative to the output as it grows. A distance beyond the output has no
source byte (log 10). -/
def copyStep (s : State) : Result :=
  if s.outLen.toNat < s.matchDist.toNat then .fault .copySourceAbsent
  else append (Memory.read s.outMem (s.outLen.toNat - s.matchDist.toNat)) s fun s =>
    .next { s with copyRem := s.copyRem - 1, phase := if s.copyRem = 1 then .sym else s.phase }

end Sys2Proof.Machine
end

