-- ==== Sys2Proof/Machine/Flags.lean ====
section
/-! DEFINITION. The flags of the block state machine and the status views: `STATUS.STATE` as a function of `PHASE` (R45, R60),
`CTRL` as it reads (R59), and what `BFINAL` and `BLOCK_STEP` decide at the end of a block (R290, R423). -/

namespace Sys2Proof.Machine

/-- `STATUS.STATE` (R60). -/
inductive Status where
  | idle
  | busy
  | paused
  | done
  | error
  deriving DecidableEq, Repr

/-- The state shown for a phase (R45). -/
def Phase.status : Phase → Status
  | .idle => .idle
  | .hdr | .storedHdr | .storedData | .dynHdr | .dynSeq | .sym | .copy => .busy
  | .paused => .paused
  | .done => .done
  | .error => .error

/-- The encoding of `STATUS.STATE` in bits 2:0 (R60). -/
def Status.code : Status → Word
  | .idle => 0
  | .busy => 1
  | .paused => 2
  | .done => 3
  | .error => 4

/-- A session runs or pauses: `STATUS.STATE ∈ {BUSY, PAUSED}` (R425, R500). -/
def Phase.inSession (p : Phase) : Bool :=
  p.status = .busy ∨ p.status = .paused

/-- `STATUS` as it reads (R60). -/
def statusWord (s : State) : Word := s.phase.status.code

/-- `CTRL` as it reads (R59): only `BLOCK_STEP`, bit 8, is stored. -/
def ctrlWord (s : State) : Word := if s.blockStep then 0x100 else 0

/-- Where the end of a block leads (R290): the final block ends the session; another one pauses in block-step mode (R423). -/
def phaseAfterBlock (bfinal blockStep : Bool) : Phase :=
  if bfinal then .done else if blockStep then .paused else .hdr

/-- `BlockEnd()` (R290). -/
def blockEnd (s : State) : State :=
  { s with blockIdx := s.blockIdx + 1, phase := phaseAfterBlock s.bfinal s.blockStep }

end Sys2Proof.Machine
end

