-- ==== Sys2Proof/Machine/Operands.lean ====
section
/-! DEFINITION. Reading the stream: the BitReader's primitives as the spec writes them (41_bit_reader.md, R225–R227), and the
form the machine steps with, where the decoder looks at the bits that come next and the meaning then consumes each field
(log 7). -/

namespace Sys2Proof.Machine

/-! ## The BitReader as the spec writes it -/

/-- `ReadBit()` (R200): the rest of the step gets the bit; at the end of the input it raises. -/
def readBit (s : State) (k : Bool → State → Result) : Result :=
  if s.bitpos.toNat = 8 * s.inLen.toNat then .next (raise .unexpectedEndOfStream s)
  else k ((Memory.read s.inMem (s.bitpos >>> 3).toNat).getLsbD (s.bitpos &&& 7).toNat) { s with bitpos := s.bitpos + 1 }

/-- The loop of `ReadBits` (R201), `n` bits to go, from bit `i` of the value `v`. -/
def readBitsFrom : (n i v : Nat) → State → (Nat → State → Result) → Result
  | 0, _, v, s, k => k v s
  | n + 1, i, v, s, k => readBit s fun b s => readBitsFrom n (i + 1) (v ||| (b.toNat <<< i)) s k

/-- `ReadBits(n)` (R201, R202). -/
def readBits (n : Nat) (s : State) (k : Nat → State → Result) : Result := readBitsFrom n 0 0 s k

/-- `AlignByte()` (R203). -/
def alignByte (s : State) : State := { s with bitpos := (s.bitpos + 7) &&& ~~~7#32 }

/-- The loop of `Decode` (R225), `n` bits to go, `len` bits read with the running value `c`. -/
def decodeFrom (t : Tree) : (n len c : Nat) → State → (Nat → State → Result) → Result
  | 0, _, _, s, _ => .next (raise .invalidHuffmanCode s)
  | n + 1, len, c, s, k => readBit s fun b s =>
    match Huffman.find t (len + 1) (2 * c + b.toNat) with
    | some sym => k sym s
    | none => decodeFrom t n (len + 1) (2 * c + b.toNat) s k

/-- `Decode(T)` bit by bit (R225–R227): a degenerate tree reads its symbol's length and ignores the bits. -/
def decodeSerial (t : Tree) (s : State) (k : Nat → State → Result) : Result :=
  match t.codes with
  | [c] => readBits c.len s fun _ s => k c.sym s
  | _ => decodeFrom t Config.maxBits 0 0 s k

/-! ## The form the machine steps with (log 7) -/

/-- Input byte `a`, or zero beyond the end of the input: IN_MEM is never read there (R205). -/
def inByte (s : State) (a : Nat) : Byte :=
  if a < s.inLen.toNat then Memory.read s.inMem a else 0

/-- The bits that come next, from `BITPOS` on (R42, R106): at least the 71 bits of the longest element (R140). Bits beyond the
end of the input count as zero; no step uses them, since the field they stand in raises when it is consumed (log 7). -/
def window (s : State) : Bits :=
  (bitsOfBytes ((List.range 10).map fun j => inByte s (s.bitpos.toNat / 8 + j))).drop (s.bitpos.toNat % 8)

/-- The pad bits before a stored header (R142, R203). -/
def padBits (s : State) : Nat := (8 - s.bitpos.toNat % 8) % 8

/-- Consume a field of `n` bits (R200–R202): the rest of the step goes on behind it. Where the input ends inside the field, the
bits before the end stay consumed and `UnexpectedEndOfStream` is raised (D10, R452). -/
def field (n : Nat) (s : State) (k : State → Result) : Result :=
  if s.bitpos.toNat + n ≤ 8 * s.inLen.toNat then k { s with bitpos := s.bitpos + BitVec.ofNat 32 n }
  else .next (raise .unexpectedEndOfStream { s with bitpos := BitVec.ofNat 32 (8 * s.inLen.toNat) })

/-- `Decode(T)` (R225–R227): the rest of the step gets the symbol and stands behind its code. Where no code matches, 15 bits
are consumed and `InvalidHuffmanCode` is raised. -/
def huff (t : Tree) (s : State) (k : Nat → State → Result) : Result :=
  match Huffman.decode t (window s) with
  | some (sym, n) => field n s (k sym)
  | none => field Config.maxBits s fun s => .next (raise .invalidHuffmanCode s)

end Sys2Proof.Machine
end

