-- ==== Sys2Proof/Machine/Block.lean ====
section
/-! DEFINITION. The BlockDecoder's headers and stored blocks (44_block_decoder.md, R280–R286). -/

namespace Sys2Proof.Machine

/-- The part of `BLOCK_HDR` all four rows share (R280): BFINAL, then BTYPE, each written as it is read. -/
def blockHdr (final : Bool) (btype : BitVec 2) (s : State) (k : State → Result) : Result :=
  field 1 s fun s => field 2 { s with bfinal := final } fun s => k { s with btype := btype }

/-- `STORED` (R281). -/
def execStored (final : Bool) (s : State) : Result :=
  blockHdr final 0#2 s fun s => .next { s with phase := .storedHdr }

/-- The fixed length assignment of the literal/length alphabet (R230, R282). -/
def fixedLLLen (sym : Nat) : BitVec 4 :=
  if sym ≤ 143 then 8 else if sym ≤ 255 then 9 else if sym ≤ 279 then 7 else 8

/-- The fixed length assignment of the distance alphabet (R231, R282). -/
def fixedDLen (sym : Nat) : BitVec 4 :=
  if sym ≤ 29 then 5 else 0

/-- The length tables a fixed block writes (R282). -/
def setFixedTables (s : State) : State :=
  { s with llLen := tableOf 4 288 fixedLLLen, dLen := tableOf 4 32 fixedDLen }

/-- `FIXED` (R282). Neither `Build` ever fails (R230, R231). -/
def execFixed (final : Bool) (s : State) : Result :=
  blockHdr final 1#2 s fun s =>
    buildTrees (tableLengths (setFixedTables s).llLen 288) (tableLengths (setFixedTables s).dLen 30) (setFixedTables s)

/-- `DYNAMIC` (R283). -/
def execDynamic (final : Bool) (s : State) : Result :=
  blockHdr final 2#2 s fun s => .next { s with phase := .dynHdr }

/-- `RESERVED` (R284): raises `InvalidBlockType` behind the 3 header bits. -/
def execReserved (final : Bool) (s : State) : Result :=
  blockHdr final 3#2 s fun s => .next (raise .invalidBlockType s)

/-- `STORED_HDR` (R285). -/
def execStoredHdr (len nlen : BitVec 16) (s : State) : Result :=
  field 16 (alignByte s) fun s =>
    field 16 { s with storedLen := len } fun s =>
      let s := { s with storedNlen := nlen }
      if nlen ≠ ~~~len then .next (raise .storedBlockLengthMismatch s)
      else
        let s := { s with storedRem := len }
        if len = 0 then .next (blockEnd s) else .next { s with phase := .storedData }

/-- `STORED_BYTE` (R286). -/
def execStoredByte (data : Byte) (s : State) : Result :=
  field 8 s fun s => append data s fun s =>
    let s := { s with storedRem := s.storedRem - 1 }
    .next (if s.storedRem = 0 then blockEnd s else s)

end Sys2Proof.Machine
end

