-- ==== Sys2Proof/Machine/Descriptor.lean ====
section
/-! DEFINITION. The DynamicTreeDescriptor (43_tree_descriptor.md, R250–R262). -/

namespace Sys2Proof.Machine

/-- The code-length permutation `ORDER` (R157, R251). -/
def clOrder : List Nat := [16, 17, 18, 0, 8, 7, 9, 6, 10, 5, 11, 4, 12, 3, 13, 2, 14, 1, 15]

/-- The loop over the code-length code lengths (R250): each is written to its place of `CL_LEN` as it is read. -/
def clLengths : List (Nat × BitVec 3) → State → (State → Result) → Result
  | [], s, k => k s
  | (i, l) :: rest, s, k => field 3 s fun s => clLengths rest { s with clLen := tableSet s.clLen i l } k

/-- `SEQ_TOTAL` of a header (R253, R250). -/
def seqTotalOf (hlit hdist : BitVec 5) : BitVec 9 := BitVec.ofNat 9 (hlit.toNat + 257 + hdist.toNat + 1)

/-- `DYN_HDR` (R250–R253). -/
def execDynHdr (hlit hdist : BitVec 5) (hclen : BitVec 4) (lens : List (BitVec 3)) (s : State) : Result :=
  field 5 s fun s =>
    field 5 { s with hlit := hlit } fun s =>
      field 4 { s with hdist := hdist } fun s =>
        clLengths (clOrder.zip lens) { s with hclen := hclen, clLen := tableOf 3 19 fun _ => 0 } fun s =>
          buildThen (tableLengths s.clLen 19) s fun tCL =>
            .next { s with
              tCL := some tCL
              seqTotal := seqTotalOf hlit hdist
              seqIdx := 0
              phase := .dynSeq }

/-- `LL_LEN` as sliced from `SEQ` (R259). -/
def sliceLL (s : State) : Vector (BitVec 4) 288 :=
  tableOf 4 288 fun i => if i ≤ s.hlit.toNat + 256 then tableGet s.seq i else 0

/-- `D_LEN` as sliced from `SEQ` (R259). -/
def sliceD (s : State) : Vector (BitVec 4) 32 :=
  tableOf 4 32 fun i => if i ≤ s.hdist.toNat then tableGet s.seq (s.hlit.toNat + 257 + i) else 0

/-- `DescriptorFinish` (R260): slice, then build `T_LL`, then `T_D` (D17). -/
def descriptorFinish (s : State) : Result :=
  buildTrees (tableLengths (sliceLL s) (s.hlit.toNat + 257)) (tableLengths (sliceD s) (s.hdist.toNat + 1))
    { s with llLen := sliceLL s, dLen := sliceD s }

/-- The end of a `CL_SYMBOL` (R253, R254): the element that fills the sequence finishes the descriptor in the same step. -/
def clFinish (s : State) : Result :=
  if s.seqIdx = s.seqTotal then descriptorFinish s else .next s

/-- A run of `r` entries of value `v` (R255–R258): one past `SEQ_TOTAL` raises before any entry is written. -/
def clRun (r : Nat) (v : BitVec 4) (s : State) : Result :=
  if s.seqTotal.toNat < s.seqIdx.toNat + r then .next (raise .invalidTreeDescription s)
  else clFinish { s with
    seq := tableFill s.seq s.seqIdx.toNat v r
    seqIdx := s.seqIdx + BitVec.ofNat 9 r }

/-- `CL v` (R254). -/
def execClLen (v : BitVec 4) (s : State) : Result :=
  clFinish { s with seq := tableSet s.seq s.seqIdx.toNat v, seqIdx := s.seqIdx + 1 }

/-- `CL16 r` (R255): no predecessor is an error found before the extra bits are read (D16). -/
def execClRep16 (extra : BitVec 2) (s : State) : Result :=
  if s.seqIdx = 0 then .next (raise .invalidTreeDescription s)
  else field 2 s fun s => clRun (3 + extra.toNat) (tableGet s.seq (s.seqIdx.toNat - 1)) s

/-- `CL17 r` (R256). -/
def execClZero17 (extra : BitVec 3) (s : State) : Result :=
  field 3 s fun s => clRun (3 + extra.toNat) 0 s

/-- `CL18 r` (R257). -/
def execClZero18 (extra : BitVec 7) (s : State) : Result :=
  field 7 s fun s => clRun (11 + extra.toNat) 0 s

end Sys2Proof.Machine
end

