-- ==== Sys2Proof/Machine/Distance.lean ====
section
/-! DEFINITION. The distance symbols (45_length_distance.md, R360–R393). They run inside the step of the length symbol before
them (R320, R360; log 18). The bases are those of R393, which the spec takes from general knowledge (G5, log 19). -/

namespace Sys2Proof.Machine

/-- What the valid distance rows share (R360): consume the extra field, write `MATCH_DIST`, start the copy. -/
def distRow {w : Nat} (base : Nat) (extra : BitVec w) (s : State) : Result :=
  field w s fun s => .next (copyStart { s with matchDist := BitVec.ofNat 16 (base + extra.toNat) })

/-- `DIST0` (R361): distance 1, no extra bits. -/
def execDist0 (s : State) : Result := distRow 1 0#0 s

/-- `DIST1` (R362): distance 2, no extra bits. -/
def execDist1 (s : State) : Result := distRow 2 0#0 s

/-- `DIST2` (R363): distance 3, no extra bits. -/
def execDist2 (s : State) : Result := distRow 3 0#0 s

/-- `DIST3` (R364): distance 4, no extra bits. -/
def execDist3 (s : State) : Result := distRow 4 0#0 s

/-- `DIST4` (R365): base 5, 1 extra bit. -/
def execDist4 (extra : BitVec 1) (s : State) : Result := distRow 5 extra s

/-- `DIST5` (R366): base 7, 1 extra bit. -/
def execDist5 (extra : BitVec 1) (s : State) : Result := distRow 7 extra s

/-- `DIST6` (R367): base 9, 2 extra bits. -/
def execDist6 (extra : BitVec 2) (s : State) : Result := distRow 9 extra s

/-- `DIST7` (R368): base 13, 2 extra bits. -/
def execDist7 (extra : BitVec 2) (s : State) : Result := distRow 13 extra s

/-- `DIST8` (R369): base 17, 3 extra bits. -/
def execDist8 (extra : BitVec 3) (s : State) : Result := distRow 17 extra s

/-- `DIST9` (R370): base 25, 3 extra bits. -/
def execDist9 (extra : BitVec 3) (s : State) : Result := distRow 25 extra s

/-- `DIST10` (R371): base 33, 4 extra bits. -/
def execDist10 (extra : BitVec 4) (s : State) : Result := distRow 33 extra s

/-- `DIST11` (R372): base 49, 4 extra bits. -/
def execDist11 (extra : BitVec 4) (s : State) : Result := distRow 49 extra s

/-- `DIST12` (R373): base 65, 5 extra bits. -/
def execDist12 (extra : BitVec 5) (s : State) : Result := distRow 65 extra s

/-- `DIST13` (R374): base 97, 5 extra bits. -/
def execDist13 (extra : BitVec 5) (s : State) : Result := distRow 97 extra s

/-- `DIST14` (R375): base 129, 6 extra bits. -/
def execDist14 (extra : BitVec 6) (s : State) : Result := distRow 129 extra s

/-- `DIST15` (R376): base 193, 6 extra bits. -/
def execDist15 (extra : BitVec 6) (s : State) : Result := distRow 193 extra s

/-- `DIST16` (R377): base 257, 7 extra bits. -/
def execDist16 (extra : BitVec 7) (s : State) : Result := distRow 257 extra s

/-- `DIST17` (R378): base 385, 7 extra bits. -/
def execDist17 (extra : BitVec 7) (s : State) : Result := distRow 385 extra s

/-- `DIST18` (R379): base 513, 8 extra bits. -/
def execDist18 (extra : BitVec 8) (s : State) : Result := distRow 513 extra s

/-- `DIST19` (R380): base 769, 8 extra bits. -/
def execDist19 (extra : BitVec 8) (s : State) : Result := distRow 769 extra s

/-- `DIST20` (R381): base 1025, 9 extra bits. -/
def execDist20 (extra : BitVec 9) (s : State) : Result := distRow 1025 extra s

/-- `DIST21` (R382): base 1537, 9 extra bits. -/
def execDist21 (extra : BitVec 9) (s : State) : Result := distRow 1537 extra s

/-- `DIST22` (R383): base 2049, 10 extra bits. -/
def execDist22 (extra : BitVec 10) (s : State) : Result := distRow 2049 extra s

/-- `DIST23` (R384): base 3073, 10 extra bits. -/
def execDist23 (extra : BitVec 10) (s : State) : Result := distRow 3073 extra s

/-- `DIST24` (R385): base 4097, 11 extra bits. -/
def execDist24 (extra : BitVec 11) (s : State) : Result := distRow 4097 extra s

/-- `DIST25` (R386): base 6145, 11 extra bits. -/
def execDist25 (extra : BitVec 11) (s : State) : Result := distRow 6145 extra s

/-- `DIST26` (R387): base 8193, 12 extra bits. -/
def execDist26 (extra : BitVec 12) (s : State) : Result := distRow 8193 extra s

/-- `DIST27` (R388): base 12289, 12 extra bits. -/
def execDist27 (extra : BitVec 12) (s : State) : Result := distRow 12289 extra s

/-- `DIST28` (R389): base 16385, 13 extra bits. -/
def execDist28 (extra : BitVec 13) (s : State) : Result := distRow 16385 extra s

/-- `DIST29` (R390): base 24577, 13 extra bits. -/
def execDist29 (extra : BitVec 13) (s : State) : Result := distRow 24577 extra s

/-- Distance symbol 30 (R391): raises `InvalidSymbol` before any extra bit. -/
def execDInvalid30 (s : State) : Result := .next (raise .invalidSymbol s)

/-- Distance symbol 31 (R392). -/
def execDInvalid31 (s : State) : Result := .next (raise .invalidSymbol s)

/-- The row of a decoded distance symbol, run (R360, R164): its extra field is the bits that come next. -/
def distanceSymbol (sym : Nat) (s : State) : Result :=
  match sym with
  | 0 => execDist0 s
  | 1 => execDist1 s
  | 2 => execDist2 s
  | 3 => execDist3 s
  | 4 => execDist4 (getField 1 (window s)) s
  | 5 => execDist5 (getField 1 (window s)) s
  | 6 => execDist6 (getField 2 (window s)) s
  | 7 => execDist7 (getField 2 (window s)) s
  | 8 => execDist8 (getField 3 (window s)) s
  | 9 => execDist9 (getField 3 (window s)) s
  | 10 => execDist10 (getField 4 (window s)) s
  | 11 => execDist11 (getField 4 (window s)) s
  | 12 => execDist12 (getField 5 (window s)) s
  | 13 => execDist13 (getField 5 (window s)) s
  | 14 => execDist14 (getField 6 (window s)) s
  | 15 => execDist15 (getField 6 (window s)) s
  | 16 => execDist16 (getField 7 (window s)) s
  | 17 => execDist17 (getField 7 (window s)) s
  | 18 => execDist18 (getField 8 (window s)) s
  | 19 => execDist19 (getField 8 (window s)) s
  | 20 => execDist20 (getField 9 (window s)) s
  | 21 => execDist21 (getField 9 (window s)) s
  | 22 => execDist22 (getField 10 (window s)) s
  | 23 => execDist23 (getField 10 (window s)) s
  | 24 => execDist24 (getField 11 (window s)) s
  | 25 => execDist25 (getField 11 (window s)) s
  | 26 => execDist26 (getField 12 (window s)) s
  | 27 => execDist27 (getField 12 (window s)) s
  | 28 => execDist28 (getField 13 (window s)) s
  | 29 => execDist29 (getField 13 (window s)) s
  | 30 => execDInvalid30 s
  | _ => execDInvalid31 s

/-- `DISTANCE()` (R360): one symbol of `T_D` and its row. -/
def distance (s : State) : Result :=
  match s.tD with
  | some t => huff t s distanceSymbol
  | none => .fault .treeAbsent

end Sys2Proof.Machine
end

