-- ==== Sys2Proof/Machine/Length.lean ====
section
/-! DEFINITION. The length symbols (45_length_distance.md, R320–R349). The bases are those of R352, which the spec takes from
general knowledge for all rows but LEN285 (G4, log 19). -/

namespace Sys2Proof.Machine

/-- `LENGTH(sym)` (R320): consume the extra field, write `MATCH_LEN`, go on with the distance in the same step. -/
def lengthRow {w : Nat} (base : Nat) (extra : BitVec w) (s : State) : Result :=
  field w s fun s => distance { s with matchLen := BitVec.ofNat 9 (base + extra.toNat) }

/-- `LEN257` (R321): length 3, no extra bits. -/
def execLen257 (s : State) : Result := lengthRow 3 0#0 s

/-- `LEN258` (R322): length 4, no extra bits. -/
def execLen258 (s : State) : Result := lengthRow 4 0#0 s

/-- `LEN259` (R323): length 5, no extra bits. -/
def execLen259 (s : State) : Result := lengthRow 5 0#0 s

/-- `LEN260` (R324): length 6, no extra bits. -/
def execLen260 (s : State) : Result := lengthRow 6 0#0 s

/-- `LEN261` (R325): length 7, no extra bits. -/
def execLen261 (s : State) : Result := lengthRow 7 0#0 s

/-- `LEN262` (R326): length 8, no extra bits. -/
def execLen262 (s : State) : Result := lengthRow 8 0#0 s

/-- `LEN263` (R327): length 9, no extra bits. -/
def execLen263 (s : State) : Result := lengthRow 9 0#0 s

/-- `LEN264` (R328): length 10, no extra bits. -/
def execLen264 (s : State) : Result := lengthRow 10 0#0 s

/-- `LEN265` (R329): base 11, 1 extra bit. -/
def execLen265 (extra : BitVec 1) (s : State) : Result := lengthRow 11 extra s

/-- `LEN266` (R330): base 13, 1 extra bit. -/
def execLen266 (extra : BitVec 1) (s : State) : Result := lengthRow 13 extra s

/-- `LEN267` (R331): base 15, 1 extra bit. -/
def execLen267 (extra : BitVec 1) (s : State) : Result := lengthRow 15 extra s

/-- `LEN268` (R332): base 17, 1 extra bit. -/
def execLen268 (extra : BitVec 1) (s : State) : Result := lengthRow 17 extra s

/-- `LEN269` (R333): base 19, 2 extra bits. -/
def execLen269 (extra : BitVec 2) (s : State) : Result := lengthRow 19 extra s

/-- `LEN270` (R334): base 23, 2 extra bits. -/
def execLen270 (extra : BitVec 2) (s : State) : Result := lengthRow 23 extra s

/-- `LEN271` (R335): base 27, 2 extra bits. -/
def execLen271 (extra : BitVec 2) (s : State) : Result := lengthRow 27 extra s

/-- `LEN272` (R336): base 31, 2 extra bits. -/
def execLen272 (extra : BitVec 2) (s : State) : Result := lengthRow 31 extra s

/-- `LEN273` (R337): base 35, 3 extra bits. -/
def execLen273 (extra : BitVec 3) (s : State) : Result := lengthRow 35 extra s

/-- `LEN274` (R338): base 43, 3 extra bits. -/
def execLen274 (extra : BitVec 3) (s : State) : Result := lengthRow 43 extra s

/-- `LEN275` (R339): base 51, 3 extra bits. -/
def execLen275 (extra : BitVec 3) (s : State) : Result := lengthRow 51 extra s

/-- `LEN276` (R340): base 59, 3 extra bits. -/
def execLen276 (extra : BitVec 3) (s : State) : Result := lengthRow 59 extra s

/-- `LEN277` (R341): base 67, 4 extra bits. -/
def execLen277 (extra : BitVec 4) (s : State) : Result := lengthRow 67 extra s

/-- `LEN278` (R342): base 83, 4 extra bits. -/
def execLen278 (extra : BitVec 4) (s : State) : Result := lengthRow 83 extra s

/-- `LEN279` (R343): base 99, 4 extra bits. -/
def execLen279 (extra : BitVec 4) (s : State) : Result := lengthRow 99 extra s

/-- `LEN280` (R344): base 115, 4 extra bits. -/
def execLen280 (extra : BitVec 4) (s : State) : Result := lengthRow 115 extra s

/-- `LEN281` (R345): base 131, 5 extra bits. -/
def execLen281 (extra : BitVec 5) (s : State) : Result := lengthRow 131 extra s

/-- `LEN282` (R346): base 163, 5 extra bits. -/
def execLen282 (extra : BitVec 5) (s : State) : Result := lengthRow 163 extra s

/-- `LEN283` (R347): base 195, 5 extra bits. -/
def execLen283 (extra : BitVec 5) (s : State) : Result := lengthRow 195 extra s

/-- `LEN284` (R348): base 227, 5 extra bits. -/
def execLen284 (extra : BitVec 5) (s : State) : Result := lengthRow 227 extra s

/-- `LEN285` (R349): length 258, no extra bits. -/
def execLen285 (s : State) : Result := lengthRow 258 0#0 s

end Sys2Proof.Machine
end

