-- ==== Sys2Proof/Machine/Symbol.lean ====
section
/-! DEFINITION. The literal/length symbols that are no length: literals, end of block and the two invalid symbols
(44_block_decoder.md R288–R289, 45_length_distance.md R350–R351). -/

namespace Sys2Proof.Machine

/-- `LIT b` (R288): append the byte; `PHASE` stays `SYM`. -/
def execLit (b : Byte) (s : State) : Result := append b s .next

/-- `EOB` (R289). -/
def execEob (s : State) : Result := .next (blockEnd s)

/-- Literal/length symbol 286 (R350). -/
def execLlInvalid286 (s : State) : Result := .next (raise .invalidSymbol s)

/-- Literal/length symbol 287 (R351). -/
def execLlInvalid287 (s : State) : Result := .next (raise .invalidSymbol s)

end Sys2Proof.Machine
end

