-- ==== Sys2Proof/Machine/Engine.lean ====
section
/-! DEFINITION. One step of the engine (R15): what `PHASE` and the tree in force select (R161, R164) is decoded from the bits
that come next and run. -/

namespace Sys2Proof.Machine

/-- Run an element that starts with a symbol: `Decode` it, then execute its row, whose extra field is the bits that come next
(R254, R287). The tree must have been built (log 9). -/
def runSymbol (tree : Option Tree) (row : Nat → Bits → Instr) (s : State) : Result :=
  match tree with
  | some t => huff t s fun sym s => exec (row sym (window s)) s
  | none => .fault .treeAbsent

/-- One step of the engine. The element of the phase is decoded from the bits that come next and executed; its meaning consumes
its fields. In `IDLE`, `PAUSED`, `DONE` and `ERROR` it takes none, and everything keeps its value (R480). -/
def engineStep (s : State) : Result :=
  match s.phase with
  | .hdr => exec (blockHdrElem (window s)) s
  | .storedHdr => exec (storedHdrElem (padBits s) (window s)) s
  | .storedData => exec (storedByteElem (window s)) s
  | .dynHdr => exec (dynHdrElem (window s)) s
  | .dynSeq => runSymbol s.tCL clRow s
  | .sym => runSymbol s.tLL llRow s
  | .copy => copyStep s
  | .idle | .paused | .done | .error => .next s

end Sys2Proof.Machine
end

