-- ==== Sys2Proof/Machine/HostPort.lean ====
section
/-! DEFINITION. The host interface: the register block (R58–R70), the commands (R420–R425), the buffers (R500) and the platform
reset (R490). One host command is one step (R15). -/

namespace Sys2Proof.Machine

/-! ## Registers -/

/-- What a register reads as, by its byte offset (R58); reserved offsets read 0 (R70). Reading has no side effect (R69). -/
def readRegister (off : Nat) (s : State) : Word :=
  match off with
  | 0x00 => ctrlWord s
  | 0x04 => statusWord s
  | 0x08 => s.errCode.setWidth 32
  | 0x0C => s.errBitpos
  | 0x10 => s.errBlock
  | 0x14 => s.inLen
  | 0x18 => s.outCap
  | 0x1C => s.outLen
  | 0x20 => s.bitpos
  | 0x24 => s.blockIdx
  | _ => 0

/-- `START` (R421): a new session, unless one is running. -/
def start (s : State) : State :=
  if s.phase.status = .busy then s
  else { s with
    bitpos := 0
    outLen := 0
    blockIdx := 0
    bfinal := false
    errCode := 0
    errBitpos := 0
    errBlock := 0
    phase := .hdr }

/-- `RESUME` (R422): only a paused session goes on. -/
def resume (s : State) : State :=
  if s.phase = .paused then { s with phase := .hdr } else s

/-- A write of `CTRL` (R59, R424): bit 8 is stored; bit 0 runs `START`, else bit 1 runs `RESUME`; reserved bits are ignored. -/
def writeCtrl (v : Word) (s : State) : State :=
  let s := { s with blockStep := v.getLsbD 8 }
  if v.getLsbD 0 then start s else if v.getLsbD 1 then resume s else s

/-- A write of `IN_LEN` (R61): ignored during a session (R425, log 12); a value above `IN_LEN_MAX` is outside the model (U15). -/
def writeInLen (v : Word) (s : State) : Result :=
  if s.phase.inSession then .next s
  else if Config.inLenMax < v.toNat then .refused .inLenTooLarge
  else .next { s with inLen := v }

/-- A write of `OUT_CAP` (R62): ignored during a session (R425). -/
def writeOutCap (v : Word) (s : State) : State :=
  if s.phase.inSession then s else { s with outCap := v }

/-- A register write, by byte offset: writing a read-only register or a reserved offset has no effect (R69, R70, log 13). -/
def writeRegister (off : Nat) (v : Word) (s : State) : Result :=
  match off with
  | 0x00 => .next (writeCtrl v s)
  | 0x14 => writeInLen v s
  | 0x18 => .next (writeOutCap v s)
  | _ => .next s

/-- The register accesses the block answers (R105): aligned 32-bit accesses of its 64 bytes. -/
def registerAccess (off bytes : Nat) : Bool := bytes = 4 ∧ off % 4 = 0 ∧ off < 64

/-! ## Buffers and reset -/

/-- The platform reset (R490): every register at its reset value; IN_MEM and OUT_MEM, and what is the host's, are not touched. -/
def platformReset (s : State) : State :=
  { State.reset with inMem := s.inMem, outMem := s.outMem, hostQueue := s.hostQueue, hostData := s.hostData }

/-- One host event. A buffer write during a session and a register access of another shape are outside the model (U14, U17). -/
def hostStep (e : HostEvent) (s : State) : Result :=
  match e with
  | .quiet => .next s
  | .writeReg off bytes v => if registerAccess off bytes then writeRegister off v s else .refused .badRegisterAccess
  | .readReg off bytes =>
    if registerAccess off bytes then .next { s with hostData := readRegister off s } else .refused .badRegisterAccess
  | .fillIn a b =>
    if s.phase.inSession then .refused .bufferWriteInSession
    else .next { s with inMem := Memory.write a.toNat b s.inMem }
  | .readOut a => .next { s with hostData := (Memory.read s.outMem a.toNat).setWidth 32 }
  | .writeOut a b =>
    if s.phase.inSession then .refused .bufferWriteInSession
    else .next { s with outMem := Memory.write a.toNat b s.outMem }
  | .reset => .next (platformReset s)

end Sys2Proof.Machine
end

