-- ==== Sys2Proof/Machine/Step.lean ====
section
/-! DEFINITION. One step of the machine: the host's next event, or, where the host is quiet, a step of the engine (log 3). -/

namespace Sys2Proof.Machine

/-- One step. An event of the host takes the step; `quiet`, and an empty queue, leave it to the engine. -/
def step (s : State) : Host.Outcome State Fault Refusal :=
  match s.hostQueue with
  | [] => engineStep s
  | .quiet :: q => engineStep { s with hostQueue := q }
  | e :: q => hostStep e { s with hostQueue := q }

/-- What a format needs of the state so that the next step decodes it (log 5): its phase, its tree, what that phase always
has with it, and the bits before it (a distance row is read behind LEN257, whose code here is one bit). -/
def State.withFormat (f : Format) (s : State) : State :=
  match f with
  | .blockHdr => { s with phase := .hdr }
  | .storedHdr _ => { s with phase := .storedHdr }
  | .storedByte => { s with phase := .storedData, storedRem := 1 }
  | .dynHdr => { s with phase := .dynHdr }
  | .clSymbol t => { s with phase := .dynSeq, tCL := some t, seqIdx := 0, seqTotal := 258 }
  | .llSymbol t => { s with phase := .sym, tLL := some t, tD := some (soloTree 0) }
  | .dSymbol t => { s with phase := .sym, tLL := some (soloTree 257), tD := some t }

/-- The bits that stand before an element of a format in its step (log 5). -/
def leadBits : Format → Bits
  | .dSymbol _ => [false]
  | _ => []

/-- The state with a word of the opcode table placed where the next step fetches (log 5): the word's bits at bit 0 of IN_MEM,
`BITPOS` there, the phase and the tree its format needs, and a quiet host. -/
def State.withFetchWord (s : State) (nbits w : Nat) : State :=
  let f := (tableWord nbits w).1
  let bits := leadBits f ++ (tableWord nbits w).2
  { s.withFormat f with
    inMem := Memory.writeBytes 0 (bytesOfBits 10 bits) s.inMem
    inLen := 10
    bitpos := 0
    hostQueue := [] }

end Sys2Proof.Machine
end

