-- ==== Sys2Proof/Safety.lean ====
section
/-! DEFINITION. The words the claims use: the rest of the input, well-formed trees, the operands of a back-reference, and the
invariant of a safe run. -/

namespace Sys2Proof

/-- Every code of a tree has 1 to 15 bits (R6 `MAXBITS`, R220). -/
abbrev Tree.wf (t : Tree) : Prop := ∀ c ∈ t.codes, 1 ≤ c.len ∧ c.len ≤ Config.maxBits

/-- A tree register that holds a well-formed tree. -/
abbrev treeReady : Option Tree → Prop
  | some t => t.wf
  | none => False

end Sys2Proof

namespace Sys2Proof.Machine

/-- The rest of the input, from `BITPOS` to its end (R42, R106): the bits no element has taken yet. -/
def remaining (s : State) : Bits :=
  (bitsOfBytes ((List.range s.inLen.toNat).map fun a => Memory.read s.inMem a)).drop s.bitpos.toNat

/-- The bound of the cursor (R44, R204), with the bound on the input length that keeps `BITPOS` from wrapping (R7). -/
abbrev State.cursorOk (s : State) : Prop := s.bitpos.toNat ≤ 8 * s.inLen.toNat ∧ 8 * s.inLen.toNat < 2 ^ 32

/-- The next `n` bits are there (R200). -/
abbrev State.hasBits (s : State) (n : Nat) : Prop := s.bitpos.toNat + n ≤ 8 * s.inLen.toNat ∧ 8 * s.inLen.toNat < 2 ^ 32

/-- Behind `n` more bits. -/
def State.skip (n : Nat) (s : State) : State := { s with bitpos := s.bitpos + BitVec.ofNat 32 n }

/-- At the end of the input, where a read that runs out leaves the cursor (D10, R452). -/
def State.atEnd (s : State) : State := { s with bitpos := BitVec.ofNat 32 (8 * s.inLen.toNat) }

/-- The format that `PHASE` and the tree in force select (R140, R161); none where the next step reads no element. -/
def State.format (s : State) : Option Format :=
  match s.phase with
  | .hdr => some .blockHdr
  | .storedHdr => some (.storedHdr (padBits s))
  | .storedData => some .storedByte
  | .dynHdr => some .dynHdr
  | .dynSeq => s.tCL.map .clSymbol
  | .sym => s.tLL.map .llSymbol
  | .idle | .copy | .paused | .done | .error => none

/-- The bits of the Huffman code an element of a format starts with (R160); none in the fixed formats. -/
def codeWidth (f : Format) (bits : Bits) : Nat :=
  match f with
  | .clSymbol t | .llSymbol t | .dSymbol t => ((Huffman.decode t bits).map (·.2)).getD 0
  | .blockHdr | .storedHdr _ | .storedByte | .dynHdr => 0

/-- Inside a block: its header has been read and it has not ended (R45). -/
def Phase.inBlock : Phase → Bool
  | .storedHdr | .storedData | .dynHdr | .dynSeq | .sym | .copy => true
  | .idle | .hdr | .paused | .done | .error => false

/-- The error codes the engine writes (R451, R462): 2 to 9 and 11. -/
abbrev engineCode (c : BitVec 4) : Prop := (2 ≤ c.toNat ∧ c.toNat ≤ 9) ∨ c.toNat = 11

/-- What holds in every state a run from reset reaches. The bounds on `BITPOS` and `OUT_LEN` hold in a session and before the first
one; in `DONE` and `ERROR` they hold until the host shortens `IN_LEN` or `OUT_CAP` for the next session (log 8). -/
structure State.Inv (s : State) : Prop where
  /-- IN_MEM keeps its canonical form. -/
  inMem : Memory.wf s.inMem
  /-- OUT_MEM keeps its canonical form. -/
  outMem : Memory.wf s.outMem
  /-- The input length fits the cursor's register (R7). -/
  inLen : 8 * s.inLen.toNat < 2 ^ 32
  /-- The cursor does not pass the end of the input (R44, R204). -/
  cursor : s.phase.inSession = true → s.bitpos.toNat ≤ 8 * s.inLen.toNat
  /-- The output does not pass its capacity (R57). -/
  room : s.phase.inSession = true → s.outLen.toNat ≤ s.outCap.toNat
  /-- Every block has taken at least three bits, so `BLOCK_IDX` does not wrap (R48). -/
  blocks : s.phase.inSession = true → 3 * s.blockIdx.toNat ≤ s.bitpos.toNat
  /-- The header of the current block has been read. -/
  header : s.phase.inBlock = true → 3 * (s.blockIdx.toNat + 1) ≤ s.bitpos.toNat
  /-- A stored byte stands at a byte boundary and there is one to copy (R111, R286). -/
  storedData : s.phase = .storedData → s.bitpos.toNat % 8 = 0 ∧ s.storedRem ≠ 0
  /-- The combined sequence is not complete (R253). -/
  sequence : s.phase = .dynSeq →
    treeReady s.tCL ∧ s.seqIdx.toNat < s.seqTotal.toNat ∧ s.seqTotal = seqTotalOf s.hlit s.hdist
  /-- Both trees of a Huffman block are there (R52). -/
  trees : s.phase = .sym ∨ s.phase = .copy → treeReady s.tLL ∧ treeReady s.tD
  /-- The source of a match lies in the output and there is a byte to copy (R402, R403). -/
  copy : s.phase = .copy → 1 ≤ s.matchDist.toNat ∧ s.matchDist.toNat ≤ s.outLen.toNat ∧ s.copyRem ≠ 0
  /-- An error code stands exactly after a session that ended with an error, and it is one the engine raises (R66, R462). -/
  error : if s.phase = .error then engineCode s.errCode else s.errCode = 0
  /-- Before the first session nothing is read or written, so no `IN_LEN` and no `OUT_CAP` lies below the cursor or the output
  (R44, R57, R204). -/
  idle : s.phase = .idle → s.bitpos = 0 ∧ s.outLen = 0

/-- A state with what no later step reads put aside (R72, R73, R293): each phase keeps the registers its elements still use, and
the host's registers, the buffers and the queue stay. -/
def State.live (s : State) : State :=
  { s with
    bfinal := s.phase.inBlock && s.bfinal
    btype := 0
    llLen := tableOf 4 288 fun _ => 0
    dLen := tableOf 4 32 fun _ => 0
    clLen := tableOf 3 19 fun _ => 0
    tLL := if s.phase = .sym ∨ s.phase = .copy then s.tLL else none
    tD := if s.phase = .sym ∨ s.phase = .copy then s.tD else none
    tCL := if s.phase = .dynSeq then s.tCL else none
    hlit := if s.phase = .dynSeq then s.hlit else 0
    hdist := if s.phase = .dynSeq then s.hdist else 0
    hclen := 0
    seq := tableOf 4 320 fun i => if s.phase = .dynSeq ∧ i < s.seqIdx.toNat then tableGet s.seq i else 0
    seqIdx := if s.phase = .dynSeq then s.seqIdx else 0
    seqTotal := if s.phase = .dynSeq then s.seqTotal else 0
    storedLen := 0
    storedNlen := 0
    storedRem := if s.phase = .storedData then s.storedRem else 0
    matchLen := 0
    matchDist := if s.phase = .copy then s.matchDist else 0
    copyRem := if s.phase = .copy then s.copyRem else 0 }

/-- The match length a length row with its extra field stands for, and the width of that field (R352). -/
def lengthOperand : Instr → Option (Nat × Nat)
  | .len257 => some (3, 0)
  | .len258 => some (4, 0)
  | .len259 => some (5, 0)
  | .len260 => some (6, 0)
  | .len261 => some (7, 0)
  | .len262 => some (8, 0)
  | .len263 => some (9, 0)
  | .len264 => some (10, 0)
  | .len265 e => some (11 + e.toNat, 1)
  | .len266 e => some (13 + e.toNat, 1)
  | .len267 e => some (15 + e.toNat, 1)
  | .len268 e => some (17 + e.toNat, 1)
  | .len269 e => some (19 + e.toNat, 2)
  | .len270 e => some (23 + e.toNat, 2)
  | .len271 e => some (27 + e.toNat, 2)
  | .len272 e => some (31 + e.toNat, 2)
  | .len273 e => some (35 + e.toNat, 3)
  | .len274 e => some (43 + e.toNat, 3)
  | .len275 e => some (51 + e.toNat, 3)
  | .len276 e => some (59 + e.toNat, 3)
  | .len277 e => some (67 + e.toNat, 4)
  | .len278 e => some (83 + e.toNat, 4)
  | .len279 e => some (99 + e.toNat, 4)
  | .len280 e => some (115 + e.toNat, 4)
  | .len281 e => some (131 + e.toNat, 5)
  | .len282 e => some (163 + e.toNat, 5)
  | .len283 e => some (195 + e.toNat, 5)
  | .len284 e => some (227 + e.toNat, 5)
  | .len285 => some (258, 0)
  | _ => none

/-- The match distance a distance row with its extra field stands for, and the width of that field (R393). -/
def distanceOperand : Instr → Option (Nat × Nat)
  | .dist0 => some (1, 0)
  | .dist1 => some (2, 0)
  | .dist2 => some (3, 0)
  | .dist3 => some (4, 0)
  | .dist4 e => some (5 + e.toNat, 1)
  | .dist5 e => some (7 + e.toNat, 1)
  | .dist6 e => some (9 + e.toNat, 2)
  | .dist7 e => some (13 + e.toNat, 2)
  | .dist8 e => some (17 + e.toNat, 3)
  | .dist9 e => some (25 + e.toNat, 3)
  | .dist10 e => some (33 + e.toNat, 4)
  | .dist11 e => some (49 + e.toNat, 4)
  | .dist12 e => some (65 + e.toNat, 5)
  | .dist13 e => some (97 + e.toNat, 5)
  | .dist14 e => some (129 + e.toNat, 6)
  | .dist15 e => some (193 + e.toNat, 6)
  | .dist16 e => some (257 + e.toNat, 7)
  | .dist17 e => some (385 + e.toNat, 7)
  | .dist18 e => some (513 + e.toNat, 8)
  | .dist19 e => some (769 + e.toNat, 8)
  | .dist20 e => some (1025 + e.toNat, 9)
  | .dist21 e => some (1537 + e.toNat, 9)
  | .dist22 e => some (2049 + e.toNat, 10)
  | .dist23 e => some (3073 + e.toNat, 10)
  | .dist24 e => some (4097 + e.toNat, 11)
  | .dist25 e => some (6145 + e.toNat, 11)
  | .dist26 e => some (8193 + e.toNat, 12)
  | .dist27 e => some (12289 + e.toNat, 12)
  | .dist28 e => some (16385 + e.toNat, 13)
  | .dist29 e => some (24577 + e.toNat, 13)
  | _ => none

end Sys2Proof.Machine
end

