-- ==== Sys2Proof/Certificates/Slice0/Obligations.lean ====
section
/-! DEFINITION. The statements for the provers. Each formalises rules of spec/ that its docstring names. -/

open Sys2Proof Sys2Proof.Machine

/-! ## Encoding -/

/-- A few elements as the spec writes them in bits: `FIXED` is `BFINAL, 1, 0` (R141); the header example of R142; the example of
R250 with its 18 lengths zero; the example of R254 in the tree of R252; the fixed codes of `EOB`, `LEN265 1` (R329) and `DIST4 1`
(R365). -/
def Obligations.DecodesWordsOfTheSpec : Prop :=
  decode .blockHdr [true, true, false] = .ok (.fixed true, []) ∧
  decodeBytes (.storedHdr 5) 3 [0x01, 0x00, 0x00, 0xFF, 0xFF] = .ok (.storedHdr 0x0000 0xFFFF, []) ∧
  decode .dynHdr ([true, false, false, false, false] ++ [false, false, false, false, false] ++ [false, true, true, true] ++
    List.replicate 54 false) = .ok (.dynHdr 1 0 14 (List.replicate 18 0), []) ∧
  decode (.clSymbol ⟨[⟨2, 2, 1⟩, ⟨2, 3, 2⟩, ⟨1, 0, 18⟩]⟩) [true, true] = .ok (.clLen 2, []) ∧
  decode (.llSymbol ⟨[⟨7, 0, 256⟩, ⟨7, 9, 265⟩]⟩) [false, false, false, false, false, false, false] = .ok (.eob, []) ∧
  decode (.llSymbol ⟨[⟨7, 0, 256⟩, ⟨7, 9, 265⟩]⟩) [false, false, false, true, false, false, true, true] = .ok (.len265 1, []) ∧
  decode (.dSymbol ⟨[⟨5, 3, 3⟩, ⟨5, 4, 4⟩]⟩) [false, false, true, false, false, true] = .ok (.dist4 1, [])

/-- Decoding what the encoder wrote gives the element back and leaves the bits behind it, for every well-formed element and
every operand value: in the fixed formats, and in a symbol format with any tree `Build` answers that gives the element's symbol
a code. The pad of a stored header is ignored, whatever it holds (R142, R159). -/
def Obligations.DecodeOfEncode : Prop :=
  (∀ (f : Format) (i : Instr) (rest : Bits), i.wellFormed = true → f.kind = i.kind →
    (∀ sym, i.symbol = some sym → ∃ ls : List Nat, Huffman.build ls = some f.tree ∧ (∀ l ∈ ls, l ≤ 15) ∧
      ∃ h : sym < ls.length, ls[sym] ≠ 0) →
    decode f (encode f i ++ rest) = .ok (i, rest)) ∧
  (∀ p p' rest : Bits, p.length = p'.length →
    decode (.storedHdr p.length) (p ++ rest) = decode (.storedHdr p'.length) (p' ++ rest))

/-- What the decoder reads is well formed, a row of the format, and encodes to the bits it was read from: no bit of a decoded
element is dropped. The two places whose bits are ignored are the pad of a stored header, which the encoder writes as zeros, and
the code of a degenerate tree (R203, R226). The trees are those of the three alphabets (R220). -/
def Obligations.EncodeOfDecode : Prop :=
  ∀ (f : Format) (i : Instr) (bits rest : Bits), decode f bits = .ok (i, rest) →
    (f.kind = .clSymbol ∨ f.kind = .llSymbol ∨ f.kind = .dSymbol →
      ∃ ls : List Nat, Huffman.build ls = some f.tree ∧ (∀ l ∈ ls, l ≤ 15) ∧ 2 ≤ Huffman.nsym f.tree ∧
        ls.length ≤ (if f.kind = .clSymbol then 19 else if f.kind = .llSymbol then 288 else 32)) →
    i.wellFormed = true ∧ i.kind = f.kind ∧ encode f i ++ rest = List.replicate f.pad false ++ bits.drop f.pad

/-- The fixed literal/length and distance codes (R155, R156, derived in the spec from R221–R223, R230 and R231), and the code
they make: every 9 bits begin with exactly one literal/length code; no distance code begins `11110` or `11111`. -/
def Obligations.FixedCodes : Prop :=
  ∀ tLL tD : Tree,
    Huffman.build (List.replicate 144 8 ++ List.replicate 112 9 ++ List.replicate 24 7 ++ List.replicate 8 8) = some tLL →
    Huffman.build (List.replicate 30 5) = some tD →
    (∀ s, s ≤ 143 → Huffman.symBits tLL s = Huffman.codeBits 8 (0x30 + s)) ∧
    (∀ s, 144 ≤ s → s ≤ 255 → Huffman.symBits tLL s = Huffman.codeBits 9 (0x190 + (s - 144))) ∧
    (∀ s, 256 ≤ s → s ≤ 279 → Huffman.symBits tLL s = Huffman.codeBits 7 (s - 256)) ∧
    (∀ s, 280 ≤ s → s ≤ 287 → Huffman.symBits tLL s = Huffman.codeBits 8 (0xC0 + (s - 280))) ∧
    (∀ s, s ≤ 29 → Huffman.symBits tD s = Huffman.codeBits 5 s) ∧
    (∀ bits : Bits, 9 ≤ bits.length → ∃ s n, Huffman.decode tLL bits = some (s, n) ∧ s ≤ 287 ∧ n ≤ 9) ∧
    (∀ (b : Bool) (rest : Bits), Huffman.decode tD (true :: true :: true :: true :: b :: rest) = none)

/-! ## Canonical Huffman codes -/

/-- `Build` accepts a set of lengths exactly when the codes of each length fit in that many bits, which is Kraft's inequality;
`{1, 1, 2}` fails; what it does not accept raises `InvalidHuffmanTree` (R222). -/
def Obligations.BuildAcceptsKraft : Prop :=
  (∀ ls : List Nat, (Huffman.build ls).isSome = true ↔
    ((List.range 15).map fun k => ls.count (k + 1) * 2 ^ (14 - k)).sum ≤ 2 ^ 15) ∧
  (∀ ls : List Nat, (Huffman.build ls).isSome = true ↔
    ∀ l, 1 ≤ l → l ≤ 15 → Huffman.firstCode ls l + Huffman.count ls l ≤ 2 ^ l) ∧
  Huffman.firstCode [1, 1, 2] 2 = 4 ∧ Huffman.build [1, 1, 2] = none ∧
  (∀ (ls : List Nat) (s : State) (k : Tree → Result), Huffman.build ls = none →
    buildThen ls s k = .next (raise .invalidHuffmanTree s))

/-- The canonical-code property (R229) of every tree `Build` answers: the codes of length `l` are `first_code[l]` …
`first_code[l] + count[l] − 1`, in ascending symbol order; no code is a prefix of another's; and the inequality that gives it. -/
def Obligations.CanonicalCodes : Prop :=
  ∀ (ls : List Nat) (t : Tree), (∀ l ∈ ls, l ≤ 15) → Huffman.build ls = some t →
    (∀ l v, 1 ≤ l → l ≤ 15 → ((∃ c ∈ t.codes, c.len = l ∧ c.code = v) ↔
      Huffman.firstCode ls l ≤ v ∧ v < Huffman.firstCode ls l + Huffman.count ls l)) ∧
    (∀ c ∈ t.codes, ∀ c' ∈ t.codes, c.len = c'.len → (c.sym < c'.sym ↔ c.code < c'.code)) ∧
    (∀ c ∈ t.codes, ∀ c' ∈ t.codes, c ≠ c' →
      ¬ Huffman.codeBits c.len c.code <+: Huffman.codeBits c'.len c'.code) ∧
    (∀ l m, 1 ≤ l → l < m → m ≤ 15 →
      (Huffman.firstCode ls l + Huffman.count ls l) * 2 ^ (m - l) ≤ Huffman.firstCode ls m)

/-- `Decode` in a regular tree finds the code that comes next and only that: it answers a symbol and a length exactly when the
bits begin with a code of that length for that symbol (R225). -/
def Obligations.DecodeFindsTheCode : Prop :=
  ∀ (ls : List Nat) (t : Tree) (bits : Bits) (sym n : Nat), (∀ l ∈ ls, l ≤ 15) → Huffman.build ls = some t →
    2 ≤ Huffman.nsym t →
    (Huffman.decode t bits = some (sym, n) ↔
      ∃ c ∈ t.codes, c.sym = sym ∧ c.len = n ∧ Huffman.codeBits c.len c.code <+: bits)

/-- A degenerate tree always decodes to its symbol: the symbol's length is consumed, whatever the bits, and only the end of the
input can raise (R226). -/
def Obligations.DegenerateTreeAlwaysDecodes : Prop :=
  ∀ (ls : List Nat) (c : Code) (s : State) (k : Nat → State → Result), (∀ l ∈ ls, l ≤ 15) →
    Huffman.build ls = some ⟨[c]⟩ → s.cursorOk →
    (s.hasBits c.len → huff ⟨[c]⟩ s k = k c.sym (s.skip c.len) ∧ decodeSerial ⟨[c]⟩ s k = k c.sym (s.skip c.len)) ∧
    (¬ s.hasBits c.len → huff ⟨[c]⟩ s k = .next (raise .unexpectedEndOfStream s.atEnd))

/-- Decoding with the empty tree reads 15 bits and raises `InvalidHuffmanCode`, or runs out first (R227, derived in the spec). -/
def Obligations.EmptyTreeNeverDecodes : Prop :=
  ∀ (n : Nat) (s : State) (k : Nat → State → Result), s.cursorOk →
    Huffman.build (List.replicate n 0) = some ⟨[]⟩ ∧
    huff ⟨[]⟩ s k = .next (if s.hasBits 15 then raise .invalidHuffmanCode (s.skip 15) else raise .unexpectedEndOfStream s.atEnd)

/-- The look-ahead form of `Decode` the machine steps with is `Decode` as the spec writes it, bit by bit (R225–R227): the same
symbol, the same cursor and the same error at the same place. -/
def Obligations.SerialDecodeIsHuff : Prop :=
  ∀ (t : Tree) (s : State) (k : Nat → State → Result), t.wf → s.cursorOk → decodeSerial t s k = huff t s k

/-! ## The BitReader -/

/-- `ReadBits(n)`, bit by bit as the spec writes it, consumes `n` bits and assembles them with the first-read bit least
significant; where the input ends first, the bits before the end stay consumed and `UnexpectedEndOfStream` is raised (R201). The
example of R201 is the last clause. -/
def Obligations.ReadBitsAssembles : Prop :=
  (∀ (n : Nat) (s : State) (k : Nat → State → Result), n ≤ 16 → s.cursorOk →
    (s.hasBits n → readBits n s k = k (bitsValue ((remaining s).take n)) (s.skip n)) ∧
    (¬ s.hasBits n → readBits n s k = .next (raise .unexpectedEndOfStream s.atEnd))) ∧
  (∀ k : Nat → State → Result, readBits 4 { State.reset with inMem := [(0, 0xFF), (1, 0x01)], inLen := 2, bitpos := 6 } k =
    k 7 { State.reset with inMem := [(0, 0xFF), (1, 0x01)], inLen := 2, bitpos := 10 })

/-- `AlignByte` rounds `BITPOS` up to a multiple of 8, never past the end of the input, changes nothing else and raises nothing
(R203). -/
def Obligations.AlignByteRoundsUp : Prop :=
  ∀ s : State, s.cursorOk → ∃ b : Word, alignByte s = { s with bitpos := b } ∧
    b.toNat % 8 = 0 ∧ s.bitpos.toNat ≤ b.toNat ∧ b.toNat < s.bitpos.toNat + 8 ∧ b.toNat ≤ 8 * s.inLen.toNat ∧
    (s.bitpos.toNat % 8 = 0 → b = s.bitpos)

/-- The reader has no look-ahead that can be observed (R205): a step of the engine gives the same next state on an input that
agrees on the bits the step consumed, whatever the bits beyond and the bytes beyond `IN_LEN`; and it never writes IN_MEM. -/
def Obligations.NoObservableLookAhead : Prop :=
  ∀ (s t : State) (m : Memory), s.cursorOk → engineStep s = .next t →
    (∀ k, s.bitpos.toNat ≤ k → k < t.bitpos.toNat →
      (Memory.read m (k / 8)).getLsbD (k % 8) = (Memory.read s.inMem (k / 8)).getLsbD (k % 8)) →
    t.inMem = s.inMem ∧ engineStep { s with inMem := m } = .next { t with inMem := m }

/-! ## One step runs the decoded element -/

/-- Where the bits that come next decode to an element of the format in force, the engine's step is that element's meaning: at
the cursor in the fixed formats, behind the symbol's code in the others (R15, R164, R254, R287). In the same way `DISTANCE` runs the
row of the distance symbol that comes next (R360). -/
def Obligations.StepRunsDecodedElement : Prop :=
  (∀ (s : State) (f : Format) (i : Instr) (rest : Bits), s.hostQueue = [] → s.cursorOk → s.format = some f → f.tree.wf →
    decode f (remaining s) = .ok (i, rest) →
    step s = exec i (s.skip (codeWidth f (remaining s)))) ∧
  (∀ (s : State) (t : Tree) (i : Instr) (rest : Bits), s.cursorOk → s.tD = some t → t.wf →
    decode (.dSymbol t) (remaining s) = .ok (i, rest) →
    distance s = exec i (s.skip (codeWidth (.dSymbol t) (remaining s))))

/-- Where no code matches the next 15 bits, a step that starts with a symbol consumes 15 bits and raises `InvalidHuffmanCode`
(R456), as the distance symbol does behind its length symbol. -/
def Obligations.NoMatchingCodeRaises : Prop :=
  (∀ (s : State) (f : Format), s.hostQueue = [] → s.cursorOk → s.format = some f → f.tree.wf →
    decode f (remaining s) = .error .noCode → step s = .next (raise .invalidHuffmanCode (s.skip 15))) ∧
  (∀ (s : State) (t : Tree), s.cursorOk → s.tD = some t → t.wf → decode (.dSymbol t) (remaining s) = .error .noCode →
    distance s = .next (raise .invalidHuffmanCode (s.skip 15)))

/-- Where the input ends inside the element, the step raises `UnexpectedEndOfStream` (R452). The one element whose first check
comes before its last read is `CL16` with no predecessor (R255): once its code is decoded, the step raises `InvalidTreeDescription`
behind it, whatever follows. Whatever step raises code 2, `ERR_BITPOS` is `8 × IN_LEN`. -/
def Obligations.EndOfStreamAtTheEnd : Prop :=
  (∀ (s : State) (f : Format), s.hostQueue = [] → s.cursorOk → s.format = some f → f.tree.wf →
    (s.phase = .dynSeq → s.seqIdx = 0 → ∀ n, Huffman.decode f.tree (remaining s) ≠ some (16, n)) →
    decode f (remaining s) = .error .truncated →
    ∃ t, step s = .next t ∧ t.phase = .error ∧ t.errCode = 2 ∧ t.bitpos.toNat = 8 * s.inLen.toNat ∧ t.errBitpos = t.bitpos ∧
      t.outLen = s.outLen ∧ t.outMem = s.outMem) ∧
  (∀ (s : State) (tCL : Tree) (n : Nat), s.hostQueue = [] → s.cursorOk → s.phase = .dynSeq → s.tCL = some tCL → tCL.wf →
    s.seqIdx = 0 → Huffman.decode tCL (remaining s) = some (16, n) →
    step s = .next (raise .invalidTreeDescription (s.skip n))) ∧
  (∀ s t : State, s.cursorOk → s.phase ≠ .error → engineStep s = .next t → t.phase = .error → t.errCode = 2 →
    t.errBitpos.toNat = 8 * s.inLen.toNat)

/-! ## Block headers and stored blocks -/

/-- `STORED` and `DYNAMIC` select the phase that reads on (R281, R283), behind the three header bits: the next step reads a stored
header behind the pad, or a dynamic header. -/
def Obligations.StoredAndDynamicHeaders : Prop :=
  ∀ (s : State) (final : Bool), s.hasBits 3 →
    (∃ t, exec (.stored final) s = .next t ∧ t = { s.skip 3 with bfinal := final, btype := 0, phase := .storedHdr } ∧
      t.format = some (.storedHdr (padBits t))) ∧
    (∃ t, exec (.dynamic final) s = .next t ∧ t = { s.skip 3 with bfinal := final, btype := 2, phase := .dynHdr } ∧
      t.format = some .dynHdr)

/-- `FIXED` writes the fixed length assignment, builds both trees without failing and enters `SYM` (R282, R230, R231). -/
def Obligations.FixedHeader : Prop :=
  ∀ (s : State) (final : Bool), s.hasBits 3 →
    ∃ (tLL tD : Tree) (t : State),
      Huffman.build (List.replicate 144 8 ++ List.replicate 112 9 ++ List.replicate 24 7 ++ List.replicate 8 8) = some tLL ∧
      Huffman.build (List.replicate 30 5) = some tD ∧
      exec (.fixed final) s = .next t ∧
      t = { s.skip 3 with
        bfinal := final, btype := 1, llLen := t.llLen, dLen := t.dLen, tLL := some tLL, tD := some tD, phase := .sym } ∧
      t.llLen.toList.map BitVec.toNat =
        List.replicate 144 8 ++ List.replicate 112 9 ++ List.replicate 24 7 ++ List.replicate 8 8 ∧
      t.dLen.toList.map BitVec.toNat = List.replicate 30 5 ++ [0, 0]

/-- `RESERVED` raises `InvalidBlockType` just after the three header bits, final or not (R284, R453). -/
def Obligations.ReservedHeaderRaises : Prop :=
  ∀ (s : State) (final : Bool), s.hasBits 3 →
    ∃ t, exec (.reserved final) s = .next t ∧ t.phase = .error ∧ t.errCode = 3 ∧
      t.errBitpos.toNat = s.bitpos.toNat + 3 ∧ t.errBlock = s.blockIdx ∧
      t = raise .invalidBlockType { s.skip 3 with bfinal := final, btype := 3 }

/-- A block header with fewer than three bits left raises `UnexpectedEndOfStream`; with one or two bits left, `BFINAL` has been
written (R280). -/
def Obligations.TruncatedHeader : Prop :=
  ∀ (s : State) (final : Bool), s.cursorOk → ¬ s.hasBits 3 →
    ∀ i ∈ [Instr.stored final, .fixed final, .dynamic final, .reserved final],
      exec i s = .next (raise .unexpectedEndOfStream
        { s.atEnd with bfinal := if s.hasBits 1 then final else s.bfinal })

/-- `STORED_HDR` (R285): align, read LEN and NLEN, check the complement, then the data phase, or the end of the block where LEN is
0; and its two errors with what has been written before them. -/
def Obligations.StoredHeader : Prop :=
  ∀ (s : State) (len nlen : BitVec 16), s.cursorOk →
    ((alignByte s).hasBits 32 → nlen = ~~~len → len ≠ 0 →
      exec (.storedHdr len nlen) s = .next { (alignByte s).skip 32 with
        storedLen := len, storedNlen := nlen, storedRem := len, phase := .storedData }) ∧
    ((alignByte s).hasBits 32 → nlen = ~~~len → len = 0 →
      exec (.storedHdr len nlen) s = .next (blockEnd { (alignByte s).skip 32 with
        storedLen := 0, storedNlen := nlen, storedRem := 0 })) ∧
    ((alignByte s).hasBits 32 → nlen ≠ ~~~len →
      exec (.storedHdr len nlen) s = .next (raise .storedBlockLengthMismatch { (alignByte s).skip 32 with
        storedLen := len, storedNlen := nlen })) ∧
    ((alignByte s).hasBits 16 → ¬ (alignByte s).hasBits 32 →
      exec (.storedHdr len nlen) s = .next (raise .unexpectedEndOfStream { s.atEnd with storedLen := len })) ∧
    (¬ (alignByte s).hasBits 16 →
      exec (.storedHdr len nlen) s = .next (raise .unexpectedEndOfStream s.atEnd))

/-- `STORED_BYTE` (R286): one byte from input to output; the last one ends the block; the end of the input is checked before the
room in the output. -/
def Obligations.StoredByte : Prop :=
  ∀ (s : State) (b : Byte), s.cursorOk →
    (s.hasBits 8 → s.outLen ≠ s.outCap → s.storedRem ≠ 1 →
      exec (.storedByte b) s = .next { s.skip 8 with
        outMem := Memory.write s.outLen.toNat b s.outMem, outLen := s.outLen + 1, storedRem := s.storedRem - 1 }) ∧
    (s.hasBits 8 → s.outLen ≠ s.outCap → s.storedRem = 1 →
      exec (.storedByte b) s = .next (blockEnd { s.skip 8 with
        outMem := Memory.write s.outLen.toNat b s.outMem, outLen := s.outLen + 1, storedRem := 0 })) ∧
    (s.hasBits 8 → s.outLen = s.outCap → exec (.storedByte b) s = .next (raise .outputOverflow (s.skip 8))) ∧
    (¬ s.hasBits 8 → exec (.storedByte b) s = .next (raise .unexpectedEndOfStream s.atEnd))

/-- `EOB` completes the block (R289), and `BlockEnd` counts it and ends the session, pauses or goes on to the next header
(R290). -/
def Obligations.EndOfBlock : Prop :=
  ∀ s : State,
    (s.bfinal = true → exec .eob s = .next { s with blockIdx := s.blockIdx + 1, phase := .done }) ∧
    (s.bfinal = false → s.blockStep = true → exec .eob s = .next { s with blockIdx := s.blockIdx + 1, phase := .paused }) ∧
    (s.bfinal = false → s.blockStep = false → exec .eob s = .next { s with blockIdx := s.blockIdx + 1, phase := .hdr })

/-! ## The dynamic-tree descriptor -/

/-- `DYN_HDR` (R250) with its fields all there: the three counts, the code-length lengths in their permuted places (R251) and
zero elsewhere, the code-length tree, and the sequence about to start; an over-subscribed code raises behind the last field, and an
input that ends inside a field raises at its end. -/
def Obligations.DynamicHeader : Prop :=
  (∀ (s : State) (hlit hdist : BitVec 5) (hclen : BitVec 4) (lens : List (BitVec 3)),
    lens.length = hclen.toNat + 4 → s.cursorOk → ¬ s.hasBits (14 + 3 * (hclen.toNat + 4)) →
    ∃ t, exec (.dynHdr hlit hdist hclen lens) s = .next t ∧ t.phase = .error ∧ t.errCode = 2 ∧ t.bitpos = s.atEnd.bitpos ∧
      t.errBitpos = s.atEnd.bitpos) ∧
  ∀ (s : State) (hlit hdist : BitVec 5) (hclen : BitVec 4) (lens : List (BitVec 3)),
    lens.length = hclen.toNat + 4 → s.hasBits (14 + 3 * (hclen.toNat + 4)) →
    let order := [16, 17, 18, 0, 8, 7, 9, 6, 10, 5, 11, 4, 12, 3, 13, 2, 14, 1, 15]
    ∃ cl : Vector (BitVec 3) 19, (∀ i, i < 19 → tableGet cl (order.getD i 0) = lens.getD i 0) ∧
      (∀ tCL, Huffman.build (cl.toList.map BitVec.toNat) = some tCL →
        exec (.dynHdr hlit hdist hclen lens) s = .next { s.skip (14 + 3 * (hclen.toNat + 4)) with
          hlit := hlit, hdist := hdist, hclen := hclen, clLen := cl, tCL := some tCL
          seqTotal := BitVec.ofNat 9 (hlit.toNat + 257 + hdist.toNat + 1), seqIdx := 0, phase := .dynSeq }) ∧
      (Huffman.build (cl.toList.map BitVec.toNat) = none →
        exec (.dynHdr hlit hdist hclen lens) s = .next (raise .invalidHuffmanTree
          { s.skip (14 + 3 * (hclen.toNat + 4)) with hlit := hlit, hdist := hdist, hclen := hclen, clLen := cl }))

/-- Symbols 0–15 write one length into the combined sequence and nothing else (R254); the one that completes the sequence
finishes the descriptor in the same step (R253). -/
def Obligations.CodeLengthValue : Prop :=
  ∀ (s : State) (v : BitVec 4), s.seqIdx.toNat < s.seqTotal.toNat → s.seqTotal.toNat ≤ 320 →
    ∃ q : Vector (BitVec 4) 320,
      (∀ j, j < 320 → tableGet q j = if j = s.seqIdx.toNat then v else tableGet s.seq j) ∧
      (s.seqIdx.toNat + 1 ≠ s.seqTotal.toNat →
        exec (.clLen v) s = .next { s with seq := q, seqIdx := s.seqIdx + 1 }) ∧
      (s.seqIdx.toNat + 1 = s.seqTotal.toNat →
        exec (.clLen v) s = descriptorFinish { s with seq := q, seqIdx := s.seqTotal })

/-- The repeat symbols (R255, R256, R257): the extra field, the count `r` and the value; the run fills `r` entries across any
boundary; one that ends at `SEQ_TOTAL` finishes the descriptor; one past it raises with nothing written (R258); an input that
ends in the extra field raises at its end. -/
def Obligations.CodeLengthRuns : Prop :=
  ∀ (s : State) (i : Instr) (w r : Nat) (v : BitVec 4),
    ((∃ e, i = .clRep16 e ∧ w = 2 ∧ r = 3 + e.toNat ∧ s.seqIdx ≠ 0 ∧ v = tableGet s.seq (s.seqIdx.toNat - 1)) ∨
     (∃ e, i = .clZero17 e ∧ w = 3 ∧ r = 3 + e.toNat ∧ v = 0) ∨
     (∃ e, i = .clZero18 e ∧ w = 7 ∧ r = 11 + e.toNat ∧ v = 0)) →
    (s.cursorOk → ¬ s.hasBits w → exec i s = .next (raise .unexpectedEndOfStream s.atEnd)) ∧
    (s.hasBits w → s.seqTotal.toNat < s.seqIdx.toNat + r → exec i s = .next (raise .invalidTreeDescription (s.skip w))) ∧
    (s.hasBits w → s.seqIdx.toNat + r ≤ s.seqTotal.toNat → s.seqTotal.toNat ≤ 320 → ∃ q : Vector (BitVec 4) 320,
      (∀ j, j < 320 → tableGet q j = if s.seqIdx.toNat ≤ j ∧ j < s.seqIdx.toNat + r then v else tableGet s.seq j) ∧
      (s.seqIdx.toNat + r < s.seqTotal.toNat →
        exec i s = .next { s.skip w with seq := q, seqIdx := s.seqIdx + BitVec.ofNat 9 r }) ∧
      (s.seqIdx.toNat + r = s.seqTotal.toNat →
        exec i s = descriptorFinish { s.skip w with seq := q, seqIdx := s.seqTotal }))

/-- Symbol 16 with no predecessor raises `InvalidTreeDescription` before its extra bits are read; a repeat past `SEQ_TOTAL` raises
it after its extra bits and before any entry is written; nothing else raises it (R457). -/
def Obligations.InvalidTreeDescriptionSites : Prop :=
  (∀ (s : State) (e : BitVec 2), s.seqIdx = 0 → exec (.clRep16 e) s = .next (raise .invalidTreeDescription s)) ∧
  (∀ (s t : State) (i : Instr), s.phase ≠ .error → exec i s = .next t → t.phase = .error → t.errCode = 7 →
    (∃ e, i = .clRep16 e ∧ s.seqIdx = 0 ∧ t = raise .invalidTreeDescription s) ∨
    (∃ e, i = .clRep16 e ∧ s.seqIdx ≠ 0 ∧ s.seqTotal.toNat < s.seqIdx.toNat + (3 + e.toNat) ∧
      t = raise .invalidTreeDescription (s.skip 2)) ∨
    (∃ e, i = .clZero17 e ∧ s.seqTotal.toNat < s.seqIdx.toNat + (3 + e.toNat) ∧
      t = raise .invalidTreeDescription (s.skip 3)) ∨
    (∃ e, i = .clZero18 e ∧ s.seqTotal.toNat < s.seqIdx.toNat + (11 + e.toNat) ∧
      t = raise .invalidTreeDescription (s.skip 7))) ∧
  (∀ (s : State) (e : BitVec 2), s.seqIdx ≠ 0 → s.hasBits 2 → s.seqTotal.toNat < s.seqIdx.toNat + (3 + e.toNat) →
    exec (.clRep16 e) s = .next (raise .invalidTreeDescription (s.skip 2))) ∧
  (∀ (s : State) (e : BitVec 3), s.hasBits 3 → s.seqTotal.toNat < s.seqIdx.toNat + (3 + e.toNat) →
    exec (.clZero17 e) s = .next (raise .invalidTreeDescription (s.skip 3))) ∧
  (∀ (s : State) (e : BitVec 7), s.hasBits 7 → s.seqTotal.toNat < s.seqIdx.toNat + (11 + e.toNat) →
    exec (.clZero18 e) s = .next (raise .invalidTreeDescription (s.skip 7)))

/-- `DescriptorFinish` (R260): the two tables are sliced from the sequence (R259), `T_LL` is built first and `T_D` second, and the
symbols begin; each tree that over-subscribes raises `InvalidHuffmanTree` where it is built. -/
def Obligations.DescriptorFinishes : Prop :=
  ∀ s : State,
    ∃ (ll : Vector (BitVec 4) 288) (d : Vector (BitVec 4) 32),
      (∀ i, i < 288 → tableGet ll i = if i ≤ s.hlit.toNat + 256 then tableGet s.seq i else 0) ∧
      (∀ i, i < 32 → tableGet d i = if i ≤ s.hdist.toNat then tableGet s.seq (s.hlit.toNat + 257 + i) else 0) ∧
      (∀ tLL tD, Huffman.build ((ll.toList.take (s.hlit.toNat + 257)).map BitVec.toNat) = some tLL →
        Huffman.build ((d.toList.take (s.hdist.toNat + 1)).map BitVec.toNat) = some tD →
        descriptorFinish s = .next { s with llLen := ll, dLen := d, tLL := some tLL, tD := some tD, phase := .sym }) ∧
      (Huffman.build ((ll.toList.take (s.hlit.toNat + 257)).map BitVec.toNat) = none →
        descriptorFinish s = .next (raise .invalidHuffmanTree { s with llLen := ll, dLen := d })) ∧
      (∀ tLL, Huffman.build ((ll.toList.take (s.hlit.toNat + 257)).map BitVec.toNat) = some tLL →
        Huffman.build ((d.toList.take (s.hdist.toNat + 1)).map BitVec.toNat) = none →
        descriptorFinish s = .next (raise .invalidHuffmanTree { s with llLen := ll, dLen := d, tLL := some tLL }))

/-! ## Literals and back-references -/

/-- `LIT b` appends its byte and stays in the symbol loop (R288, R401); a full output raises `OutputOverflow` before writing
(R406). -/
def Obligations.Literal : Prop :=
  ∀ (s : State) (b : Byte),
    (s.outLen ≠ s.outCap → exec (.lit b) s =
      .next { s with outMem := Memory.write s.outLen.toNat b s.outMem, outLen := s.outLen + 1 }) ∧
    (s.outLen = s.outCap → exec (.lit b) s = .next (raise .outputOverflow s))

/-- The four invalid symbols raise `InvalidSymbol` behind their code and before any extra bit (R458). -/
def Obligations.InvalidSymbolsRaise : Prop :=
  ∀ s : State, ∀ i ∈ [Instr.llInvalid286, .llInvalid287, .dInvalid30, .dInvalid31],
    exec i s = .next (raise .invalidSymbol s)

/-- The operands of a back-reference are those of R352 and R393: the base, the number of extra bits and the range of each length
row and each distance row (R148, R149). -/
def Obligations.MatchTables : Prop :=
  (∀ (sym : Nat) (ops : Bits), 257 ≤ sym → sym ≤ 285 →
    let bases := [3, 4, 5, 6, 7, 8, 9, 10, 11, 13, 15, 17, 19, 23, 27, 31, 35, 43, 51, 59, 67, 83, 99, 115, 131, 163, 195, 227, 258]
    let widths := [0, 0, 0, 0, 0, 0, 0, 0, 1, 1, 1, 1, 2, 2, 2, 2, 3, 3, 3, 3, 4, 4, 4, 4, 5, 5, 5, 5, 0]
    let w := widths.getD (sym - 257) 0
    lengthOperand (llRow sym ops) = some (bases.getD (sym - 257) 0 + bitsValue (ops.take w), w)) ∧
  (∀ (sym : Nat) (ops : Bits), sym ≤ 29 →
    let bases := [1, 2, 3, 4, 5, 7, 9, 13, 17, 25, 33, 49, 65, 97, 129, 193, 257, 385, 513, 769, 1025, 1537, 2049, 3073, 4097, 6145,
      8193, 12289, 16385, 24577]
    let widths := [0, 0, 0, 0, 1, 1, 2, 2, 3, 3, 4, 4, 5, 5, 6, 6, 7, 7, 8, 8, 9, 9, 10, 10, 11, 11, 12, 12, 13, 13]
    let w := widths.getD sym 0
    distanceOperand (dRow sym ops) = some (bases.getD sym 0 + bitsValue (ops.take w), w)) ∧
  (∀ (i : Instr) (len w : Nat), lengthOperand i = some (len, w) → 3 ≤ len ∧ len ≤ 258) ∧
  (∀ (i : Instr) (dist w : Nat), distanceOperand i = some (dist, w) → 1 ≤ dist ∧ dist ≤ 32768)

/-- Every length row, `LEN257` to `LEN285`, followed by a valid distance: `MATCH_LEN` and `MATCH_DIST` are the sums of base and
extra field (R148, R149), and the copy begins in the same step (R320, R360). -/
def Obligations.BackReferenceCompletes : Prop :=
  ∀ (s : State) (i d : Instr) (t : Tree) (len w sym n dist wd : Nat),
    lengthOperand i = some (len, w) → s.tD = some t → t.wf → s.hasBits (w + n + wd) →
    Huffman.decode t (remaining (s.skip w)) = some (sym, n) → d = dRow sym (remaining (s.skip (w + n))) →
    distanceOperand d = some (dist, wd) → dist ≤ s.outLen.toNat →
    exec i s = .next { s.skip (w + n + wd) with
      matchLen := BitVec.ofNat 9 len, matchDist := BitVec.ofNat 16 dist, copyRem := BitVec.ofNat 9 len, phase := .copy }

/-- A length row consumes its extra field, writes `MATCH_LEN` and runs `DISTANCE` in the same step (R320); the errors before a
distance row is reached, first to last (R470): the end of the input in the extra field; then, with `MATCH_LEN` written, the end of
the input in the distance code, or no code there. -/
def Obligations.LengthRunsDistance : Prop :=
  ∀ (s : State) (i : Instr) (t : Tree) (len w : Nat), lengthOperand i = some (len, w) → s.tD = some t → t.wf → s.cursorOk →
    (s.hasBits w → exec i s = distance { s.skip w with matchLen := BitVec.ofNat 9 len }) ∧
    (¬ s.hasBits w → exec i s = .next (raise .unexpectedEndOfStream s.atEnd)) ∧
    (s.hasBits w → Huffman.decode t (remaining (s.skip w)) = none → ¬ s.hasBits (w + 15) →
      exec i s = .next (raise .unexpectedEndOfStream { s.atEnd with matchLen := BitVec.ofNat 9 len })) ∧
    (s.hasBits (w + 15) → Huffman.decode t (remaining (s.skip w)) = none →
      exec i s = .next (raise .invalidHuffmanCode { s.skip (w + 15) with matchLen := BitVec.ofNat 9 len }))

/-- Every distance row, `DIST0` to `DIST29`, behind its code: the distance is base plus extra field (R149); one within the output
starts the copy, and one beyond it raises `InvalidDistance` behind the extra bits with no byte written (R403, R459). -/
def Obligations.DistanceStartsTheCopy : Prop :=
  ∀ (s : State) (d : Instr) (dist w : Nat), distanceOperand d = some (dist, w) → s.cursorOk →
    (s.hasBits w → dist ≤ s.outLen.toNat →
      exec d s = .next { s.skip w with matchDist := BitVec.ofNat 16 dist, copyRem := s.matchLen, phase := .copy }) ∧
    (s.hasBits w → s.outLen.toNat < dist →
      exec d s = .next (raise .invalidDistance { s.skip w with matchDist := BitVec.ofNat 16 dist })) ∧
    (¬ s.hasBits w → exec d s = .next (raise .unexpectedEndOfStream s.atEnd))

/-- The copy step (R402) copies the byte `MATCH_DIST` back from the current end of the output, counts it, and goes back to the
symbols after the last one; a full output raises `OutputOverflow` and keeps what was copied. -/
def Obligations.CopyStep : Prop :=
  ∀ s : State, s.phase = .copy → s.matchDist.toNat ≤ s.outLen.toNat →
    let b := Memory.read s.outMem (s.outLen.toNat - s.matchDist.toNat)
    (s.outLen ≠ s.outCap → s.copyRem ≠ 1 → engineStep s = .next { s with
      outMem := Memory.write s.outLen.toNat b s.outMem, outLen := s.outLen + 1, copyRem := s.copyRem - 1 }) ∧
    (s.outLen ≠ s.outCap → s.copyRem = 1 → engineStep s = .next { s with
      outMem := Memory.write s.outLen.toNat b s.outMem, outLen := s.outLen + 1, copyRem := 0, phase := .sym }) ∧
    (s.outLen = s.outCap → engineStep s = .next (raise .outputOverflow s))

/-- A whole copy, overlapping or not, in closed form (R404, derived in the spec): `OUT[p + k] = OUT[p − d + (k mod d)]`, and no
other byte of the output changes. -/
def Obligations.OverlappingCopy : Prop :=
  ∀ (s : State) (p d n : Nat), s.phase = .copy → s.hostQueue = [] → Memory.wf s.outMem →
    s.outLen.toNat = p → s.matchDist.toNat = d → s.copyRem.toNat = n → 1 ≤ d → d ≤ p → 1 ≤ n → p + n ≤ s.outCap.toNat →
    ∃ t, Host.Core.run core n s = .next t ∧ t.phase = .sym ∧ t.outLen.toNat = p + n ∧ t.bitpos = s.bitpos ∧
      (∀ k, k < n → Memory.read t.outMem (p + k) = Memory.read s.outMem (p - d + k % d)) ∧
      (∀ a, a < p ∨ p + n ≤ a → Memory.read t.outMem a = Memory.read s.outMem a)

/-! ## Frames -/

/-- Where the elements store: `LIT` and `STORED_BYTE` change at most the byte at `OUT_LEN`, every other element changes no byte of
the output, and no element changes the input, the host's registers or what the host does next (R205, R401, R425). -/
def Obligations.MemoryFrame : Prop :=
  ∀ (i : Instr) (s t : State), exec i s = .next t → Memory.wf s.outMem →
    (∀ a, Memory.read t.inMem a = Memory.read s.inMem a) ∧ t.inMem = s.inMem ∧ t.inLen = s.inLen ∧ t.outCap = s.outCap ∧
    t.blockStep = s.blockStep ∧ t.hostQueue = s.hostQueue ∧ t.hostData = s.hostData ∧
    ((∀ b, i ≠ .lit b ∧ i ≠ .storedByte b) →
      t.outLen = s.outLen ∧ t.outMem = s.outMem ∧ ∀ a, Memory.read t.outMem a = Memory.read s.outMem a) ∧
    (∀ b, i = .lit b ∨ i = .storedByte b →
      (∀ a, a ≠ s.outLen.toNat → Memory.read t.outMem a = Memory.read s.outMem a) ∧
      (t.outLen = s.outLen + 1 ∧ Memory.read t.outMem s.outLen.toNat = b ∨
        t.phase = .error ∧ t.outLen = s.outLen ∧ t.outMem = s.outMem))

/-- Every register is unchanged except those the element's rule names under 'State written' (R250–R289, R320, R360), the error
registers where the element raises (R460), and `BLOCK_IDX` at the end of a block (R290). `PHASE` stays as it was after a literal, a
code-length symbol that does not complete the sequence and a stored byte that is not the last, where they raise nothing; every other
element's rule writes it. `OUT_LEN` is written by a literal and a stored byte only, and no element writes `IN_LEN`, `OUT_CAP` or
`CTRL.BLOCK_STEP`. -/
def Obligations.RegisterFrame : Prop :=
  ∀ (i : Instr) (s t : State), exec i s = .next t →
    (t.phase ≠ .error → t.errCode = s.errCode ∧ t.errBitpos = s.errBitpos ∧ t.errBlock = s.errBlock) ∧
    (i.kind ≠ .blockHdr → t.bfinal = s.bfinal ∧ t.btype = s.btype) ∧
    ((∀ l n, i ≠ .storedHdr l n) → t.storedLen = s.storedLen ∧ t.storedNlen = s.storedNlen) ∧
    ((∀ l n b, i ≠ .storedHdr l n ∧ i ≠ .storedByte b) → t.storedRem = s.storedRem) ∧
    (i ≠ .eob → (∀ l n b, i ≠ .storedHdr l n ∧ i ≠ .storedByte b) → t.blockIdx = s.blockIdx) ∧
    (i.kind ≠ .dynHdr → t.hlit = s.hlit ∧ t.hdist = s.hdist ∧ t.hclen = s.hclen ∧ t.clLen = s.clLen ∧ t.tCL = s.tCL ∧
      t.seqTotal = s.seqTotal) ∧
    (i.kind ≠ .clSymbol → t.seq = s.seq) ∧
    (i.kind ≠ .clSymbol → i.kind ≠ .dynHdr → t.seqIdx = s.seqIdx) ∧
    (i.kind ≠ .clSymbol → (∀ f, i ≠ .fixed f) → t.llLen = s.llLen ∧ t.dLen = s.dLen ∧ t.tLL = s.tLL ∧ t.tD = s.tD) ∧
    (lengthOperand i = none → t.matchLen = s.matchLen) ∧
    (lengthOperand i = none → distanceOperand i = none → t.matchDist = s.matchDist ∧ t.copyRem = s.copyRem) ∧
    (i = .eob ∨ i = .llInvalid286 ∨ i = .llInvalid287 ∨ i = .dInvalid30 ∨ i = .dInvalid31 ∨ (∃ b, i = .lit b) ∨
      (∃ v, i = .clLen v) → t.bitpos = s.bitpos) ∧
    (t.phase ≠ .error → ((∃ b, i = .lit b) ∨ (i.kind = .clSymbol ∧ t.seqIdx ≠ t.seqTotal) ∨
      ((∃ b, i = .storedByte b) ∧ s.storedRem ≠ 1)) → t.phase = s.phase) ∧
    ((∀ b, i ≠ .lit b ∧ i ≠ .storedByte b) → t.outLen = s.outLen) ∧
    t.inLen = s.inLen ∧ t.outCap = s.outCap ∧ t.blockStep = s.blockStep

/-! ## Errors, stopping and resetting -/

/-- The numbers of the errors (R451). -/
def Obligations.ErrorNumbers : Prop :=
  [Err.invalidHeader, .unexpectedEndOfStream, .invalidBlockType, .storedBlockLengthMismatch, .invalidHuffmanTree,
    .invalidHuffmanCode, .invalidTreeDescription, .invalidSymbol, .invalidDistance, .trailerMismatch, .outputOverflow].map
    (fun e => e.code.toNat) = [1, 2, 3, 4, 5, 6, 7, 8, 9, 10, 11]

/-- A step that enters `ERROR` has written an error code the engine raises, the cursor as the step left it and the index of the
block, and nothing else ever writes an error code but `START` and reset (R460, R462): the engine never writes 1, 10 or 12–15. -/
def Obligations.TrapEntry : Prop :=
  ∀ s t : State, s.phase ≠ .error → engineStep s = .next t →
    (t.phase = .error → ((2 ≤ t.errCode.toNat ∧ t.errCode.toNat ≤ 9) ∨ t.errCode.toNat = 11) ∧ t.errBitpos = t.bitpos ∧
      t.errBlock = s.blockIdx ∧ t.errBlock = t.blockIdx) ∧
    (t.phase ≠ .error → t.errCode = s.errCode ∧ t.errBitpos = s.errBitpos ∧ t.errBlock = s.errBlock)

/-- Only `START` or reset leaves `ERROR`, and `START` begins a new session at bit 0 (R463). (What the host does is an event of the
model's queue, log 3.) -/
def Obligations.OnlyStartOrResetLeavesError : Prop :=
  ∀ s t : State, s.phase = .error → step s = .next t → t.phase ≠ .error →
    (∃ q, s.hostQueue = .reset :: q ∧ t.phase = .idle) ∨
    (∃ v q, s.hostQueue = .writeReg 0 4 v :: q ∧ v.getLsbD 0 = true ∧ t.phase = .hdr ∧ t.bitpos = 0)

/-- In `IDLE`, `PAUSED`, `DONE` and `ERROR` the engine takes no step: with the host quiet, every register and both memories keep
their value (R480, R291). -/
def Obligations.StoppedPhasesStay : Prop :=
  ∀ s : State, s.phase ∈ [Phase.idle, .paused, .done, .error] →
    engineStep s = .next s ∧ (s.hostQueue = [] → step s = .next s) ∧
    (∀ q, s.hostQueue = .quiet :: q → step s = .next { s with hostQueue := q })

/-- What reset leaves (R490): every register whose value the spec gives, in the state after a reset event in any state and in
`State.reset`; the event does not touch the memories. (The tables and `SEQ`, which R490 leaves unspecified, are not stated, log 1; the event is one of the
model's queue, log 3.) -/
def Obligations.ResetLeaves : Prop :=
  let leaves (t : State) := t.phase = .idle ∧ t.bitpos = 0 ∧ t.bfinal = false ∧ t.btype = 0 ∧ t.blockIdx = 0 ∧ t.tLL = none ∧
    t.tD = none ∧ t.tCL = none ∧ t.hlit = 0 ∧ t.hdist = 0 ∧ t.hclen = 0 ∧ t.seqIdx = 0 ∧ t.seqTotal = 0 ∧ t.storedLen = 0 ∧
    t.storedNlen = 0 ∧ t.storedRem = 0 ∧ t.matchLen = 0 ∧ t.matchDist = 0 ∧ t.copyRem = 0 ∧ t.outLen = 0 ∧ t.blockStep = false ∧
    t.inLen = 0 ∧ t.outCap = 0 ∧ t.errCode = 0 ∧ t.errBitpos = 0 ∧ t.errBlock = 0
  leaves State.reset ∧
  ∀ (s : State) (q : List HostEvent), s.hostQueue = .reset :: q →
    ∃ t, step s = .next t ∧ leaves t ∧ t.inMem = s.inMem ∧ t.outMem = s.outMem

/-! ## The host's registers and commands -/

/-- `STATUS` as it reads in each phase (R45, R60): `STATE` in bits 2:0, 5–7 never shown, the rest 0. -/
def Obligations.StatusOfPhase : Prop :=
  (∀ s : State, (statusWord s).toNat ≤ 4) ∧
  ∀ s : State, statusWord s = match s.phase with
    | .idle => 0
    | .hdr => 1
    | .storedHdr => 1
    | .storedData => 1
    | .dynHdr => 1
    | .dynSeq => 1
    | .sym => 1
    | .copy => 1
    | .paused => 2
    | .done => 3
    | .error => 4

/-- An aligned 32-bit read of the register block answers the register at that offset, reserved offsets and bits reading 0, and has
no side effect on the engine (R58, R69, R70, R105). The answer stands in the model's own `hostData` (log 3). -/
def Obligations.RegisterReads : Prop :=
  ∀ (s : State) (q : List HostEvent) (off : Nat), s.hostQueue = .readReg off 4 :: q → off % 4 = 0 → off < 64 →
    step s = .next { s with
      hostQueue := q
      hostData := if off = 0x00 then (if s.blockStep then 0x100 else 0) else if off = 0x04 then statusWord s
        else if off = 0x08 then s.errCode.setWidth 32 else if off = 0x0C then s.errBitpos else if off = 0x10 then s.errBlock
        else if off = 0x14 then s.inLen else if off = 0x18 then s.outCap else if off = 0x1C then s.outLen
        else if off = 0x20 then s.bitpos else if off = 0x24 then s.blockIdx else 0 }

/-- Writing a read-only register or a reserved offset has no effect (R69, R70), and a write of `CTRL` has the effects of its bits
0, 1 and 8 only (R59). -/
def Obligations.ReadOnlyWritesIgnored : Prop :=
  (∀ (s : State) (q : List HostEvent) (off : Nat) (v : Word), s.hostQueue = .writeReg off 4 v :: q → off % 4 = 0 → off < 64 →
    off ≠ 0x00 → off ≠ 0x14 → off ≠ 0x18 → step s = .next { s with hostQueue := q }) ∧
  (∀ (s : State) (v : Word), writeCtrl v s = writeCtrl (v &&& 0x103) s)

/-- `START` (R421): outside `BUSY` it begins a session at bit 0 with an empty output and clears the error registers and nothing
else; in `BUSY` it is ignored. (Bit 8 of the same write is stored, R59; the write is an event of the
model's queue, log 3.) -/
def Obligations.StartCommand : Prop :=
  ∀ (s : State) (q : List HostEvent) (v : Word), s.hostQueue = .writeReg 0 4 v :: q → v.getLsbD 0 = true →
    (s.phase ∈ [Phase.idle, .paused, .done, .error] → step s = .next { s with
      hostQueue := q, blockStep := v.getLsbD 8, bitpos := 0, outLen := 0, blockIdx := 0, bfinal := false, errCode := 0,
      errBitpos := 0, errBlock := 0, phase := .hdr }) ∧
    (s.phase ∉ [Phase.idle, .paused, .done, .error] → step s = .next { s with hostQueue := q, blockStep := v.getLsbD 8 })

/-- `RESUME` (R422): a paused session goes on with the next header; everywhere else it is ignored. A block that pauses and is
resumed leaves the state of one that never paused. (The write is an event of the model's queue, log 3.) -/
def Obligations.ResumeCommand : Prop :=
  (∀ (s : State) (q : List HostEvent) (v : Word), s.hostQueue = .writeReg 0 4 v :: q → v.getLsbD 0 = false →
    v.getLsbD 1 = true →
    (s.phase = .paused → step s = .next { s with hostQueue := q, blockStep := v.getLsbD 8, phase := .hdr }) ∧
    (s.phase ≠ .paused → step s = .next { s with hostQueue := q, blockStep := v.getLsbD 8 })) ∧
  (∀ s : State, s.bfinal = false →
    resume (blockEnd { s with blockStep := true }) = { blockEnd { s with blockStep := false } with blockStep := true })

/-- Command conflicts (R424): both command bits run `START` only; in `BUSY` neither runs; `RESUME` outside `PAUSED` is ignored; with
neither bit the write only updates `BLOCK_STEP`. -/
def Obligations.CommandConflicts : Prop :=
  ∀ (s : State) (v : Word),
    (v.getLsbD 0 = true → v.getLsbD 1 = true → writeCtrl v s = start { s with blockStep := v.getLsbD 8 }) ∧
    (s.phase.status = .busy → writeCtrl v s = { s with blockStep := v.getLsbD 8 }) ∧
    (v.getLsbD 0 = false → s.phase ≠ .paused → writeCtrl v s = { s with blockStep := v.getLsbD 8 }) ∧
    (v.getLsbD 0 = false → v.getLsbD 1 = false → writeCtrl v s = { s with blockStep := v.getLsbD 8 })

/-- In a session, writes of `IN_LEN` and `OUT_CAP` are ignored and both stay constant, with the input, while `BLOCK_STEP` always takes
its new value (R425; a value above `IN_LEN_MAX` is ignored like the others, log 12); outside a session `OUT_CAP` takes any value and
`IN_LEN` any up to `IN_LEN_MAX` (R61, R62). The host's writes are events of the model's queue (log 3). -/
def Obligations.SessionRegisters : Prop :=
  (∀ (s : State) (q : List HostEvent) (v : Word), s.phase.inSession = true →
    s.hostQueue = .writeReg 0x14 4 v :: q ∨ s.hostQueue = .writeReg 0x18 4 v :: q → step s = .next { s with hostQueue := q }) ∧
  (∀ s t : State, s.phase.inSession = true → step s = .next t → (∀ q, s.hostQueue ≠ .reset :: q) →
    t.inLen = s.inLen ∧ t.outCap = s.outCap ∧ t.inMem = s.inMem) ∧
  (∀ (s : State) (q : List HostEvent) (v : Word), s.phase.inSession = false → s.hostQueue = .writeReg 0x18 4 v :: q →
    step s = .next { s with hostQueue := q, outCap := v }) ∧
  (∀ (s : State) (q : List HostEvent) (v : Word), s.phase.inSession = false → s.hostQueue = .writeReg 0x14 4 v :: q →
    v.toNat ≤ Config.inLenMax → step s = .next { s with hostQueue := q, inLen := v }) ∧
  (∀ (s : State) (q : List HostEvent) (v : Word), s.hostQueue = .writeReg 0x00 4 v :: q →
    ∃ t, step s = .next t ∧ t.blockStep = v.getLsbD 8)

/-- The host's buffer accesses: outside a session a write stores its byte and no other; in a session it is outside the model (R500,
the model's choice U14, log 11); a read of the output is allowed at any time and changes nothing. -/
def Obligations.HostBufferAccess : Prop :=
  ∀ (s : State) (q : List HostEvent) (a : Word) (b : Byte), Memory.wf s.inMem → Memory.wf s.outMem →
    (s.phase.inSession = false → s.hostQueue = .fillIn a b :: q → ∃ m, step s = .next { s with hostQueue := q, inMem := m } ∧
      ∀ x, Memory.read m x = if x = a.toNat then b else Memory.read s.inMem x) ∧
    (s.phase.inSession = false → s.hostQueue = .writeOut a b :: q → ∃ m, step s = .next { s with hostQueue := q, outMem := m } ∧
      ∀ x, Memory.read m x = if x = a.toNat then b else Memory.read s.outMem x) ∧
    (s.phase.inSession = true → s.hostQueue = .fillIn a b :: q ∨ s.hostQueue = .writeOut a b :: q →
      step s = .refused .bufferWriteInSession) ∧
    (s.hostQueue = .readOut a :: q →
      step s = .next { s with hostQueue := q, hostData := (Memory.read s.outMem a.toNat).setWidth 32 })

/-! ## The whole machine -/

/-- The invariant holds at reset. -/
def Obligations.InvAtReset : Prop := State.reset.Inv

/-- Every step, of the engine or of the host, keeps the invariant: the memories stay in canonical form, the cursor and the output
stay within their bounds in and before a session (R44, R57, R204, log 8), the trees a phase needs are there, a match reaches only into the output (R402), and an
error code stands exactly in `ERROR` (R66). -/
def Obligations.StepKeepsInv : Prop :=
  ∀ s t : State, s.Inv → step s = .next t → t.Inv

/-- No input, however malformed, stops the machine (R450): where the invariant holds a step never faults, and only a host event the
spec puts outside the model (R105, R500, R502) is refused. -/
def Obligations.NoInputStopsTheMachine : Prop :=
  (∀ (s : State) (r : Fault), s.Inv → step s ≠ .fault r) ∧
  (∀ (s : State) (r : Refusal), step s = .refused r →
    (∃ a b q, r = .bufferWriteInSession ∧ s.phase.inSession = true ∧
      (s.hostQueue = .fillIn a b :: q ∨ s.hostQueue = .writeOut a b :: q)) ∨
    (∃ v q, r = .inLenTooLarge ∧ s.hostQueue = .writeReg 0x14 4 v :: q ∧ Config.inLenMax < v.toNat) ∨
    (∃ off n v q, r = .badRegisterAccess ∧ ¬ (n = 4 ∧ off % 4 = 0 ∧ off < 64) ∧
      (s.hostQueue = .writeReg off n v :: q ∨ s.hostQueue = .readReg off n :: q)))

/-- Every element has a meaning in every state: none is refused, and the only fault is a length row met before `T_D` was built,
which no run reaches (log 9). -/
def Obligations.EveryElementRuns : Prop :=
  ∀ (i : Instr) (s : State), (∃ t, exec i s = .next t) ∨
    (exec i s = .fault .treeAbsent ∧ (lengthOperand i).isSome = true ∧ s.tD = none)

/-- How `BITPOS` moves (R43): a step of the engine never moves it backwards, a copy step leaves it, and of the host's events only
`START` and reset write it. And where it stays (R44, R204, derived in the spec): in every phase, whatever the host does, a step keeps
it within the input, with a bit left wherever it is not at a byte boundary, but for the one event that moves the bound and not the
cursor: a host write that shortens `IN_LEN` below it after a session (R43, R61, log 8). Reset and `START` establish it, `START` after
such a write too. -/
def Obligations.CursorNeverMovesBack : Prop :=
  (∀ s t : State, s.cursorOk → engineStep s = .next t →
    s.bitpos.toNat ≤ t.bitpos.toNat ∧ t.bitpos.toNat ≤ 8 * s.inLen.toNat ∧ (s.phase = .copy → t.bitpos = s.bitpos)) ∧
  (∀ (s t : State) (e : HostEvent), hostStep e s = .next t → t.bitpos ≠ s.bitpos →
    e = .reset ∨ ∃ v, e = .writeReg 0 4 v ∧ v.getLsbD 0 = true ∧ s.phase.status ≠ .busy ∧ t.bitpos = 0) ∧
  State.reset.cursorOk ∧
  (∀ s t : State, s.cursorOk → step s = .next t →
    (∀ v q, s.hostQueue = .writeReg 0x14 4 v :: q → s.phase.inSession = true ∨ s.bitpos.toNat ≤ 8 * v.toNat) →
    t.cursorOk ∧ (t.bitpos.toNat % 8 ≠ 0 → t.bitpos.toNat < 8 * t.inLen.toNat)) ∧
  (∀ (s : State) (q : List HostEvent), 8 * s.inLen.toNat < 2 ^ 32 →
    (s.hostQueue = .reset :: q → ∃ t, step s = .next t ∧ t.bitpos = 0 ∧ t.cursorOk) ∧
    (∀ v, s.hostQueue = .writeReg 0 4 v :: q → v.getLsbD 0 = true → s.phase.status ≠ .busy →
      ∃ t, step s = .next t ∧ t.bitpos = 0 ∧ t.cursorOk))

/-- The output is an append-only buffer (R400): a step of the engine leaves it, or appends one byte at `OUT_LEN`; no byte below
`OUT_LEN` is ever written again, and none at or above it is read. `START` sets `OUT_LEN` to 0. -/
def Obligations.OutputIsAppendOnly : Prop :=
  (∀ s t : State, s.Inv → engineStep s = .next t →
    (t.outLen = s.outLen ∧ t.outMem = s.outMem) ∨
    (t.outLen.toNat = s.outLen.toNat + 1 ∧ t.outLen.toNat ≤ s.outCap.toNat ∧
      ∀ a, a ≠ s.outLen.toNat → Memory.read t.outMem a = Memory.read s.outMem a)) ∧
  (∀ (s t : State) (m : Memory), s.Inv → Memory.wf m → engineStep s = .next t →
    (∀ a, a < s.outLen.toNat → Memory.read m a = Memory.read s.outMem a) →
    ∃ m', engineStep { s with outMem := m } = .next { t with outMem := m' } ∧
      ∀ a, a < t.outLen.toNat → Memory.read m' a = Memory.read t.outMem a) ∧
  (∀ s : State, s.phase.status ≠ .busy → (start s).outLen = 0)

/-- Progress (R427, derived in the spec): while a session runs, a step that does not end it reads at least one bit, or is a copy
step that appends one byte. -/
def Obligations.EveryStepProgresses : Prop :=
  ∀ s t : State, s.Inv → s.phase.status = .busy → engineStep s = .next t →
    t.phase = .error ∨ t.phase = .done ∨ s.bitpos.toNat < t.bitpos.toNat ∨
      (s.phase = .copy ∧ t.outLen.toNat = s.outLen.toNat + 1)

/-- Termination (R427, derived in the spec): with the host quiet, a running session pauses, completes or ends in an error within as
many steps as there are bits left to read and bytes left to write, and one more. -/
def Obligations.SessionsEnd : Prop :=
  ∀ s : State, s.Inv → s.phase.status = .busy → s.hostQueue = [] →
    ∃ n t, n ≤ (8 * s.inLen.toNat - s.bitpos.toNat) + (s.outCap.toNat - s.outLen.toNat) + 1 ∧
      Host.Core.run core n s = .next t ∧ t.Inv ∧ (t.phase = .paused ∨ t.phase = .done ∨ t.phase = .error)

/-- Nothing stale is ever read (R72, R73, R293): two states that differ only in registers no later step reads step alike, and the
next states differ only so. In particular no tree, table or descriptor register crosses a block or a pause. -/
def Obligations.NoStaleStateIsRead : Prop :=
  ∀ s s' t : State, s.Inv → s'.Inv → s.live = s'.live → step s = .next t →
    ∃ t', step s' = .next t' ∧ t.live = t'.live
end

