-- ==== Sys2Proof/Laws/Exec.lean ====
section
/-! SUPPORT. What `exec` runs for each constructor, one lemma per arm, true by rfl. -/

namespace Sys2Proof.Machine

@[simp] theorem exec_stored (final : Bool) (s : State) : exec (.stored final) s = execStored final s := rfl
@[simp] theorem exec_fixed (final : Bool) (s : State) : exec (.fixed final) s = execFixed final s := rfl
@[simp] theorem exec_dynamic (final : Bool) (s : State) : exec (.dynamic final) s = execDynamic final s := rfl
@[simp] theorem exec_reserved (final : Bool) (s : State) : exec (.reserved final) s = execReserved final s := rfl
@[simp] theorem exec_storedHdr (len : BitVec 16) (nlen : BitVec 16) (s : State) : exec (.storedHdr len nlen) s = execStoredHdr len nlen s := rfl
@[simp] theorem exec_storedByte (data : Byte) (s : State) : exec (.storedByte data) s = execStoredByte data s := rfl
@[simp] theorem exec_dynHdr (hlit : BitVec 5) (hdist : BitVec 5) (hclen : BitVec 4) (lens : List (BitVec 3)) (s : State) : exec (.dynHdr hlit hdist hclen lens) s = execDynHdr hlit hdist hclen lens s := rfl
@[simp] theorem exec_clLen (v : BitVec 4) (s : State) : exec (.clLen v) s = execClLen v s := rfl
@[simp] theorem exec_clRep16 (extra : BitVec 2) (s : State) : exec (.clRep16 extra) s = execClRep16 extra s := rfl
@[simp] theorem exec_clZero17 (extra : BitVec 3) (s : State) : exec (.clZero17 extra) s = execClZero17 extra s := rfl
@[simp] theorem exec_clZero18 (extra : BitVec 7) (s : State) : exec (.clZero18 extra) s = execClZero18 extra s := rfl
@[simp] theorem exec_lit (b : Byte) (s : State) : exec (.lit b) s = execLit b s := rfl
@[simp] theorem exec_eob (s : State) : exec .eob s = execEob s := rfl
@[simp] theorem exec_len257 (s : State) : exec .len257 s = execLen257 s := rfl
@[simp] theorem exec_len258 (s : State) : exec .len258 s = execLen258 s := rfl
@[simp] theorem exec_len259 (s : State) : exec .len259 s = execLen259 s := rfl
@[simp] theorem exec_len260 (s : State) : exec .len260 s = execLen260 s := rfl
@[simp] theorem exec_len261 (s : State) : exec .len261 s = execLen261 s := rfl
@[simp] theorem exec_len262 (s : State) : exec .len262 s = execLen262 s := rfl
@[simp] theorem exec_len263 (s : State) : exec .len263 s = execLen263 s := rfl
@[simp] theorem exec_len264 (s : State) : exec .len264 s = execLen264 s := rfl
@[simp] theorem exec_len265 (extra : BitVec 1) (s : State) : exec (.len265 extra) s = execLen265 extra s := rfl
@[simp] theorem exec_len266 (extra : BitVec 1) (s : State) : exec (.len266 extra) s = execLen266 extra s := rfl
@[simp] theorem exec_len267 (extra : BitVec 1) (s : State) : exec (.len267 extra) s = execLen267 extra s := rfl
@[simp] theorem exec_len268 (extra : BitVec 1) (s : State) : exec (.len268 extra) s = execLen268 extra s := rfl
@[simp] theorem exec_len269 (extra : BitVec 2) (s : State) : exec (.len269 extra) s = execLen269 extra s := rfl
@[simp] theorem exec_len270 (extra : BitVec 2) (s : State) : exec (.len270 extra) s = execLen270 extra s := rfl
@[simp] theorem exec_len271 (extra : BitVec 2) (s : State) : exec (.len271 extra) s = execLen271 extra s := rfl
@[simp] theorem exec_len272 (extra : BitVec 2) (s : State) : exec (.len272 extra) s = execLen272 extra s := rfl
@[simp] theorem exec_len273 (extra : BitVec 3) (s : State) : exec (.len273 extra) s = execLen273 extra s := rfl
@[simp] theorem exec_len274 (extra : BitVec 3) (s : State) : exec (.len274 extra) s = execLen274 extra s := rfl
@[simp] theorem exec_len275 (extra : BitVec 3) (s : State) : exec (.len275 extra) s = execLen275 extra s := rfl
@[simp] theorem exec_len276 (extra : BitVec 3) (s : State) : exec (.len276 extra) s = execLen276 extra s := rfl
@[simp] theorem exec_len277 (extra : BitVec 4) (s : State) : exec (.len277 extra) s = execLen277 extra s := rfl
@[simp] theorem exec_len278 (extra : BitVec 4) (s : State) : exec (.len278 extra) s = execLen278 extra s := rfl
@[simp] theorem exec_len279 (extra : BitVec 4) (s : State) : exec (.len279 extra) s = execLen279 extra s := rfl
@[simp] theorem exec_len280 (extra : BitVec 4) (s : State) : exec (.len280 extra) s = execLen280 extra s := rfl
@[simp] theorem exec_len281 (extra : BitVec 5) (s : State) : exec (.len281 extra) s = execLen281 extra s := rfl
@[simp] theorem exec_len282 (extra : BitVec 5) (s : State) : exec (.len282 extra) s = execLen282 extra s := rfl
@[simp] theorem exec_len283 (extra : BitVec 5) (s : State) : exec (.len283 extra) s = execLen283 extra s := rfl
@[simp] theorem exec_len284 (extra : BitVec 5) (s : State) : exec (.len284 extra) s = execLen284 extra s := rfl
@[simp] theorem exec_len285 (s : State) : exec .len285 s = execLen285 s := rfl
@[simp] theorem exec_llInvalid286 (s : State) : exec .llInvalid286 s = execLlInvalid286 s := rfl
@[simp] theorem exec_llInvalid287 (s : State) : exec .llInvalid287 s = execLlInvalid287 s := rfl
@[simp] theorem exec_dist0 (s : State) : exec .dist0 s = execDist0 s := rfl
@[simp] theorem exec_dist1 (s : State) : exec .dist1 s = execDist1 s := rfl
@[simp] theorem exec_dist2 (s : State) : exec .dist2 s = execDist2 s := rfl
@[simp] theorem exec_dist3 (s : State) : exec .dist3 s = execDist3 s := rfl
@[simp] theorem exec_dist4 (extra : BitVec 1) (s : State) : exec (.dist4 extra) s = execDist4 extra s := rfl
@[simp] theorem exec_dist5 (extra : BitVec 1) (s : State) : exec (.dist5 extra) s = execDist5 extra s := rfl
@[simp] theorem exec_dist6 (extra : BitVec 2) (s : State) : exec (.dist6 extra) s = execDist6 extra s := rfl
@[simp] theorem exec_dist7 (extra : BitVec 2) (s : State) : exec (.dist7 extra) s = execDist7 extra s := rfl
@[simp] theorem exec_dist8 (extra : BitVec 3) (s : State) : exec (.dist8 extra) s = execDist8 extra s := rfl
@[simp] theorem exec_dist9 (extra : BitVec 3) (s : State) : exec (.dist9 extra) s = execDist9 extra s := rfl
@[simp] theorem exec_dist10 (extra : BitVec 4) (s : State) : exec (.dist10 extra) s = execDist10 extra s := rfl
@[simp] theorem exec_dist11 (extra : BitVec 4) (s : State) : exec (.dist11 extra) s = execDist11 extra s := rfl
@[simp] theorem exec_dist12 (extra : BitVec 5) (s : State) : exec (.dist12 extra) s = execDist12 extra s := rfl
@[simp] theorem exec_dist13 (extra : BitVec 5) (s : State) : exec (.dist13 extra) s = execDist13 extra s := rfl
@[simp] theorem exec_dist14 (extra : BitVec 6) (s : State) : exec (.dist14 extra) s = execDist14 extra s := rfl
@[simp] theorem exec_dist15 (extra : BitVec 6) (s : State) : exec (.dist15 extra) s = execDist15 extra s := rfl
@[simp] theorem exec_dist16 (extra : BitVec 7) (s : State) : exec (.dist16 extra) s = execDist16 extra s := rfl
@[simp] theorem exec_dist17 (extra : BitVec 7) (s : State) : exec (.dist17 extra) s = execDist17 extra s := rfl
@[simp] theorem exec_dist18 (extra : BitVec 8) (s : State) : exec (.dist18 extra) s = execDist18 extra s := rfl
@[simp] theorem exec_dist19 (extra : BitVec 8) (s : State) : exec (.dist19 extra) s = execDist19 extra s := rfl
@[simp] theorem exec_dist20 (extra : BitVec 9) (s : State) : exec (.dist20 extra) s = execDist20 extra s := rfl
@[simp] theorem exec_dist21 (extra : BitVec 9) (s : State) : exec (.dist21 extra) s = execDist21 extra s := rfl
@[simp] theorem exec_dist22 (extra : BitVec 10) (s : State) : exec (.dist22 extra) s = execDist22 extra s := rfl
@[simp] theorem exec_dist23 (extra : BitVec 10) (s : State) : exec (.dist23 extra) s = execDist23 extra s := rfl
@[simp] theorem exec_dist24 (extra : BitVec 11) (s : State) : exec (.dist24 extra) s = execDist24 extra s := rfl
@[simp] theorem exec_dist25 (extra : BitVec 11) (s : State) : exec (.dist25 extra) s = execDist25 extra s := rfl
@[simp] theorem exec_dist26 (extra : BitVec 12) (s : State) : exec (.dist26 extra) s = execDist26 extra s := rfl
@[simp] theorem exec_dist27 (extra : BitVec 12) (s : State) : exec (.dist27 extra) s = execDist27 extra s := rfl
@[simp] theorem exec_dist28 (extra : BitVec 13) (s : State) : exec (.dist28 extra) s = execDist28 extra s := rfl
@[simp] theorem exec_dist29 (extra : BitVec 13) (s : State) : exec (.dist29 extra) s = execDist29 extra s := rfl
@[simp] theorem exec_dInvalid30 (s : State) : exec .dInvalid30 s = execDInvalid30 s := rfl
@[simp] theorem exec_dInvalid31 (s : State) : exec .dInvalid31 s = execDInvalid31 s := rfl

end Sys2Proof.Machine
end

