-- ==== Sys2Proof/Laws/Huffman.lean ====
section
/-! SUPPORT. The laws of `Build` and `Decode`: which codes a tree has, and how many bits a decoded symbol takes. -/

namespace Sys2Proof.Huffman

/-! ## Construction -/

theorem build_eq_some {ls : List Nat} {t : Tree} (h : build ls = some t) :
    fits ls = true ∧ t = ⟨assign (firstCodes ls) 0 ls⟩ := by
  unfold build at h
  split at h
  next hf => exact ⟨hf, (Option.some.inj h).symm⟩
  next => cases h

/-- A set of lengths is accepted exactly when the codes of every length fit (R222). -/
theorem build_isSome_iff (ls : List Nat) :
    (build ls).isSome = true ↔ ∀ l, 1 ≤ l → l ≤ Config.maxBits → firstCode ls l + count ls l ≤ 2 ^ l := by
  have hf : (build ls).isSome = fits ls := by unfold build; split <;> simp_all
  rw [hf, fits, List.all_eq_true]
  constructor
  · intro h l h1 h2
    have := h (l - 1) (List.mem_range.mpr (by omega))
    rwa [show l - 1 + 1 = l by omega, decide_eq_true_iff] at this
  · intro h k hk
    rw [decide_eq_true_iff]
    exact h (k + 1) (by omega) (by have := List.mem_range.mp hk; omega)

theorem firstCodes_length (ls : List Nat) : (firstCodes ls).length = Config.maxBits + 1 := by
  simp [firstCodes]

theorem firstCodes_getD (ls : List Nat) (l : Nat) (h : l ≤ Config.maxBits) :
    (firstCodes ls).getD l 0 = firstCode ls l := by
  simp [firstCodes, List.getD_eq_getElem?_getD, List.getElem?_range (show l < Config.maxBits + 1 by omega)]

/-- The codes `assign` gives: symbol `s + k` has an entry exactly when its length is not 0; its code is the cursor of its length
plus the number of earlier symbols of the same length (R223). -/
theorem mem_assign (ls : List Nat) (next : List Nat) (s : Nat) (hl : ∀ l ∈ ls, l < next.length) (c : Code) :
    c ∈ assign next s ls ↔ ∃ k, ∃ h : k < ls.length, c.sym = s + k ∧ c.len = ls[k] ∧ ls[k] ≠ 0 ∧
      c.code = next.getD ls[k] 0 + (ls.take k).count ls[k] := by
  induction ls generalizing next s with
  | nil => simp [assign]
  | cons l ls ih =>
    unfold assign
    split
    next h0 =>
      rw [ih next (s + 1) fun x hx => hl x (by simp [hx])]
      constructor
      · rintro ⟨k, hk, h1, h2, h3, h4⟩
        refine ⟨k + 1, by simpa using hk, by omega, by simpa using h2, by simpa using h3, ?_⟩
        have : (l == ls[k]) = false := by rw [beq_eq_false_iff_ne]; omega
        simp [h4, List.count_cons, this]
      · rintro ⟨k, hk, h1, h2, h3, h4⟩
        cases k with
        | zero => simp at h3; omega
        | succ k =>
          simp only [List.getElem_cons_succ] at h2 h3 h4
          refine ⟨k, by simpa using hk, by omega, h2, h3, ?_⟩
          have : (l == ls[k]'(by simpa using hk)) = false := by rw [beq_eq_false_iff_ne]; omega
          simpa [List.count_cons, this] using h4
    next h0 =>
      have hlen : l < next.length := hl l (by simp)
      have hset : ∀ x ∈ ls, x < (next.set l (next.getD l 0 + 1)).length := fun x hx => by
        simpa using hl x (by simp [hx])
      have hgetD : ∀ x, (next.set l (next.getD l 0 + 1)).getD x 0 = next.getD x 0 + if l = x then 1 else 0 := by
        intro x
        by_cases hx : l = x
        · subst hx; simp [List.getD_eq_getElem?_getD, hlen]
        · simp [List.getD_eq_getElem?_getD, List.getElem?_set_ne hx, hx]
      rw [List.mem_cons, ih _ (s + 1) hset]
      constructor
      · rintro (rfl | ⟨k, hk, h1, h2, h3, h4⟩)
        · exact ⟨0, by simp, by simp, by simp, by simpa using h0, by simp⟩
        · refine ⟨k + 1, by simpa using hk, by omega, by simpa using h2, by simpa using h3, ?_⟩
          rw [hgetD] at h4
          simp only [h4, List.getElem_cons_succ, List.take_succ_cons, List.count_cons, beq_iff_eq]
          omega
      · rintro ⟨k, hk, h1, h2, h3, h4⟩
        cases k with
        | zero =>
          left
          obtain ⟨clen, ccode, csym⟩ := c
          simp at h1 h2 h4
          simp [h1, h2, h4]
        | succ k =>
          right
          simp only [List.getElem_cons_succ, List.take_succ_cons, List.count_cons, beq_iff_eq] at h2 h3 h4
          refine ⟨k, by simpa using hk, by omega, h2, h3, ?_⟩
          rw [hgetD]
          omega

/-- The codes of a built tree (R223, R229): symbol `k` has one exactly when its length is not 0; its value is the first code of
its length plus the number of earlier symbols of that length. -/
theorem mem_build {ls : List Nat} {t : Tree} (h : build ls = some t) (hl : ∀ l ∈ ls, l ≤ Config.maxBits) (c : Code) :
    c ∈ t.codes ↔ ∃ k, ∃ h : k < ls.length, c.sym = k ∧ c.len = ls[k] ∧ ls[k] ≠ 0 ∧
      c.code = firstCode ls ls[k] + (ls.take k).count ls[k] := by
  obtain ⟨-, rfl⟩ := build_eq_some h
  show c ∈ assign (firstCodes ls) 0 ls ↔ _
  rw [mem_assign ls (firstCodes ls) 0 (fun l hm => by rw [firstCodes_length]; have := hl l hm; omega)]
  constructor
  · rintro ⟨k, hk, h1, h2, h3, h4⟩
    exact ⟨k, hk, by omega, h2, h3, by rw [h4, firstCodes_getD ls _ (hl _ (List.getElem_mem hk))]⟩
  · rintro ⟨k, hk, h1, h2, h3, h4⟩
    exact ⟨k, hk, by omega, h2, h3, by rw [h4, firstCodes_getD ls _ (hl _ (List.getElem_mem hk))]⟩

/-- A built tree is well formed. -/
theorem build_wf {ls : List Nat} {t : Tree} (h : build ls = some t) (hl : ∀ l ∈ ls, l ≤ Config.maxBits) : t.wf := by
  intro c hc
  obtain ⟨k, hk, -, h2, h3, -⟩ := (mem_build h hl c).mp hc
  have := hl _ (List.getElem_mem hk)
  rw [h2]
  exact ⟨by omega, this⟩

/-! ## Decoding -/

theorem walk_bounds (t : Tree) (fuel len c : Nat) (bits : Bits) (sym n : Nat)
    (h : walk t fuel len c bits = some (sym, n)) : len < n ∧ n ≤ len + fuel ∧ n ≤ len + bits.length := by
  induction fuel generalizing len c bits with
  | zero => simp [walk] at h
  | succ fuel ih =>
    cases bits with
    | nil => simp [walk] at h
    | cons b bs =>
      unfold walk at h
      split at h
      next s hs =>
        obtain ⟨rfl, rfl⟩ : s = sym ∧ len + 1 = n := by simpa using h
        simp
      next =>
        have := ih _ _ _ h
        simp only [List.length_cons]
        omega

/-- A decoded symbol takes between 1 and 15 of the bits that are there (R225–R227). -/
theorem decode_bounds {t : Tree} (ht : t.wf) {bits : Bits} {sym n : Nat} (h : decode t bits = some (sym, n)) :
    1 ≤ n ∧ n ≤ Config.maxBits ∧ n ≤ bits.length := by
  unfold decode at h
  split at h
  next c hc =>
    split at h
    next hl =>
      obtain ⟨rfl, rfl⟩ : c.sym = sym ∧ c.len = n := by simpa using h
      have := ht c (by simp [hc])
      omega
    next => cases h
  next =>
    have := walk_bounds t _ _ _ _ _ _ h
    omega

/-- A tree with one code reads that code's length and ignores the bits (R226). -/
theorem decode_degenerate {t : Tree} {c : Code} (hc : t.codes = [c]) {bits : Bits} (h : c.len ≤ bits.length) :
    decode t bits = some (c.sym, c.len) := by
  simp [decode, hc, h]

end Sys2Proof.Huffman
end

