-- ==== Sys2Proof/Laws/Memory.lean ====
section
/-! SUPPORT. The laws of a byte space: read after write, and the canonical form. -/

namespace Sys2Proof.Machine.Memory

theorem read_nil (a : Nat) : read [] a = Config.unlistedByte := rfl

theorem read_cell (a' : Nat) (b' : Byte) (m : Memory) (a : Nat) :
    read ((a', b') :: m) a = if a = a' then b' else read m a := by
  by_cases h : a = a'
  · simp [read, h]
  · simp [read, h, Ne.symm h]

theorem read_cons (a' : Nat) (b' : Byte) (m : Memory) (a : Nat) (h : read m a' = Config.unlistedByte) :
    read (cons a' b' m) a = if a = a' then b' else read m a := by
  unfold cons
  split
  next hb =>
    split
    next ha => rw [ha, h, hb]
    next => rfl
  next => exact read_cell a' b' m a

/-- An address below every listed one reads as an unlisted byte. -/
theorem read_of_lt (m : Memory) (a : Nat) (h : ∀ c ∈ m, a < c.1) : read m a = Config.unlistedByte := by
  induction m with
  | nil => rfl
  | cons c m ih =>
    obtain ⟨a', b'⟩ := c
    have h1 : a < a' := h (a', b') (by simp)
    rw [read_cell, if_neg (by omega)]
    exact ih fun c hc => h c (by simp [hc])

theorem wf_tail {c : Host.Cell} {m : Memory} (h : wf (c :: m)) : wf m :=
  ⟨(List.pairwise_cons.mp h.1).2, fun d hd => h.2 d (by simp [hd])⟩

theorem wf_head_lt {c : Host.Cell} {m : Memory} (h : wf (c :: m)) : ∀ d ∈ m, c.1 < d.1 :=
  (List.pairwise_cons.mp h.1).1

/-- Reading after a write: the written address gives the byte, every other address what it gave. -/
theorem read_write (m : Memory) (hm : wf m) (a : Nat) (b : Byte) (x : Nat) :
    read (write a b m) x = if x = a then b else read m x := by
  induction m with
  | nil => exact read_cons a b [] x rfl
  | cons c m ih =>
    obtain ⟨a', b'⟩ := c
    have hlt := wf_head_lt hm
    unfold write
    split
    next h =>
      refine read_cons a b _ x (read_of_lt _ a ?_)
      intro d hd
      rcases List.mem_cons.mp hd with rfl | hd
      · exact h
      · exact Nat.lt_trans h (hlt d hd)
    next h =>
      split
      next he =>
        subst he
        rw [read_cons a b m x (read_of_lt m a hlt), read_cell]
        split <;> rfl
      next he =>
        rw [read_cell, ih (wf_tail hm), read_cell]
        by_cases hx : x = a'
        · rw [if_pos hx, if_pos hx, if_neg (by omega)]
        · rw [if_neg hx, if_neg hx]

@[simp] theorem read_write_same (m : Memory) (hm : wf m) (a : Nat) (b : Byte) : read (write a b m) a = b := by
  rw [read_write m hm, if_pos rfl]

theorem read_write_other (m : Memory) (hm : wf m) (a : Nat) (b : Byte) (x : Nat) (h : x ≠ a) :
    read (write a b m) x = read m x := by
  rw [read_write m hm, if_neg h]

theorem mem_write (m : Memory) (a : Nat) (b : Byte) (c : Host.Cell) (h : c ∈ write a b m) :
    c = (a, b) ∧ b ≠ Config.unlistedByte ∨ c ∈ m := by
  induction m with
  | nil =>
    unfold write cons at h
    split at h
    next => simp at h
    next hb => simp at h; exact .inl ⟨h, hb⟩
  | cons d m ih =>
    obtain ⟨a', b'⟩ := d
    unfold write at h
    split at h
    next =>
      unfold cons at h
      split at h
      next => exact .inr h
      next hb =>
        rcases List.mem_cons.mp h with h | h
        · exact .inl ⟨h, hb⟩
        · exact .inr h
    next =>
      split at h
      next =>
        unfold cons at h
        split at h
        next => exact .inr (List.mem_cons_of_mem _ h)
        next hb =>
          rcases List.mem_cons.mp h with h | h
          · exact .inl ⟨h, hb⟩
          · exact .inr (List.mem_cons_of_mem _ h)
      next =>
        rcases List.mem_cons.mp h with h | h
        · exact .inr (h ▸ List.mem_cons_self)
        · rcases ih h with h | h
          · exact .inl h
          · exact .inr (List.mem_cons_of_mem _ h)

theorem wf_nil : wf [] := ⟨List.Pairwise.nil, fun _ h => by cases h⟩

theorem wf_cons (m : Memory) (hm : wf m) (a : Nat) (b : Byte) (h : ∀ c ∈ m, a < c.1) : wf (cons a b m) := by
  unfold cons
  split
  next => exact hm
  next hb =>
    refine ⟨List.pairwise_cons.mpr ⟨h, hm.1⟩, fun c hc => ?_⟩
    rcases List.mem_cons.mp hc with rfl | hc
    · exact hb
    · exact hm.2 c hc

/-- Every write keeps the canonical form. -/
theorem wf_write (m : Memory) (hm : wf m) (a : Nat) (b : Byte) : wf (write a b m) := by
  induction m with
  | nil => exact wf_cons [] wf_nil a b fun _ h => by cases h
  | cons d m ih =>
    obtain ⟨a', b'⟩ := d
    have hlt := wf_head_lt hm
    unfold write
    split
    next h =>
      refine wf_cons _ hm a b fun c hc => ?_
      rcases List.mem_cons.mp hc with rfl | hc
      · exact h
      · exact Nat.lt_trans h (hlt c hc)
    next h =>
      split
      next he => exact wf_cons m (wf_tail hm) a b fun c hc => he ▸ hlt c hc
      next he =>
        refine ⟨List.pairwise_cons.mpr ⟨fun c hc => ?_, (ih (wf_tail hm)).1⟩, fun c hc => ?_⟩
        · rcases mem_write m a b c hc with ⟨rfl, _⟩ | hc
          · show a' < a; omega
          · exact hlt c hc
        · rcases List.mem_cons.mp hc with rfl | hc
          · exact hm.2 _ (by simp)
          · exact (ih (wf_tail hm)).2 c hc

theorem wf_writeBytes (bs : List Byte) (m : Memory) (hm : wf m) (a : Nat) : wf (writeBytes a bs m) := by
  induction bs generalizing a m with
  | nil => exact hm
  | cons b bs ih => exact ih _ (wf_write m hm a b) _

/-- Memories in canonical form that read alike are equal: equal memories are equal data. -/
theorem ext_of_wf (m m' : Memory) (h : wf m) (h' : wf m') (hr : ∀ a, read m a = read m' a) : m = m' := by
  induction m generalizing m' with
  | nil =>
    cases m' with
    | nil => rfl
    | cons c m' =>
      have := hr c.1
      rw [read_nil, show (c :: m') = (c.1, c.2) :: m' from rfl, read_cell, if_pos rfl] at this
      exact absurd this.symm (h'.2 c (by simp))
  | cons c m ih =>
    obtain ⟨a, b⟩ := c
    have hb : b ≠ Config.unlistedByte := h.2 (a, b) (by simp)
    cases m' with
    | nil =>
      have := hr a
      rw [read_nil, read_cell, if_pos rfl] at this
      exact absurd this hb
    | cons c' m' =>
      obtain ⟨a', b'⟩ := c'
      have hb' : b' ≠ Config.unlistedByte := h'.2 (a', b') (by simp)
      have hlt := wf_head_lt h
      have hlt' := wf_head_lt h'
      have haa : a = a' := by
        rcases Nat.lt_trichotomy a a' with hl | he | hg
        · have := hr a
          rw [read_cell, if_pos rfl, read_of_lt ((a', b') :: m') a] at this
          · exact absurd this hb
          · intro d hd
            rcases List.mem_cons.mp hd with rfl | hd
            · exact hl
            · exact Nat.lt_trans hl (hlt' d hd)
        · exact he
        · have := hr a'
          rw [read_of_lt ((a, b) :: m) a', read_cell, if_pos rfl] at this
          · exact absurd this.symm hb'
          · intro d hd
            rcases List.mem_cons.mp hd with rfl | hd
            · exact hg
            · exact Nat.lt_trans hg (hlt d hd)
      subst haa
      have hbb : b = b' := by
        have := hr a
        rwa [read_cell, if_pos rfl, read_cell, if_pos rfl] at this
      subst hbb
      rw [ih m' (wf_tail h) (wf_tail h')]
      intro x
      have := hr x
      rw [read_cell, read_cell] at this
      by_cases hx : x = a
      · subst hx
        rw [read_of_lt m x hlt, read_of_lt m' x hlt']
      · rwa [if_neg hx, if_neg hx] at this

end Sys2Proof.Machine.Memory
end

