-- ==== Sys2Proof/Laws/State.lean ====
section
/-! SUPPORT. Beside State: what each field is after each named update, one lemma per field per update, true by rfl. -/

namespace Sys2Proof.Machine

@[simp] theorem raise_phase (e : Err) (s : State) : (raise e s).phase = .error := rfl
@[simp] theorem raise_bitpos (e : Err) (s : State) : (raise e s).bitpos = s.bitpos := rfl
@[simp] theorem raise_bfinal (e : Err) (s : State) : (raise e s).bfinal = s.bfinal := rfl
@[simp] theorem raise_btype (e : Err) (s : State) : (raise e s).btype = s.btype := rfl
@[simp] theorem raise_blockIdx (e : Err) (s : State) : (raise e s).blockIdx = s.blockIdx := rfl
@[simp] theorem raise_llLen (e : Err) (s : State) : (raise e s).llLen = s.llLen := rfl
@[simp] theorem raise_dLen (e : Err) (s : State) : (raise e s).dLen = s.dLen := rfl
@[simp] theorem raise_clLen (e : Err) (s : State) : (raise e s).clLen = s.clLen := rfl
@[simp] theorem raise_tLL (e : Err) (s : State) : (raise e s).tLL = s.tLL := rfl
@[simp] theorem raise_tD (e : Err) (s : State) : (raise e s).tD = s.tD := rfl
@[simp] theorem raise_tCL (e : Err) (s : State) : (raise e s).tCL = s.tCL := rfl
@[simp] theorem raise_hlit (e : Err) (s : State) : (raise e s).hlit = s.hlit := rfl
@[simp] theorem raise_hdist (e : Err) (s : State) : (raise e s).hdist = s.hdist := rfl
@[simp] theorem raise_hclen (e : Err) (s : State) : (raise e s).hclen = s.hclen := rfl
@[simp] theorem raise_seq (e : Err) (s : State) : (raise e s).seq = s.seq := rfl
@[simp] theorem raise_seqIdx (e : Err) (s : State) : (raise e s).seqIdx = s.seqIdx := rfl
@[simp] theorem raise_seqTotal (e : Err) (s : State) : (raise e s).seqTotal = s.seqTotal := rfl
@[simp] theorem raise_storedLen (e : Err) (s : State) : (raise e s).storedLen = s.storedLen := rfl
@[simp] theorem raise_storedNlen (e : Err) (s : State) : (raise e s).storedNlen = s.storedNlen := rfl
@[simp] theorem raise_storedRem (e : Err) (s : State) : (raise e s).storedRem = s.storedRem := rfl
@[simp] theorem raise_matchLen (e : Err) (s : State) : (raise e s).matchLen = s.matchLen := rfl
@[simp] theorem raise_matchDist (e : Err) (s : State) : (raise e s).matchDist = s.matchDist := rfl
@[simp] theorem raise_copyRem (e : Err) (s : State) : (raise e s).copyRem = s.copyRem := rfl
@[simp] theorem raise_inMem (e : Err) (s : State) : (raise e s).inMem = s.inMem := rfl
@[simp] theorem raise_inLen (e : Err) (s : State) : (raise e s).inLen = s.inLen := rfl
@[simp] theorem raise_outMem (e : Err) (s : State) : (raise e s).outMem = s.outMem := rfl
@[simp] theorem raise_outLen (e : Err) (s : State) : (raise e s).outLen = s.outLen := rfl
@[simp] theorem raise_outCap (e : Err) (s : State) : (raise e s).outCap = s.outCap := rfl
@[simp] theorem raise_blockStep (e : Err) (s : State) : (raise e s).blockStep = s.blockStep := rfl
@[simp] theorem raise_errCode (e : Err) (s : State) : (raise e s).errCode = e.code := rfl
@[simp] theorem raise_errBitpos (e : Err) (s : State) : (raise e s).errBitpos = s.bitpos := rfl
@[simp] theorem raise_errBlock (e : Err) (s : State) : (raise e s).errBlock = s.blockIdx := rfl
@[simp] theorem raise_hostQueue (e : Err) (s : State) : (raise e s).hostQueue = s.hostQueue := rfl
@[simp] theorem raise_hostData (e : Err) (s : State) : (raise e s).hostData = s.hostData := rfl

@[simp] theorem blockEnd_phase (s : State) : (blockEnd s).phase = phaseAfterBlock s.bfinal s.blockStep := rfl
@[simp] theorem blockEnd_bitpos (s : State) : (blockEnd s).bitpos = s.bitpos := rfl
@[simp] theorem blockEnd_bfinal (s : State) : (blockEnd s).bfinal = s.bfinal := rfl
@[simp] theorem blockEnd_btype (s : State) : (blockEnd s).btype = s.btype := rfl
@[simp] theorem blockEnd_blockIdx (s : State) : (blockEnd s).blockIdx = s.blockIdx + 1 := rfl
@[simp] theorem blockEnd_llLen (s : State) : (blockEnd s).llLen = s.llLen := rfl
@[simp] theorem blockEnd_dLen (s : State) : (blockEnd s).dLen = s.dLen := rfl
@[simp] theorem blockEnd_clLen (s : State) : (blockEnd s).clLen = s.clLen := rfl
@[simp] theorem blockEnd_tLL (s : State) : (blockEnd s).tLL = s.tLL := rfl
@[simp] theorem blockEnd_tD (s : State) : (blockEnd s).tD = s.tD := rfl
@[simp] theorem blockEnd_tCL (s : State) : (blockEnd s).tCL = s.tCL := rfl
@[simp] theorem blockEnd_hlit (s : State) : (blockEnd s).hlit = s.hlit := rfl
@[simp] theorem blockEnd_hdist (s : State) : (blockEnd s).hdist = s.hdist := rfl
@[simp] theorem blockEnd_hclen (s : State) : (blockEnd s).hclen = s.hclen := rfl
@[simp] theorem blockEnd_seq (s : State) : (blockEnd s).seq = s.seq := rfl
@[simp] theorem blockEnd_seqIdx (s : State) : (blockEnd s).seqIdx = s.seqIdx := rfl
@[simp] theorem blockEnd_seqTotal (s : State) : (blockEnd s).seqTotal = s.seqTotal := rfl
@[simp] theorem blockEnd_storedLen (s : State) : (blockEnd s).storedLen = s.storedLen := rfl
@[simp] theorem blockEnd_storedNlen (s : State) : (blockEnd s).storedNlen = s.storedNlen := rfl
@[simp] theorem blockEnd_storedRem (s : State) : (blockEnd s).storedRem = s.storedRem := rfl
@[simp] theorem blockEnd_matchLen (s : State) : (blockEnd s).matchLen = s.matchLen := rfl
@[simp] theorem blockEnd_matchDist (s : State) : (blockEnd s).matchDist = s.matchDist := rfl
@[simp] theorem blockEnd_copyRem (s : State) : (blockEnd s).copyRem = s.copyRem := rfl
@[simp] theorem blockEnd_inMem (s : State) : (blockEnd s).inMem = s.inMem := rfl
@[simp] theorem blockEnd_inLen (s : State) : (blockEnd s).inLen = s.inLen := rfl
@[simp] theorem blockEnd_outMem (s : State) : (blockEnd s).outMem = s.outMem := rfl
@[simp] theorem blockEnd_outLen (s : State) : (blockEnd s).outLen = s.outLen := rfl
@[simp] theorem blockEnd_outCap (s : State) : (blockEnd s).outCap = s.outCap := rfl
@[simp] theorem blockEnd_blockStep (s : State) : (blockEnd s).blockStep = s.blockStep := rfl
@[simp] theorem blockEnd_errCode (s : State) : (blockEnd s).errCode = s.errCode := rfl
@[simp] theorem blockEnd_errBitpos (s : State) : (blockEnd s).errBitpos = s.errBitpos := rfl
@[simp] theorem blockEnd_errBlock (s : State) : (blockEnd s).errBlock = s.errBlock := rfl
@[simp] theorem blockEnd_hostQueue (s : State) : (blockEnd s).hostQueue = s.hostQueue := rfl
@[simp] theorem blockEnd_hostData (s : State) : (blockEnd s).hostData = s.hostData := rfl

@[simp] theorem alignByte_phase (s : State) : (alignByte s).phase = s.phase := rfl
@[simp] theorem alignByte_bitpos (s : State) : (alignByte s).bitpos = (s.bitpos + 7) &&& ~~~7#32 := rfl
@[simp] theorem alignByte_bfinal (s : State) : (alignByte s).bfinal = s.bfinal := rfl
@[simp] theorem alignByte_btype (s : State) : (alignByte s).btype = s.btype := rfl
@[simp] theorem alignByte_blockIdx (s : State) : (alignByte s).blockIdx = s.blockIdx := rfl
@[simp] theorem alignByte_llLen (s : State) : (alignByte s).llLen = s.llLen := rfl
@[simp] theorem alignByte_dLen (s : State) : (alignByte s).dLen = s.dLen := rfl
@[simp] theorem alignByte_clLen (s : State) : (alignByte s).clLen = s.clLen := rfl
@[simp] theorem alignByte_tLL (s : State) : (alignByte s).tLL = s.tLL := rfl
@[simp] theorem alignByte_tD (s : State) : (alignByte s).tD = s.tD := rfl
@[simp] theorem alignByte_tCL (s : State) : (alignByte s).tCL = s.tCL := rfl
@[simp] theorem alignByte_hlit (s : State) : (alignByte s).hlit = s.hlit := rfl
@[simp] theorem alignByte_hdist (s : State) : (alignByte s).hdist = s.hdist := rfl
@[simp] theorem alignByte_hclen (s : State) : (alignByte s).hclen = s.hclen := rfl
@[simp] theorem alignByte_seq (s : State) : (alignByte s).seq = s.seq := rfl
@[simp] theorem alignByte_seqIdx (s : State) : (alignByte s).seqIdx = s.seqIdx := rfl
@[simp] theorem alignByte_seqTotal (s : State) : (alignByte s).seqTotal = s.seqTotal := rfl
@[simp] theorem alignByte_storedLen (s : State) : (alignByte s).storedLen = s.storedLen := rfl
@[simp] theorem alignByte_storedNlen (s : State) : (alignByte s).storedNlen = s.storedNlen := rfl
@[simp] theorem alignByte_storedRem (s : State) : (alignByte s).storedRem = s.storedRem := rfl
@[simp] theorem alignByte_matchLen (s : State) : (alignByte s).matchLen = s.matchLen := rfl
@[simp] theorem alignByte_matchDist (s : State) : (alignByte s).matchDist = s.matchDist := rfl
@[simp] theorem alignByte_copyRem (s : State) : (alignByte s).copyRem = s.copyRem := rfl
@[simp] theorem alignByte_inMem (s : State) : (alignByte s).inMem = s.inMem := rfl
@[simp] theorem alignByte_inLen (s : State) : (alignByte s).inLen = s.inLen := rfl
@[simp] theorem alignByte_outMem (s : State) : (alignByte s).outMem = s.outMem := rfl
@[simp] theorem alignByte_outLen (s : State) : (alignByte s).outLen = s.outLen := rfl
@[simp] theorem alignByte_outCap (s : State) : (alignByte s).outCap = s.outCap := rfl
@[simp] theorem alignByte_blockStep (s : State) : (alignByte s).blockStep = s.blockStep := rfl
@[simp] theorem alignByte_errCode (s : State) : (alignByte s).errCode = s.errCode := rfl
@[simp] theorem alignByte_errBitpos (s : State) : (alignByte s).errBitpos = s.errBitpos := rfl
@[simp] theorem alignByte_errBlock (s : State) : (alignByte s).errBlock = s.errBlock := rfl
@[simp] theorem alignByte_hostQueue (s : State) : (alignByte s).hostQueue = s.hostQueue := rfl
@[simp] theorem alignByte_hostData (s : State) : (alignByte s).hostData = s.hostData := rfl


@[simp] theorem skip_phase (n : Nat) (s : State) : (s.skip n).phase = s.phase := rfl
@[simp] theorem skip_bitpos (n : Nat) (s : State) : (s.skip n).bitpos = s.bitpos + BitVec.ofNat 32 n := rfl
@[simp] theorem skip_bfinal (n : Nat) (s : State) : (s.skip n).bfinal = s.bfinal := rfl
@[simp] theorem skip_btype (n : Nat) (s : State) : (s.skip n).btype = s.btype := rfl
@[simp] theorem skip_blockIdx (n : Nat) (s : State) : (s.skip n).blockIdx = s.blockIdx := rfl
@[simp] theorem skip_llLen (n : Nat) (s : State) : (s.skip n).llLen = s.llLen := rfl
@[simp] theorem skip_dLen (n : Nat) (s : State) : (s.skip n).dLen = s.dLen := rfl
@[simp] theorem skip_clLen (n : Nat) (s : State) : (s.skip n).clLen = s.clLen := rfl
@[simp] theorem skip_tLL (n : Nat) (s : State) : (s.skip n).tLL = s.tLL := rfl
@[simp] theorem skip_tD (n : Nat) (s : State) : (s.skip n).tD = s.tD := rfl
@[simp] theorem skip_tCL (n : Nat) (s : State) : (s.skip n).tCL = s.tCL := rfl
@[simp] theorem skip_hlit (n : Nat) (s : State) : (s.skip n).hlit = s.hlit := rfl
@[simp] theorem skip_hdist (n : Nat) (s : State) : (s.skip n).hdist = s.hdist := rfl
@[simp] theorem skip_hclen (n : Nat) (s : State) : (s.skip n).hclen = s.hclen := rfl
@[simp] theorem skip_seq (n : Nat) (s : State) : (s.skip n).seq = s.seq := rfl
@[simp] theorem skip_seqIdx (n : Nat) (s : State) : (s.skip n).seqIdx = s.seqIdx := rfl
@[simp] theorem skip_seqTotal (n : Nat) (s : State) : (s.skip n).seqTotal = s.seqTotal := rfl
@[simp] theorem skip_storedLen (n : Nat) (s : State) : (s.skip n).storedLen = s.storedLen := rfl
@[simp] theorem skip_storedNlen (n : Nat) (s : State) : (s.skip n).storedNlen = s.storedNlen := rfl
@[simp] theorem skip_storedRem (n : Nat) (s : State) : (s.skip n).storedRem = s.storedRem := rfl
@[simp] theorem skip_matchLen (n : Nat) (s : State) : (s.skip n).matchLen = s.matchLen := rfl
@[simp] theorem skip_matchDist (n : Nat) (s : State) : (s.skip n).matchDist = s.matchDist := rfl
@[simp] theorem skip_copyRem (n : Nat) (s : State) : (s.skip n).copyRem = s.copyRem := rfl
@[simp] theorem skip_inMem (n : Nat) (s : State) : (s.skip n).inMem = s.inMem := rfl
@[simp] theorem skip_inLen (n : Nat) (s : State) : (s.skip n).inLen = s.inLen := rfl
@[simp] theorem skip_outMem (n : Nat) (s : State) : (s.skip n).outMem = s.outMem := rfl
@[simp] theorem skip_outLen (n : Nat) (s : State) : (s.skip n).outLen = s.outLen := rfl
@[simp] theorem skip_outCap (n : Nat) (s : State) : (s.skip n).outCap = s.outCap := rfl
@[simp] theorem skip_blockStep (n : Nat) (s : State) : (s.skip n).blockStep = s.blockStep := rfl
@[simp] theorem skip_errCode (n : Nat) (s : State) : (s.skip n).errCode = s.errCode := rfl
@[simp] theorem skip_errBitpos (n : Nat) (s : State) : (s.skip n).errBitpos = s.errBitpos := rfl
@[simp] theorem skip_errBlock (n : Nat) (s : State) : (s.skip n).errBlock = s.errBlock := rfl
@[simp] theorem skip_hostQueue (n : Nat) (s : State) : (s.skip n).hostQueue = s.hostQueue := rfl
@[simp] theorem skip_hostData (n : Nat) (s : State) : (s.skip n).hostData = s.hostData := rfl

@[simp] theorem atEnd_phase (s : State) : (s.atEnd).phase = s.phase := rfl
@[simp] theorem atEnd_bitpos (s : State) : (s.atEnd).bitpos = BitVec.ofNat 32 (8 * s.inLen.toNat) := rfl
@[simp] theorem atEnd_bfinal (s : State) : (s.atEnd).bfinal = s.bfinal := rfl
@[simp] theorem atEnd_btype (s : State) : (s.atEnd).btype = s.btype := rfl
@[simp] theorem atEnd_blockIdx (s : State) : (s.atEnd).blockIdx = s.blockIdx := rfl
@[simp] theorem atEnd_llLen (s : State) : (s.atEnd).llLen = s.llLen := rfl
@[simp] theorem atEnd_dLen (s : State) : (s.atEnd).dLen = s.dLen := rfl
@[simp] theorem atEnd_clLen (s : State) : (s.atEnd).clLen = s.clLen := rfl
@[simp] theorem atEnd_tLL (s : State) : (s.atEnd).tLL = s.tLL := rfl
@[simp] theorem atEnd_tD (s : State) : (s.atEnd).tD = s.tD := rfl
@[simp] theorem atEnd_tCL (s : State) : (s.atEnd).tCL = s.tCL := rfl
@[simp] theorem atEnd_hlit (s : State) : (s.atEnd).hlit = s.hlit := rfl
@[simp] theorem atEnd_hdist (s : State) : (s.atEnd).hdist = s.hdist := rfl
@[simp] theorem atEnd_hclen (s : State) : (s.atEnd).hclen = s.hclen := rfl
@[simp] theorem atEnd_seq (s : State) : (s.atEnd).seq = s.seq := rfl
@[simp] theorem atEnd_seqIdx (s : State) : (s.atEnd).seqIdx = s.seqIdx := rfl
@[simp] theorem atEnd_seqTotal (s : State) : (s.atEnd).seqTotal = s.seqTotal := rfl
@[simp] theorem atEnd_storedLen (s : State) : (s.atEnd).storedLen = s.storedLen := rfl
@[simp] theorem atEnd_storedNlen (s : State) : (s.atEnd).storedNlen = s.storedNlen := rfl
@[simp] theorem atEnd_storedRem (s : State) : (s.atEnd).storedRem = s.storedRem := rfl
@[simp] theorem atEnd_matchLen (s : State) : (s.atEnd).matchLen = s.matchLen := rfl
@[simp] theorem atEnd_matchDist (s : State) : (s.atEnd).matchDist = s.matchDist := rfl
@[simp] theorem atEnd_copyRem (s : State) : (s.atEnd).copyRem = s.copyRem := rfl
@[simp] theorem atEnd_inMem (s : State) : (s.atEnd).inMem = s.inMem := rfl
@[simp] theorem atEnd_inLen (s : State) : (s.atEnd).inLen = s.inLen := rfl
@[simp] theorem atEnd_outMem (s : State) : (s.atEnd).outMem = s.outMem := rfl
@[simp] theorem atEnd_outLen (s : State) : (s.atEnd).outLen = s.outLen := rfl
@[simp] theorem atEnd_outCap (s : State) : (s.atEnd).outCap = s.outCap := rfl
@[simp] theorem atEnd_blockStep (s : State) : (s.atEnd).blockStep = s.blockStep := rfl
@[simp] theorem atEnd_errCode (s : State) : (s.atEnd).errCode = s.errCode := rfl
@[simp] theorem atEnd_errBitpos (s : State) : (s.atEnd).errBitpos = s.errBitpos := rfl
@[simp] theorem atEnd_errBlock (s : State) : (s.atEnd).errBlock = s.errBlock := rfl
@[simp] theorem atEnd_hostQueue (s : State) : (s.atEnd).hostQueue = s.hostQueue := rfl
@[simp] theorem atEnd_hostData (s : State) : (s.atEnd).hostData = s.hostData := rfl

/-- A fixed block's tables change nothing but the two tables (R282). -/
theorem setFixedTables_eq (s : State) :
    setFixedTables s = { s with llLen := tableOf 4 288 fixedLLLen, dLen := tableOf 4 32 fixedDLen } := by
  unfold setFixedTables; rfl

@[simp] theorem skip_zero (s : State) : s.skip 0 = s := by
  simp [State.skip]

theorem skip_skip (m n : Nat) (s : State) : (s.skip m).skip n = s.skip (m + n) := by
  simp [State.skip, BitVec.add_assoc, BitVec.ofNat_add]

end Sys2Proof.Machine
end

