-- ==== Sys2Proof/Laws/Ops.lean ====
section
/-! SUPPORT. What each shared operation can do, said once: the cases a caller has to look at. -/

namespace Sys2Proof.Machine

/-! ## Fields -/

theorem field_of_hasBits {n : Nat} {s : State} (h : s.bitpos.toNat + n ≤ 8 * s.inLen.toNat) (k : State → Result) :
    field n s k = k (s.skip n) := if_pos h

theorem field_of_short {n : Nat} {s : State} (h : 8 * s.inLen.toNat < s.bitpos.toNat + n) (k : State → Result) :
    field n s k = .next (raise .unexpectedEndOfStream s.atEnd) := if_neg (Nat.not_le.mpr h)

/-- A field that answers a next state was consumed, or ran out at the end of the input. -/
theorem field_cases {n : Nat} {s t : State} {k : State → Result} (h : field n s k = .next t) :
    (s.bitpos.toNat + n ≤ 8 * s.inLen.toNat ∧ k (s.skip n) = .next t) ∨
    (8 * s.inLen.toNat < s.bitpos.toNat + n ∧ t = raise .unexpectedEndOfStream s.atEnd) := by
  unfold field at h
  split at h
  next hb => exact .inl ⟨hb, h⟩
  next hb => exact .inr ⟨Nat.not_le.mp hb, (Host.Outcome.next.inj h).symm⟩

/-- A field never stops the machine by itself. -/
theorem field_fault {n : Nat} {s : State} {k : State → Result} {r : Fault} (h : field n s k = .fault r) :
    s.bitpos.toNat + n ≤ 8 * s.inLen.toNat ∧ k (s.skip n) = .fault r := by
  unfold field at h
  split at h
  next hb => exact ⟨hb, h⟩
  next => cases h

/-- Consuming bits that are there moves the cursor by their number. -/
theorem skip_bitpos_toNat {n : Nat} {s : State} (h : s.hasBits n) : (s.skip n).bitpos.toNat = s.bitpos.toNat + n := by
  simp only [skip_bitpos, BitVec.toNat_add, BitVec.toNat_ofNat]
  have := h.1
  have := h.2
  omega

theorem atEnd_bitpos_toNat {s : State} (h : 8 * s.inLen.toNat < 2 ^ 32) :
    s.atEnd.bitpos.toNat = 8 * s.inLen.toNat := by
  simp only [atEnd_bitpos, BitVec.toNat_ofNat]
  omega

theorem hasBits_skip {m n : Nat} {s : State} (h : s.hasBits (m + n)) : (s.skip m).hasBits n := by
  have h1 : (s.skip m).bitpos.toNat = s.bitpos.toNat + m :=
    skip_bitpos_toNat ⟨by have := h.1; omega, h.2⟩
  exact ⟨by rw [h1]; simpa [Nat.add_assoc] using h.1, h.2⟩

/-- `AlignByte` rounds the cursor up to a byte boundary and stays inside the input (R203). -/
theorem alignByte_bitpos_toNat {s : State} (h : s.cursorOk) :
    (alignByte s).bitpos.toNat = (s.bitpos.toNat + 7) / 8 * 8 := by
  have h1 := h.1
  have h2 := h.2
  have low : ∀ j : Fin 32, (~~~7#32).getLsbD j.val = decide (3 ≤ j.val) := by decide
  have e : (s.bitpos + 7#32) &&& ~~~7#32 = ((s.bitpos + 7#32) >>> 3) <<< 3 := by
    refine BitVec.eq_of_getLsbD_eq fun i hi => ?_
    rw [BitVec.getLsbD_and, low ⟨i, hi⟩, BitVec.getLsbD_shiftLeft, BitVec.getLsbD_ushiftRight]
    by_cases h3 : i < 3
    · simp [h3]
    · simp [h3, hi, show 3 + (i - 3) = i by omega, show 3 ≤ i by omega]
  rw [alignByte_bitpos, show (7 : Word) = 7#32 from rfl, e]
  simp only [BitVec.toNat_shiftLeft, BitVec.toNat_ushiftRight, BitVec.toNat_add, Nat.shiftRight_eq_div_pow,
    Nat.shiftLeft_eq, BitVec.toNat_ofNat]
  omega

/-! ## The output -/

theorem append_of_room {b : Byte} {s : State} (h : s.outLen ≠ s.outCap) (k : State → Result) :
    append b s k = k { s with outMem := Memory.write s.outLen.toNat b s.outMem, outLen := s.outLen + 1 } := if_neg h

theorem append_of_full {b : Byte} {s : State} (h : s.outLen = s.outCap) (k : State → Result) :
    append b s k = .next (raise .outputOverflow s) := if_pos h

theorem append_cases {b : Byte} {s t : State} {k : State → Result} (h : append b s k = .next t) :
    (s.outLen = s.outCap ∧ t = raise .outputOverflow s) ∨
    (s.outLen ≠ s.outCap ∧
      k { s with outMem := Memory.write s.outLen.toNat b s.outMem, outLen := s.outLen + 1 } = .next t) := by
  unfold append at h
  split at h
  next hc => exact .inl ⟨hc, (Host.Outcome.next.inj h).symm⟩
  next hc => exact .inr ⟨hc, h⟩

theorem append_fault {b : Byte} {s : State} {k : State → Result} {r : Fault} (h : append b s k = .fault r) :
    k { s with outMem := Memory.write s.outLen.toNat b s.outMem, outLen := s.outLen + 1 } = .fault r := by
  unfold append at h
  split at h
  next => cases h
  next => exact h

/-- `CopyStart` raises, or the distance lies in the output and the copy begins (R403). -/
theorem copyStart_cases (s : State) :
    ((s.matchDist.toNat < 1 ∨ s.outLen.toNat < s.matchDist.toNat) ∧ copyStart s = raise .invalidDistance s) ∨
    (1 ≤ s.matchDist.toNat ∧ s.matchDist.toNat ≤ s.outLen.toNat ∧
      copyStart s = { s with copyRem := s.matchLen, phase := .copy }) := by
  unfold copyStart
  split
  next h => exact .inl ⟨h, rfl⟩
  next h => exact .inr ⟨by omega, by omega, rfl⟩

/-! ## Trees -/

theorem buildThen_some {ls : List Nat} {t : Tree} (h : Huffman.build ls = some t) (s : State) (k : Tree → Result) :
    buildThen ls s k = k t := by simp [buildThen, h]

theorem buildThen_none {ls : List Nat} (h : Huffman.build ls = none) (s : State) (k : Tree → Result) :
    buildThen ls s k = .next (raise .invalidHuffmanTree s) := by simp [buildThen, h]

theorem buildThen_cases {ls : List Nat} {s t : State} {k : Tree → Result} (h : buildThen ls s k = .next t) :
    (∃ tree, Huffman.build ls = some tree ∧ k tree = .next t) ∨
    (Huffman.build ls = none ∧ t = raise .invalidHuffmanTree s) := by
  unfold buildThen at h
  split at h
  next tree ht => exact .inl ⟨tree, ht, h⟩
  next hn => exact .inr ⟨hn, (Host.Outcome.next.inj h).symm⟩

theorem buildThen_fault {ls : List Nat} {s : State} {k : Tree → Result} {r : Fault} (h : buildThen ls s k = .fault r) :
    ∃ tree, Huffman.build ls = some tree ∧ k tree = .fault r := by
  unfold buildThen at h
  split at h
  next tree ht => exact ⟨tree, ht, h⟩
  next => cases h

/-- `Decode`, where it answers a next state: the code was consumed, or no code was there. -/
theorem huff_cases {t : Tree} {s s' : State} {k : Nat → State → Result} (h : huff t s k = .next s') :
    (∃ sym n, Huffman.decode t (window s) = some (sym, n) ∧ field n s (k sym) = .next s') ∨
    (Huffman.decode t (window s) = none ∧
      field Config.maxBits s (fun s => .next (raise .invalidHuffmanCode s)) = .next s') := by
  unfold huff at h
  split at h
  next sym n hd => exact .inl ⟨sym, n, hd, h⟩
  next hd => exact .inr ⟨hd, h⟩

end Sys2Proof.Machine
end

