-- ==== Sys2Proof/Laws/PerInstr.lean ====
section
/-! SUPPORT. Per-instruction laws. Family `Rows`: the row that the decoder selects by an element's symbol, with the element's extra
field in front of any bits, is the element itself; an element without a symbol has no extra field. -/

namespace Sys2Proof

theorem bitsValue_testBit (bits : Bits) (k : Nat) : (bitsValue bits).testBit k = bits.getD k false := by
  induction bits generalizing k with
  | nil => simp [bitsValue]
  | cons b bits ih =>
    have hb := Bool.toNat_le b
    cases k with
    | zero => cases b <;> simp [bitsValue, Nat.testBit_zero, Nat.add_mod]
    | succ k => rw [Nat.testBit_succ, show bitsValue (b :: bits) / 2 = bitsValue bits by simp only [bitsValue]; omega, ih]; rfl

@[simp] theorem fieldBits_length {w : Nat} (v : BitVec w) : (fieldBits v).length = w := by simp [fieldBits]

/-- A field in front of any bits reads as its value (R107). -/
@[simp] theorem getField_fieldBits {w : Nat} (v : BitVec w) (rest : Bits) : getField w (fieldBits v ++ rest) = v := by
  refine BitVec.eq_of_getLsbD_eq fun i hi => ?_
  rw [getField, List.take_append_of_le_length (by simp), List.take_of_length_le (by simp), BitVec.getLsbD_ofNat,
    bitsValue_testBit]
  simp [fieldBits, hi]

namespace Laws.Rows

/-- What the family says of an element. -/
def Statement (i : Instr) : Prop :=
  match i.kind with
  | .clSymbol => ∀ rest, clRow (i.symbol.getD 0) (i.extraBits ++ rest) = i
  | .llSymbol => ∀ rest, llRow (i.symbol.getD 0) (i.extraBits ++ rest) = i
  | .dSymbol => ∀ rest, dRow (i.symbol.getD 0) (i.extraBits ++ rest) = i
  | .blockHdr | .storedHdr | .storedByte | .dynHdr => i.symbol = none ∧ i.extraBits = []

theorem stored (final : Bool) : Statement (.stored final) := ⟨rfl, rfl⟩
theorem fixed (final : Bool) : Statement (.fixed final) := ⟨rfl, rfl⟩
theorem dynamic (final : Bool) : Statement (.dynamic final) := ⟨rfl, rfl⟩
theorem reserved (final : Bool) : Statement (.reserved final) := ⟨rfl, rfl⟩
theorem storedHdr (len nlen : BitVec 16) : Statement (.storedHdr len nlen) := ⟨rfl, rfl⟩
theorem storedByte (data : Byte) : Statement (.storedByte data) := ⟨rfl, rfl⟩
theorem dynHdr (hlit hdist : BitVec 5) (hclen : BitVec 4) (lens : List (BitVec 3)) : Statement (.dynHdr hlit hdist hclen lens) := ⟨rfl, rfl⟩
theorem clLen (v : BitVec 4) : Statement (.clLen v) := fun rest =>
  (if_pos (Nat.le_of_lt_succ v.isLt) : clRow v.toNat rest = .clLen (BitVec.ofNat 4 v.toNat)).trans
    (congrArg Instr.clLen (by simp))
theorem clRep16 (extra : BitVec 2) : Statement (.clRep16 extra) := fun rest => congrArg Instr.clRep16 (getField_fieldBits extra rest)
theorem clZero17 (extra : BitVec 3) : Statement (.clZero17 extra) := fun rest => congrArg Instr.clZero17 (getField_fieldBits extra rest)
theorem clZero18 (extra : BitVec 7) : Statement (.clZero18 extra) := fun rest => congrArg Instr.clZero18 (getField_fieldBits extra rest)
theorem lit (b : Byte) : Statement (.lit b) := fun rest =>
  (if_pos b.isLt : llRow b.toNat rest = .lit (BitVec.ofNat 8 b.toNat)).trans (congrArg Instr.lit (by simp))
theorem eob : Statement .eob := fun _ => rfl
theorem len257 : Statement .len257 := fun _ => rfl
theorem len258 : Statement .len258 := fun _ => rfl
theorem len259 : Statement .len259 := fun _ => rfl
theorem len260 : Statement .len260 := fun _ => rfl
theorem len261 : Statement .len261 := fun _ => rfl
theorem len262 : Statement .len262 := fun _ => rfl
theorem len263 : Statement .len263 := fun _ => rfl
theorem len264 : Statement .len264 := fun _ => rfl
theorem len265 (extra : BitVec 1) : Statement (.len265 extra) := fun rest => congrArg Instr.len265 (getField_fieldBits extra rest)
theorem len266 (extra : BitVec 1) : Statement (.len266 extra) := fun rest => congrArg Instr.len266 (getField_fieldBits extra rest)
theorem len267 (extra : BitVec 1) : Statement (.len267 extra) := fun rest => congrArg Instr.len267 (getField_fieldBits extra rest)
theorem len268 (extra : BitVec 1) : Statement (.len268 extra) := fun rest => congrArg Instr.len268 (getField_fieldBits extra rest)
theorem len269 (extra : BitVec 2) : Statement (.len269 extra) := fun rest => congrArg Instr.len269 (getField_fieldBits extra rest)
theorem len270 (extra : BitVec 2) : Statement (.len270 extra) := fun rest => congrArg Instr.len270 (getField_fieldBits extra rest)
theorem len271 (extra : BitVec 2) : Statement (.len271 extra) := fun rest => congrArg Instr.len271 (getField_fieldBits extra rest)
theorem len272 (extra : BitVec 2) : Statement (.len272 extra) := fun rest => congrArg Instr.len272 (getField_fieldBits extra rest)
theorem len273 (extra : BitVec 3) : Statement (.len273 extra) := fun rest => congrArg Instr.len273 (getField_fieldBits extra rest)
theorem len274 (extra : BitVec 3) : Statement (.len274 extra) := fun rest => congrArg Instr.len274 (getField_fieldBits extra rest)
theorem len275 (extra : BitVec 3) : Statement (.len275 extra) := fun rest => congrArg Instr.len275 (getField_fieldBits extra rest)
theorem len276 (extra : BitVec 3) : Statement (.len276 extra) := fun rest => congrArg Instr.len276 (getField_fieldBits extra rest)
theorem len277 (extra : BitVec 4) : Statement (.len277 extra) := fun rest => congrArg Instr.len277 (getField_fieldBits extra rest)
theorem len278 (extra : BitVec 4) : Statement (.len278 extra) := fun rest => congrArg Instr.len278 (getField_fieldBits extra rest)
theorem len279 (extra : BitVec 4) : Statement (.len279 extra) := fun rest => congrArg Instr.len279 (getField_fieldBits extra rest)
theorem len280 (extra : BitVec 4) : Statement (.len280 extra) := fun rest => congrArg Instr.len280 (getField_fieldBits extra rest)
theorem len281 (extra : BitVec 5) : Statement (.len281 extra) := fun rest => congrArg Instr.len281 (getField_fieldBits extra rest)
theorem len282 (extra : BitVec 5) : Statement (.len282 extra) := fun rest => congrArg Instr.len282 (getField_fieldBits extra rest)
theorem len283 (extra : BitVec 5) : Statement (.len283 extra) := fun rest => congrArg Instr.len283 (getField_fieldBits extra rest)
theorem len284 (extra : BitVec 5) : Statement (.len284 extra) := fun rest => congrArg Instr.len284 (getField_fieldBits extra rest)
theorem len285 : Statement .len285 := fun _ => rfl
theorem llInvalid286 : Statement .llInvalid286 := fun _ => rfl
theorem llInvalid287 : Statement .llInvalid287 := fun _ => rfl
theorem dist0 : Statement .dist0 := fun _ => rfl
theorem dist1 : Statement .dist1 := fun _ => rfl
theorem dist2 : Statement .dist2 := fun _ => rfl
theorem dist3 : Statement .dist3 := fun _ => rfl
theorem dist4 (extra : BitVec 1) : Statement (.dist4 extra) := fun rest => congrArg Instr.dist4 (getField_fieldBits extra rest)
theorem dist5 (extra : BitVec 1) : Statement (.dist5 extra) := fun rest => congrArg Instr.dist5 (getField_fieldBits extra rest)
theorem dist6 (extra : BitVec 2) : Statement (.dist6 extra) := fun rest => congrArg Instr.dist6 (getField_fieldBits extra rest)
theorem dist7 (extra : BitVec 2) : Statement (.dist7 extra) := fun rest => congrArg Instr.dist7 (getField_fieldBits extra rest)
theorem dist8 (extra : BitVec 3) : Statement (.dist8 extra) := fun rest => congrArg Instr.dist8 (getField_fieldBits extra rest)
theorem dist9 (extra : BitVec 3) : Statement (.dist9 extra) := fun rest => congrArg Instr.dist9 (getField_fieldBits extra rest)
theorem dist10 (extra : BitVec 4) : Statement (.dist10 extra) := fun rest => congrArg Instr.dist10 (getField_fieldBits extra rest)
theorem dist11 (extra : BitVec 4) : Statement (.dist11 extra) := fun rest => congrArg Instr.dist11 (getField_fieldBits extra rest)
theorem dist12 (extra : BitVec 5) : Statement (.dist12 extra) := fun rest => congrArg Instr.dist12 (getField_fieldBits extra rest)
theorem dist13 (extra : BitVec 5) : Statement (.dist13 extra) := fun rest => congrArg Instr.dist13 (getField_fieldBits extra rest)
theorem dist14 (extra : BitVec 6) : Statement (.dist14 extra) := fun rest => congrArg Instr.dist14 (getField_fieldBits extra rest)
theorem dist15 (extra : BitVec 6) : Statement (.dist15 extra) := fun rest => congrArg Instr.dist15 (getField_fieldBits extra rest)
theorem dist16 (extra : BitVec 7) : Statement (.dist16 extra) := fun rest => congrArg Instr.dist16 (getField_fieldBits extra rest)
theorem dist17 (extra : BitVec 7) : Statement (.dist17 extra) := fun rest => congrArg Instr.dist17 (getField_fieldBits extra rest)
theorem dist18 (extra : BitVec 8) : Statement (.dist18 extra) := fun rest => congrArg Instr.dist18 (getField_fieldBits extra rest)
theorem dist19 (extra : BitVec 8) : Statement (.dist19 extra) := fun rest => congrArg Instr.dist19 (getField_fieldBits extra rest)
theorem dist20 (extra : BitVec 9) : Statement (.dist20 extra) := fun rest => congrArg Instr.dist20 (getField_fieldBits extra rest)
theorem dist21 (extra : BitVec 9) : Statement (.dist21 extra) := fun rest => congrArg Instr.dist21 (getField_fieldBits extra rest)
theorem dist22 (extra : BitVec 10) : Statement (.dist22 extra) := fun rest => congrArg Instr.dist22 (getField_fieldBits extra rest)
theorem dist23 (extra : BitVec 10) : Statement (.dist23 extra) := fun rest => congrArg Instr.dist23 (getField_fieldBits extra rest)
theorem dist24 (extra : BitVec 11) : Statement (.dist24 extra) := fun rest => congrArg Instr.dist24 (getField_fieldBits extra rest)
theorem dist25 (extra : BitVec 11) : Statement (.dist25 extra) := fun rest => congrArg Instr.dist25 (getField_fieldBits extra rest)
theorem dist26 (extra : BitVec 12) : Statement (.dist26 extra) := fun rest => congrArg Instr.dist26 (getField_fieldBits extra rest)
theorem dist27 (extra : BitVec 12) : Statement (.dist27 extra) := fun rest => congrArg Instr.dist27 (getField_fieldBits extra rest)
theorem dist28 (extra : BitVec 13) : Statement (.dist28 extra) := fun rest => congrArg Instr.dist28 (getField_fieldBits extra rest)
theorem dist29 (extra : BitVec 13) : Statement (.dist29 extra) := fun rest => congrArg Instr.dist29 (getField_fieldBits extra rest)
theorem dInvalid30 : Statement .dInvalid30 := fun _ => rfl
theorem dInvalid31 : Statement .dInvalid31 := fun _ => rfl

end Laws.Rows
end Sys2Proof
end

