-- ==== Sys2Proof/Laws/Rows.lean ====
section
/-! SUPPORT. The 59 length and distance rows by their operands: each is the shared row operation with its base and its extra
field (R320, R360). -/

namespace Sys2Proof.Machine

/-- A length row is `lengthRow` with some base and its extra field, and its length is their sum (R320, R352). -/
theorem exec_length {i : Instr} {len w : Nat} (h : lengthOperand i = some (len, w)) :
    ∃ (base : Nat) (e : BitVec w), len = base + e.toNat ∧ ∀ s, exec i s = lengthRow base e s := by
  cases i <;> simp only [lengthOperand, Option.some.injEq, Prod.mk.injEq, reduceCtorEq] at h
  all_goals
    obtain ⟨rfl, rfl⟩ := h
    exact ⟨_, _, rfl, fun s => rfl⟩

/-- A distance row is `distRow` with some base and its extra field, and its distance is their sum (R360, R393). -/
theorem exec_distance {i : Instr} {d w : Nat} (h : distanceOperand i = some (d, w)) :
    ∃ (base : Nat) (e : BitVec w), d = base + e.toNat ∧ ∀ s, exec i s = distRow base e s := by
  cases i <;> simp only [distanceOperand, Option.some.injEq, Prod.mk.injEq, reduceCtorEq] at h
  all_goals
    obtain ⟨rfl, rfl⟩ := h
    exact ⟨_, _, rfl, fun s => rfl⟩

/-- The distance symbol's dispatch runs the row the decoder selects (R360). -/
theorem distanceSymbol_eq (sym : Nat) (s : State) : distanceSymbol sym s = exec (dRow sym (window s)) s := by
  by_cases h : sym < 31
  · interval_cases sym <;> rfl
  · obtain ⟨k, rfl⟩ : ∃ k, sym = k + 31 := ⟨sym - 31, by omega⟩
    rfl

end Sys2Proof.Machine
end

