-- ==== Sys2Proof/Laws/Stream.lean ====
section
/-! SUPPORT. The bits that come next: what the rest of the input and the machine's look-ahead hold, and that they agree (log 7). -/

namespace Sys2Proof

theorem bitsOfByte_getElem? (b : Byte) (k : Nat) : (bitsOfByte b)[k]? = if k < 8 then some (b.getLsbD k) else none := by
  unfold bitsOfByte
  split
  next h => simp [List.getElem?_range h]
  next h => simp [Nat.le_of_not_lt h]

@[simp] theorem bitsOfByte_length (b : Byte) : (bitsOfByte b).length = 8 := by simp [bitsOfByte]

@[simp] theorem bitsOfBytes_length (bs : List Byte) : (bitsOfBytes bs).length = 8 * bs.length := by
  simp [bitsOfBytes, List.length_flatMap, Nat.mul_comm]

/-- Bit `k` of the stream is bit `k & 7` of byte `k >> 3` (R106). -/
theorem bitsOfBytes_getElem? (bs : List Byte) (k : Nat) :
    (bitsOfBytes bs)[k]? = bs[k / 8]?.map fun b => b.getLsbD (k % 8) := by
  induction bs generalizing k with
  | nil => simp [bitsOfBytes]
  | cons b bs ih =>
    rw [show bitsOfBytes (b :: bs) = bitsOfByte b ++ bitsOfBytes bs from rfl, List.getElem?_append, bitsOfByte_length]
    split
    next h =>
      rw [bitsOfByte_getElem?, if_pos h, show k / 8 = 0 by omega, Nat.mod_eq_of_lt h]
      rfl
    next h =>
      rw [ih, show k / 8 = (k - 8) / 8 + 1 by omega, show k % 8 = (k - 8) % 8 by omega]
      rfl

@[simp] theorem bitsValue_append_zeros (bits : Bits) (n : Nat) :
    bitsValue (bits ++ List.replicate n false) = bitsValue bits := by
  induction bits with
  | nil =>
    induction n with
    | zero => rfl
    | succ n ih => simpa [List.replicate_succ, bitsValue] using ih
  | cons b bits ih => simp [bitsValue, ih]

namespace Machine

/-- Bit `k` of the input, counted from `BITPOS`. -/
theorem remaining_getElem? (s : State) (k : Nat) :
    (remaining s)[k]? = if s.bitpos.toNat + k < 8 * s.inLen.toNat then
      some ((Memory.read s.inMem ((s.bitpos.toNat + k) / 8)).getLsbD ((s.bitpos.toNat + k) % 8)) else none := by
  unfold remaining
  rw [List.getElem?_drop, bitsOfBytes_getElem?, List.getElem?_map]
  split
  next h => rw [List.getElem?_range (by omega)]; rfl
  next h => rw [List.getElem?_eq_none (by simp; omega)]; rfl

@[simp] theorem remaining_length (s : State) : (remaining s).length = 8 * s.inLen.toNat - s.bitpos.toNat := by
  simp [remaining]

/-- What stands before the rest of the input is consumed bit by bit. -/
theorem remaining_skip {n : Nat} {s : State} (h : s.hasBits n) : remaining (s.skip n) = (remaining s).drop n := by
  unfold remaining
  rw [skip_bitpos_toNat h, List.drop_drop]
  rfl

theorem window_length (s : State) : (window s).length = 80 - s.bitpos.toNat % 8 := by
  simp [window]

theorem window_getElem? (s : State) (k : Nat) (h : k < 73) :
    (window s)[k]? = some ((inByte s ((s.bitpos.toNat + k) / 8)).getLsbD ((s.bitpos.toNat + k) % 8)) := by
  unfold window
  rw [List.getElem?_drop, bitsOfBytes_getElem?, List.getElem?_map, List.getElem?_range (by omega)]
  simp only [Option.map_some]
  rw [show s.bitpos.toNat / 8 + (s.bitpos.toNat % 8 + k) / 8 = (s.bitpos.toNat + k) / 8 by omega,
    show (s.bitpos.toNat % 8 + k) % 8 = (s.bitpos.toNat + k) % 8 by omega]

/-- The look-ahead is the rest of the input, then zeros (log 7). -/
theorem window_take (s : State) {n : Nat} (h : n ≤ 73) :
    (window s).take n = (remaining s ++ List.replicate n false).take n := by
  apply List.ext_getElem?
  intro k
  rw [List.getElem?_take, List.getElem?_take]
  split
  next hk =>
    rw [window_getElem? s k (by omega), List.getElem?_append, remaining_length, remaining_getElem?]
    unfold inByte
    by_cases hb : s.bitpos.toNat + k < 8 * s.inLen.toNat
    · rw [if_pos (by omega), if_pos (by omega), if_pos hb]
    · rw [if_neg (by omega), if_neg (by omega), List.getElem?_replicate, if_pos (by omega)]
      simp
  next => rfl

/-- As far as the input goes, the look-ahead is the rest of the input. -/
theorem window_take_of_le (s : State) {n : Nat} (h : n ≤ 73) (hn : n ≤ (remaining s).length) :
    (window s).take n = (remaining s).take n := by
  rw [window_take s h, List.take_append_of_le_length hn]

/-- A field is the same read ahead and read from the rest of the input (R107). -/
theorem getField_window (s : State) {w : Nat} (h : w ≤ 73) : getField w (window s) = getField w (remaining s) := by
  unfold getField
  rw [window_take s h, List.take_append, List.take_replicate, bitsValue_append_zeros]

end Machine

namespace Huffman

/-- A walk sees no more than its fuel of the bits. -/
theorem walk_take (t : Tree) (fuel len c n : Nat) (bits : Bits) (h : fuel ≤ n) :
    walk t fuel len c (bits.take n) = walk t fuel len c bits := by
  induction fuel generalizing len c n bits with
  | zero => rfl
  | succ fuel ih =>
    cases n with
    | zero => omega
    | succ n =>
      cases bits with
      | nil => rfl
      | cons b bs =>
        rw [List.take_succ_cons]
        unfold walk
        rw [ih _ _ _ _ (by omega)]

/-- More bits behind do not change a walk that ends before them. -/
theorem walk_append (t : Tree) (fuel len c : Nat) (bits more : Bits) :
    (∀ r, walk t fuel len c bits = some r → walk t fuel len c (bits ++ more) = some r) ∧
    (∀ sym n, walk t fuel len c bits = none → walk t fuel len c (bits ++ more) = some (sym, n) →
      len + bits.length < n) := by
  induction fuel generalizing len c bits with
  | zero => exact ⟨fun r h => by simp [walk] at h, fun sym n _ h => by simp [walk] at h⟩
  | succ fuel ih =>
    cases bits with
    | nil =>
      refine ⟨fun r h => by simp [walk] at h, fun sym n _ h => ?_⟩
      have := walk_bounds t _ _ _ _ _ _ h
      simpa using this.1
    | cons b bs =>
      rw [List.cons_append]
      unfold walk
      split
      next => exact ⟨fun r h => h, fun sym n h => by simp at h⟩
      next =>
        obtain ⟨h1, h2⟩ := ih (len + 1) (2 * c + b.toNat) bs
        refine ⟨h1, fun sym n hn hs => ?_⟩
        have := h2 sym n hn hs
        simp only [List.length_cons]
        omega

/-- What `Decode` finds in some bits it finds with more bits behind them; where it finds nothing, more bits can only give a code
that reaches into them. -/
theorem decode_append (t : Tree) (bits more : Bits) :
    (∀ r, decode t bits = some r → decode t (bits ++ more) = some r) ∧
    (∀ sym n, decode t bits = none → decode t (bits ++ more) = some (sym, n) → bits.length < n) := by
  unfold decode
  split
  next c hc =>
    split
    next hl => exact ⟨fun r h => by rw [if_pos (by simp; omega)]; exact h, fun sym n h => by cases h⟩
    next hl =>
      refine ⟨fun r h => (by cases h), fun sym n _ h => ?_⟩
      split at h
      next hl2 =>
        obtain ⟨-, rfl⟩ : c.sym = sym ∧ c.len = n := by simpa using h
        omega
      next => cases h
  next =>
    obtain ⟨h1, h2⟩ := walk_append t Config.maxBits 0 0 bits more
    exact ⟨h1, fun sym n hn hs => by have := h2 sym n hn hs; omega⟩

/-- `Decode` sees no more than 15 bits (R225, R226). -/
theorem decode_take {t : Tree} (ht : t.wf) (bits : Bits) {n : Nat} (h : Config.maxBits ≤ n) :
    decode t (bits.take n) = decode t bits := by
  unfold decode
  split
  next c hc =>
    have := (ht c (by simp [hc])).2
    by_cases hl : c.len ≤ bits.length
    · rw [if_pos hl, if_pos (by rw [List.length_take]; omega)]
    · rw [if_neg hl, if_neg (by rw [List.length_take]; omega)]
  next => exact walk_take t _ 0 0 n bits h

end Huffman

namespace Machine

/-- `Decode` on the look-ahead is `Decode` on the rest of the input padded with zeros. -/
theorem decode_window {t : Tree} (ht : t.wf) (s : State) :
    Huffman.decode t (window s) = Huffman.decode t (remaining s ++ List.replicate 15 false) := by
  rw [← Huffman.decode_take ht (window s) (Nat.le_refl _), ← Huffman.decode_take ht (remaining s ++ _) (Nat.le_refl _)]
  rw [window_take s (by decide)]
  rfl

/-- A code that stands in the input is consumed and the rest of the step goes on behind it. -/
theorem huff_of_decode {t : Tree} (ht : t.wf) {s : State} (hs : s.cursorOk) {sym n : Nat}
    (h : Huffman.decode t (remaining s) = some (sym, n)) (k : Nat → State → Result) :
    huff t s k = k sym (s.skip n) := by
  unfold huff
  rw [decode_window ht, (Huffman.decode_append t _ _).1 _ h]
  have := Huffman.decode_bounds ht h
  have := hs.1
  rw [remaining_length] at *
  exact field_of_hasBits (by omega) _

/-- Where no code stands in the input, 15 bits are consumed and `InvalidHuffmanCode` is raised, or the input ends first. -/
theorem huff_of_none {t : Tree} (ht : t.wf) {s : State} (hs : s.cursorOk) (h : Huffman.decode t (remaining s) = none)
    (k : Nat → State → Result) :
    huff t s k = if s.bitpos.toNat + 15 ≤ 8 * s.inLen.toNat then .next (raise .invalidHuffmanCode (s.skip 15))
      else .next (raise .unexpectedEndOfStream s.atEnd) := by
  unfold huff
  rw [decode_window ht]
  have hlen := remaining_length s
  split
  next sym n hd =>
    have h1 := (Huffman.decode_append t _ _).2 _ _ h hd
    have h2 := (Huffman.decode_bounds ht hd).2.1
    have : Config.maxBits = 15 := rfl
    have := hs.1
    rw [if_neg (by omega)]
    exact field_of_short (by omega) _
  next =>
    split
    next hb => exact field_of_hasBits hb _
    next hb => exact field_of_short (by show _ < _ + 15; omega) _

end Machine
end Sys2Proof
end

