-- ==== Sys2Proof/Laws/Table.lean ====
section
/-! SUPPORT. The laws of a table: reading an entry after a write, after a fill, and of a table given by a function. -/

namespace Sys2Proof.Machine

theorem tableGet_eq {w n : Nat} (t : Vector (BitVec w) n) (i : Nat) (h : i < n) : tableGet t i = t[i] := by
  simp [tableGet, List.getD_eq_getElem?_getD, h]

theorem tableGet_beyond {w n : Nat} (t : Vector (BitVec w) n) (i : Nat) (h : n ≤ i) : tableGet t i = 0 := by
  simp [tableGet, List.getD_eq_getElem?_getD, h]

theorem tableGet_tableOf (w n : Nat) (f : Nat → BitVec w) (i : Nat) :
    tableGet (tableOf w n f) i = if i < n then f i else 0 := by
  by_cases h : i < n
  · rw [tableGet_eq _ _ h, if_pos h]; simp [tableOf]
  · rw [tableGet_beyond _ _ (by omega), if_neg h]

theorem tableGet_tableSet {w n : Nat} (t : Vector (BitVec w) n) (i : Nat) (v : BitVec w) (j : Nat) :
    tableGet (tableSet t i v) j = if j = i ∧ i < n then v else tableGet t j := by
  by_cases hj : j < n
  · rw [tableGet_eq _ _ hj, tableGet_eq _ _ hj]
    simp only [tableSet, Vector.getElem_setIfInBounds hj]
    by_cases hij : i = j
    · subst hij; simp [hj]
    · simp [hij, Ne.symm hij]
  · rw [tableGet_beyond _ _ (by omega), tableGet_beyond _ _ (by omega), if_neg (by omega)]

/-- A fill of `r` entries from `i`: those entries hold the value, every other entry what it held. -/
theorem tableGet_tableFill {w n : Nat} (r : Nat) (t : Vector (BitVec w) n) (i : Nat) (v : BitVec w) (h : i + r ≤ n)
    (j : Nat) : tableGet (tableFill t i v r) j = if i ≤ j ∧ j < i + r then v else tableGet t j := by
  induction r generalizing t i with
  | zero => rw [tableFill, if_neg (by omega)]
  | succ r ih =>
    rw [tableFill, ih _ _ (by omega), tableGet_tableSet]
    by_cases h1 : i + 1 ≤ j ∧ j < i + 1 + r
    · rw [if_pos h1, if_pos (by omega)]
    · rw [if_neg h1]
      by_cases h2 : j = i
      · rw [if_pos ⟨h2, by omega⟩, if_pos (by omega)]
      · rw [if_neg (fun h => h2 h.1), if_neg (by omega)]

theorem tableLengths_length {w n : Nat} (t : Vector (BitVec w) n) (k : Nat) (h : k ≤ n) :
    (tableLengths t k).length = k := by
  simp [tableLengths, h]

/-- The entries of a length table are what a table of 4 bits can hold. -/
theorem tableLengths_le {n : Nat} (t : Vector (BitVec 4) n) (k : Nat) : ∀ l ∈ tableLengths t k, l ≤ 15 := by
  intro l hl
  obtain ⟨v, _, rfl⟩ := List.mem_map.mp hl
  have := v.isLt
  omega

theorem tableLengths_le7 {n : Nat} (t : Vector (BitVec 3) n) (k : Nat) : ∀ l ∈ tableLengths t k, l ≤ 15 := by
  intro l hl
  obtain ⟨v, _, rfl⟩ := List.mem_map.mp hl
  have := v.isLt
  omega

end Sys2Proof.Machine
end

