-- ==== Sys2Proof/Tests/Slice0.lean ====
section
/-! SUPPORT. The model's own tests: ill-formed terms, words of the spec decoded, single steps of the spec's examples, and for each
obligation with hypotheses a concrete state and operands that meet them (one for each clause, at a boundary). -/

set_option Elab.async false
open Sys2Proof Sys2Proof.Machine

namespace Sys2Proof.Tests

/-! ## Ill-formed elements -/

/-- HCLEN = 0 stands for four lengths (R144): three are refused, four pass. -/
theorem test_wellFormed_dynHdr_three : Instr.wellFormed (.dynHdr 0 0 0 [0, 0, 0]) = false := by decide

theorem test_wellFormed_dynHdr_four : Instr.wellFormed (.dynHdr 0 0 0 [0, 0, 0, 0]) = true := by decide

/-! ## Words of the spec -/

/-- Bits in the order the engine reads them, first-read bit on the left (R8). -/
def rd (l : List Nat) : Bits := l.map (· == 1)

/-- The fixed literal/length tree (R230). -/
def fixedLL : Sys2Proof.Tree :=
  (Huffman.build (List.replicate 144 8 ++ List.replicate 112 9 ++ List.replicate 24 7 ++ List.replicate 8 8)).getD ⟨[]⟩

/-- The fixed distance tree (R231). -/
def fixedD : Sys2Proof.Tree := (Huffman.build (List.replicate 30 5)).getD ⟨[]⟩

/-- `T_CL` of the example of R252: 18 → `0`, 1 → `10`, 2 → `11`. -/
def exampleCL : Sys2Proof.Tree := (Huffman.build ([0, 2, 2] ++ List.replicate 15 0 ++ [1])).getD ⟨[]⟩

/-- The four block types (R151): BFINAL, then BTYPE with its low bit first. -/
theorem test_decode_block_headers :
    decode .blockHdr (rd [0, 0, 0]) = .ok (.stored false, []) ∧ decode .blockHdr (rd [1, 1, 0]) = .ok (.fixed true, []) ∧
    decode .blockHdr (rd [0, 0, 1]) = .ok (.dynamic false, []) ∧ decode .blockHdr (rd [1, 1, 1]) = .ok (.reserved true, []) := by
  decide

/-- `01 00 00 FF FF` and `01 05 00 FA FF` (R142, R109), and one stored byte (R286). -/
theorem test_decode_stored :
    decodeBytes (.storedHdr 5) 3 [0x01, 0x00, 0x00, 0xFF, 0xFF] = .ok (.storedHdr 0x0000 0xFFFF, []) ∧
    decodeBytes (.storedHdr 5) 3 [0x01, 0x05, 0x00, 0xFA, 0xFF] = .ok (.storedHdr 0x0005 0xFFFA, []) ∧
    decodeBytes .storedByte 0 [0x41] = .ok (.storedByte 0x41, []) := by decide +kernel

/-- The example of R250 (HLIT 1, HDIST 0, HCLEN 14), its first 3-bit field 1, 0, 0 read as 1 (R107). -/
theorem test_decode_dynamic_header :
    decode .dynHdr (rd ([1, 0, 0, 0, 0] ++ [0, 0, 0, 0, 0] ++ [0, 1, 1, 1] ++ [1, 0, 0] ++ List.replicate 51 0)) =
      .ok (.dynHdr 1 0 14 (1 :: List.replicate 17 0), []) := by decide +kernel

/-- The tree of R252 and the examples of R254, R257 (count 138 is extra 127); symbols 16 and 17 in a tree of their own. -/
theorem test_decode_code_lengths :
    decode (.clSymbol exampleCL) (rd [1, 1]) = .ok (.clLen 2, []) ∧
    decode (.clSymbol exampleCL) (rd [1, 0]) = .ok (.clLen 1, []) ∧
    decode (.clSymbol exampleCL) (rd [0, 1, 1, 1, 1, 1, 1, 1]) = .ok (.clZero18 127, []) ∧
    decode (.clSymbol ⟨[⟨1, 0, 16⟩, ⟨1, 1, 17⟩]⟩) (rd [0, 1, 0]) = .ok (.clRep16 1, []) ∧
    decode (.clSymbol ⟨[⟨1, 0, 16⟩, ⟨1, 1, 17⟩]⟩) (rd [1, 1, 1, 1]) = .ok (.clZero17 7, []) := by decide +kernel

/-- Fixed-tree codes of R155 and R289: the literals at the ends of the two ranges, and the end of block. -/
theorem test_decode_literals :
    ([([0, 0, 1, 1, 0, 0, 0, 0], .lit 0x00),
      ([1, 0, 1, 1, 1, 1, 1, 1], .lit 143),
      ([1, 1, 0, 0, 1, 0, 0, 0, 0], .lit 144),
      ([1, 1, 1, 1, 1, 1, 1, 1, 1], .lit 255),
      ([0, 0, 0, 0, 0, 0, 0], .eob)] : List (List Nat × Instr)).all
      (fun p => decode (.llSymbol fixedLL) (rd p.1) = .ok (p.2, [])) = true := by decide +kernel

/-- Fixed-tree codes of R321–R335, each with the first extra bit 1 and the others 0. -/
theorem test_decode_lengths_257_271 :
    ([([0, 0, 0, 0, 0, 0, 1], .len257),
      ([0, 0, 0, 0, 0, 1, 0], .len258),
      ([0, 0, 0, 0, 0, 1, 1], .len259),
      ([0, 0, 0, 0, 1, 0, 0], .len260),
      ([0, 0, 0, 0, 1, 0, 1], .len261),
      ([0, 0, 0, 0, 1, 1, 0], .len262),
      ([0, 0, 0, 0, 1, 1, 1], .len263),
      ([0, 0, 0, 1, 0, 0, 0], .len264),
      ([0, 0, 0, 1, 0, 0, 1, 1], .len265 1),
      ([0, 0, 0, 1, 0, 1, 0, 1], .len266 1),
      ([0, 0, 0, 1, 0, 1, 1, 1], .len267 1),
      ([0, 0, 0, 1, 1, 0, 0, 1], .len268 1),
      ([0, 0, 0, 1, 1, 0, 1, 1, 0], .len269 1),
      ([0, 0, 0, 1, 1, 1, 0, 1, 0], .len270 1),
      ([0, 0, 0, 1, 1, 1, 1, 1, 0], .len271 1)] : List (List Nat × Instr)).all
      (fun p => decode (.llSymbol fixedLL) (rd p.1) = .ok (p.2, [])) = true := by decide +kernel

/-- Fixed-tree codes of R336–R351. -/
theorem test_decode_lengths_272_287 :
    ([([0, 0, 1, 0, 0, 0, 0, 1, 0], .len272 1),
      ([0, 0, 1, 0, 0, 0, 1, 1, 0, 0], .len273 1),
      ([0, 0, 1, 0, 0, 1, 0, 1, 0, 0], .len274 1),
      ([0, 0, 1, 0, 0, 1, 1, 1, 0, 0], .len275 1),
      ([0, 0, 1, 0, 1, 0, 0, 1, 0, 0], .len276 1),
      ([0, 0, 1, 0, 1, 0, 1, 1, 0, 0, 0], .len277 1),
      ([0, 0, 1, 0, 1, 1, 0, 1, 0, 0, 0], .len278 1),
      ([0, 0, 1, 0, 1, 1, 1, 1, 0, 0, 0], .len279 1),
      ([1, 1, 0, 0, 0, 0, 0, 0, 1, 0, 0, 0], .len280 1),
      ([1, 1, 0, 0, 0, 0, 0, 1, 1, 0, 0, 0, 0], .len281 1),
      ([1, 1, 0, 0, 0, 0, 1, 0, 1, 0, 0, 0, 0], .len282 1),
      ([1, 1, 0, 0, 0, 0, 1, 1, 1, 0, 0, 0, 0], .len283 1),
      ([1, 1, 0, 0, 0, 1, 0, 0, 1, 0, 0, 0, 0], .len284 1),
      ([1, 1, 0, 0, 0, 1, 0, 1], .len285),
      ([1, 1, 0, 0, 0, 1, 1, 0], .llInvalid286),
      ([1, 1, 0, 0, 0, 1, 1, 1], .llInvalid287)] : List (List Nat × Instr)).all
      (fun p => decode (.llSymbol fixedLL) (rd p.1) = .ok (p.2, [])) = true := by decide +kernel

/-- Fixed-tree codes of R361–R375 (R156), each with the first extra bit 1 and the others 0. -/
theorem test_decode_distances_0_14 :
    ([([0, 0, 0, 0, 0], .dist0),
      ([0, 0, 0, 0, 1], .dist1),
      ([0, 0, 0, 1, 0], .dist2),
      ([0, 0, 0, 1, 1], .dist3),
      ([0, 0, 1, 0, 0, 1], .dist4 1),
      ([0, 0, 1, 0, 1, 1], .dist5 1),
      ([0, 0, 1, 1, 0, 1, 0], .dist6 1),
      ([0, 0, 1, 1, 1, 1, 0], .dist7 1),
      ([0, 1, 0, 0, 0, 1, 0, 0], .dist8 1),
      ([0, 1, 0, 0, 1, 1, 0, 0], .dist9 1),
      ([0, 1, 0, 1, 0, 1, 0, 0, 0], .dist10 1),
      ([0, 1, 0, 1, 1, 1, 0, 0, 0], .dist11 1),
      ([0, 1, 1, 0, 0, 1, 0, 0, 0, 0], .dist12 1),
      ([0, 1, 1, 0, 1, 1, 0, 0, 0, 0], .dist13 1),
      ([0, 1, 1, 1, 0, 1, 0, 0, 0, 0, 0], .dist14 1)] : List (List Nat × Instr)).all
      (fun p => decode (.dSymbol fixedD) (rd p.1) = .ok (p.2, [])) = true := by decide +kernel

/-- Fixed-tree codes of R376–R390. -/
theorem test_decode_distances_15_29 :
    ([([0, 1, 1, 1, 1, 1, 0, 0, 0, 0, 0], .dist15 1),
      ([1, 0, 0, 0, 0, 1, 0, 0, 0, 0, 0, 0], .dist16 1),
      ([1, 0, 0, 0, 1, 1, 0, 0, 0, 0, 0, 0], .dist17 1),
      ([1, 0, 0, 1, 0, 1, 0, 0, 0, 0, 0, 0, 0], .dist18 1),
      ([1, 0, 0, 1, 1, 1, 0, 0, 0, 0, 0, 0, 0], .dist19 1),
      ([1, 0, 1, 0, 0, 1, 0, 0, 0, 0, 0, 0, 0, 0], .dist20 1),
      ([1, 0, 1, 0, 1, 1, 0, 0, 0, 0, 0, 0, 0, 0], .dist21 1),
      ([1, 0, 1, 1, 0, 1, 0, 0, 0, 0, 0, 0, 0, 0, 0], .dist22 1),
      ([1, 0, 1, 1, 1, 1, 0, 0, 0, 0, 0, 0, 0, 0, 0], .dist23 1),
      ([1, 1, 0, 0, 0, 1, 0, 0, 0, 0, 0, 0, 0, 0, 0, 0], .dist24 1),
      ([1, 1, 0, 0, 1, 1, 0, 0, 0, 0, 0, 0, 0, 0, 0, 0], .dist25 1),
      ([1, 1, 0, 1, 0, 1, 0, 0, 0, 0, 0, 0, 0, 0, 0, 0, 0], .dist26 1),
      ([1, 1, 0, 1, 1, 1, 0, 0, 0, 0, 0, 0, 0, 0, 0, 0, 0], .dist27 1),
      ([1, 1, 1, 0, 0, 1, 0, 0, 0, 0, 0, 0, 0, 0, 0, 0, 0, 0], .dist28 1),
      ([1, 1, 1, 0, 1, 1, 0, 0, 0, 0, 0, 0, 0, 0, 0, 0, 0, 0], .dist29 1)] : List (List Nat × Instr)).all
      (fun p => decode (.dSymbol fixedD) (rd p.1) = .ok (p.2, [])) = true := by decide +kernel

/-- Distance symbols 30 and 31 have no fixed code (R391, R392); in a tree with 32 codes of 5 bits they are `11110` and `11111`. -/
theorem test_decode_invalid_distances :
    decode (.dSymbol ((Huffman.build (List.replicate 32 5)).getD ⟨[]⟩)) (rd [1, 1, 1, 1, 0]) = .ok (.dInvalid30, []) ∧
    decode (.dSymbol ((Huffman.build (List.replicate 32 5)).getD ⟨[]⟩)) (rd [1, 1, 1, 1, 1]) = .ok (.dInvalid31, []) := by
  decide +kernel

/-- In the fixed distance tree `11110` matches nothing (R231); with 15 bits there it is no code, with fewer the input ends first. -/
theorem test_decode_no_code :
    decode (.dSymbol fixedD) (rd ([1, 1, 1, 1, 0] ++ List.replicate 10 0)) = .error .noCode ∧
    decode (.dSymbol fixedD) (rd [1, 1, 1, 1, 0]) = .error .truncated := by decide +kernel

/-- `{1, 1, 2}` over-subscribes (R222); an incomplete and an empty set are accepted (R224). -/
theorem test_build : Huffman.build [1, 1, 2] = none ∧ Huffman.build [0, 0] = some ⟨[]⟩ ∧
    Huffman.build [0, 3] = some ⟨[⟨3, 0, 1⟩]⟩ := by decide +kernel

/-! ## Single steps of the spec's examples -/

/-- A small state: some input bytes, a phase, a cursor and an output capacity. -/
def at' (p : Phase) (bitpos : Word) (bytes : List Byte) : State :=
  { State.reset with
    phase := p, bitpos := bitpos, inMem := Memory.writeBytes 0 bytes [], inLen := BitVec.ofNat 32 bytes.length, outCap := 1024 }

/-- A test of the next state. -/
def answers (r : Result) (p : State → Bool) : Bool :=
  match r with
  | .next t => p t
  | .fault _ | .refused _ => false

/-- Byte `01` is a final stored header, byte `0D` a final dynamic one (R281, R283). -/
theorem test_step_stored_dynamic :
    answers (step (at' .hdr 0 [0x01])) (fun t => t.phase = .storedHdr ∧ t.bfinal = true ∧ t.btype = 0 ∧ t.bitpos = 3) = true ∧
    answers (step (at' .hdr 0 [0x0D])) (fun t => t.phase = .dynHdr ∧ t.bfinal = true ∧ t.btype = 2 ∧ t.bitpos = 3) = true := by
  decide +kernel

/-- After `73` the engine is in `SYM` at `BITPOS = 3` (R282). -/
theorem test_step_fixed :
    answers (step (at' .hdr 0 [0x73]))
      (fun t => t.phase = .sym ∧ t.bfinal = true ∧ t.btype = 1 ∧ t.bitpos = 3 ∧ tableGet t.llLen 143 = 8 ∧
        tableGet t.llLen 144 = 9 ∧ tableGet t.llLen 279 = 7 ∧ tableGet t.dLen 29 = 5 ∧ tableGet t.dLen 30 = 0) = true := by
  decide +kernel

/-- IN = `07` gives `ERROR`, code 3, bit 3, block 0 (R284). -/
theorem test_step_reserved :
    answers (step (at' .hdr 0 [0x07])) (fun t => t.phase = .error ∧ t.errCode = 3 ∧ t.errBitpos = 3 ∧ t.errBlock = 0) = true := by
  decide +kernel

/-- `01 00 00 FF FF` completes an empty final block at bit 40; `01 05 00 FF FF` is a mismatch there (R285). -/
theorem test_step_storedHdr :
    answers (step { at' .storedHdr 3 [0x01, 0x00, 0x00, 0xFF, 0xFF] with bfinal := true })
      (fun t => t.phase = .done ∧ t.bitpos = 40 ∧ t.blockIdx = 1) = true ∧
    answers (step { at' .storedHdr 3 [0x01, 0x05, 0x00, 0xFF, 0xFF] with bfinal := true })
      (fun t => t.phase = .error ∧ t.errCode = 4 ∧ t.errBitpos = 40) = true := by decide +kernel

/-- The last byte of `01 05 00 FA FF 41 42 43 44 45` (R286), and one byte past the end of `01 05 00 FA FF 41 42` (R452). -/
theorem test_step_storedByte :
    answers (step { at' .storedData 72 [0x01, 0x05, 0x00, 0xFA, 0xFF, 0x41, 0x42, 0x43, 0x44, 0x45] with
        bfinal := true, storedRem := 1, outLen := 4 })
      (fun t => t.phase = .done ∧ t.bitpos = 80 ∧ t.outLen = 5 ∧ Memory.read t.outMem 4 = 0x45) = true ∧
    answers (step { at' .storedData 56 [0x01, 0x05, 0x00, 0xFA, 0xFF, 0x41, 0x42] with storedRem := 3, outLen := 2 })
      (fun t => t.phase = .error ∧ t.errCode = 2 ∧ t.errBitpos = 56 ∧ t.outLen = 2) = true := by decide +kernel

/-- `05 00 92 00`, a code-length code with three lengths of 1, is over-subscribed at bit 29 (R455); the lengths go to their permuted
places (R251). -/
theorem test_step_dynHdr :
    answers (step (at' .dynHdr 3 [0x05, 0x00, 0x92, 0x00])) (fun t => t.phase = .error ∧ t.errCode = 5 ∧ t.errBitpos = 29) = true ∧
    answers (exec (.dynHdr 1 0 0 [1, 0, 2, 3]) (at' .dynHdr 0 [0, 0, 0, 0]))
      (fun t => t.phase = .dynSeq ∧ t.hlit = 1 ∧ t.seqTotal = 259 ∧ t.bitpos = 26 ∧ tableGet t.clLen 16 = 1 ∧
        tableGet t.clLen 18 = 2 ∧ tableGet t.clLen 0 = 3) = true := by decide +kernel

/-- With `T_CL` of R252 the bits `1, 1` write the length 2 (R254). -/
theorem test_step_clLen :
    answers (step { at' .dynSeq 0 [0x03] with tCL := some exampleCL, seqIdx := 7, seqTotal := 258 })
      (fun t => t.phase = .dynSeq ∧ tableGet t.seq 7 = 2 ∧ t.seqIdx = 8 ∧ t.bitpos = 2) = true := by decide +kernel

/-- With `SEQ[0..3] = 0, 0, 0, 8`, `CL16` with extra 1 writes four eights (R255); as the first symbol it raises code 7 (R457). -/
theorem test_step_clRep16 :
    answers (exec (.clRep16 1) { at' .dynSeq 0 [0x03] with seq := tableSet State.reset.seq 3 8, seqIdx := 4, seqTotal := 258 })
      (fun t => t.seqIdx = 8 ∧ tableGet t.seq 4 = 8 ∧ tableGet t.seq 7 = 8 ∧ tableGet t.seq 8 = 0) = true ∧
    answers (exec (.clRep16 1) { at' .dynSeq 0 [0x03] with seqTotal := 258 })
      (fun t => t.phase = .error ∧ t.errCode = 7 ∧ t.errBitpos = 0) = true := by decide +kernel

/-- `CL17` with extra 7 writes 10 zeros (R256); `CL18 138` then `CL18 121` passes 258 (R257). -/
theorem test_step_clZeros :
    answers (exec (.clZero17 7) { at' .dynSeq 0 [0xFF] with seqIdx := 5, seqTotal := 258 }) (fun t => t.seqIdx = 15) = true ∧
    answers (exec (.clZero18 127) { at' .dynSeq 0 [0xFF] with seqTotal := 258 }) (fun t => t.seqIdx = 138 ∧ t.bitpos = 7) = true ∧
    answers (exec (.clZero18 110) { at' .dynSeq 0 [0xFF] with seqIdx := 138, seqTotal := 258 })
      (fun t => t.phase = .error ∧ t.errCode = 7 ∧ t.seqIdx = 138) = true := by decide +kernel

/-- The run that ends at `SEQ_TOTAL` finishes the descriptor: `SEQ` splits at `HLIT + 257` (R259). -/
theorem test_step_finish :
    answers (exec (.clRep16 0) { at' .dynSeq 0 [0x00] with
        seq := tableSet State.reset.seq 256 1, seqIdx := 257, seqTotal := 260, hdist := 2 })
      (fun t => t.phase = .error ∧ t.errCode = 5 ∧ tableGet t.llLen 256 = 1 ∧ tableGet t.dLen 0 = 1 ∧ tableGet t.dLen 2 = 1) =
      true := by decide +kernel

/-- `LIT` appends its byte (R288, R401); a full output raises code 11 (R406). `EOB` ends a final block (R289). -/
theorem test_step_lit_eob :
    answers (exec (.lit 0x41) (at' .sym 11 [0, 0])) (fun t => t.phase = .sym ∧ t.outLen = 1 ∧ Memory.read t.outMem 0 = 0x41) = true ∧
    answers (exec (.lit 0x41) { at' .sym 11 [0, 0] with outCap := 0 })
      (fun t => t.phase = .error ∧ t.errCode = 11 ∧ t.errBitpos = 11) = true ∧
    answers (exec .eob { at' .sym 10 [0, 0] with bfinal := true }) (fun t => t.phase = .done ∧ t.blockIdx = 1) = true := by
  decide +kernel

/-- `LEN265` with extra 1 is length 12 (R320), `DIST4` with extra 1 is distance 6 (R360), in trees of one symbol each. -/
theorem test_step_match :
    answers (step { at' .sym 0 [0x0A] with tLL := some (soloTree 265), tD := some (soloTree 4), outLen := 6 })
      (fun t => t.phase = .copy ∧ t.matchLen = 12 ∧ t.copyRem = 12 ∧ t.matchDist = 6 ∧ t.bitpos = 4) = true ∧
    answers (step { at' .sym 0 [0x0A] with tLL := some (soloTree 265), tD := some (soloTree 4), outLen := 5 })
      (fun t => t.phase = .error ∧ t.errCode = 9 ∧ t.errBitpos = 4) = true := by decide +kernel

/-- An invalid symbol raises code 8 just past its code (R458). -/
theorem test_step_invalid :
    answers (step { at' .sym 3 [0x00, 0x00] with tLL := some ⟨[⟨8, 0, 286⟩]⟩ })
      (fun t => t.phase = .error ∧ t.errCode = 8 ∧ t.errBitpos = 11) = true ∧
    answers (step { at' .sym 0 [0x00] with tLL := some (soloTree 257), tD := some (soloTree 31) })
      (fun t => t.phase = .error ∧ t.errCode = 8 ∧ t.errBitpos = 2) = true := by decide +kernel

/-- With OUT = `61 62`, `MATCH_DIST = 2` and `COPY_REM = 4` the step appends `61` (R402). -/
theorem test_step_copy :
    answers (step { at' .copy 20 [0, 0, 0] with outMem := [(0, 0x61), (1, 0x62)], outLen := 2, matchDist := 2, copyRem := 4 })
      (fun t => t.phase = .copy ∧ t.outLen = 3 ∧ t.copyRem = 3 ∧ Memory.read t.outMem 2 = 0x61) = true := by decide +kernel

/-- `START` with `IN_LEN = 0`, then the first step raises `UnexpectedEndOfStream` at bit 0 (R421). -/
theorem test_step_start_empty :
    answers (step { State.reset with hostQueue := [.writeReg 0 4 1] }) (fun t =>
      t.phase = .hdr && answers (step t) fun u => u.phase = .error ∧ u.errCode = 2 ∧ u.errBitpos = 0) = true := by decide +kernel

/-- A word of the opcode table is decoded and run as the first instruction (log 5, log 6): BTYPE 1, and literal symbol 65. -/
theorem test_table_words :
    decodeTableWord 8 1 = some (.fixed false) ∧ decodeTableWord 16 65 = some (.lit 65) ∧
    answers (step (State.reset.withFetchWord 8 1)) (fun t => t.phase = .sym ∧ t.btype = 1) = true ∧
    answers (step (State.reset.withFetchWord 16 257)) (fun t => t.phase = .error ∧ t.errCode = 9 ∧ t.matchLen = 3) = true := by
  decide +kernel

/-! ## Witnesses: the hypotheses of every obligation are met -/

/-- Ten bytes of input and room for eight bytes of output. -/
def demo (p : Phase) : State := { at' p 0 [0x41, 0x42, 0x43, 0x44, 0x45, 0x46, 0x47, 0x48, 0x49, 0x4A] with outCap := 8 }

/-- The same with the whole input consumed but for `n` bits. -/
def nearEnd (p : Phase) (n : Nat) : State := { demo p with bitpos := BitVec.ofNat 32 (80 - n) }

/-- A state in the middle of a match: one byte produced, distance 1, three bytes to go, both trees there. -/
def inCopy : State :=
  { demo .copy with
    bitpos := 10, outMem := [(0, 0x41)], outLen := 1, matchDist := 1, copyRem := 3
    tLL := some (soloTree 65), tD := some (soloTree 0) }

theorem solo_wf (sym : Nat) : (soloTree sym).wf := by
  intro c hc
  obtain rfl : c = ⟨1, 0, sym⟩ := by simpa [soloTree] using hc
  exact ⟨Nat.le_refl 1, (by decide : (1 : Nat) ≤ 15)⟩

theorem solo_build (sym : Nat) : sym = 65 → Huffman.build (List.replicate 65 0 ++ [1]) = some (soloTree sym) := by
  rintro rfl
  decide +kernel

/-- The invariant in a state that runs nothing in a block. -/
theorem inv_of_outside {s : State} (h1 : Memory.wf s.inMem) (h2 : Memory.wf s.outMem) (h3 : 8 * s.inLen.toNat < 2 ^ 32)
    (h4 : s.bitpos.toNat ≤ 8 * s.inLen.toNat) (h5 : s.outLen.toNat ≤ s.outCap.toNat)
    (h6 : 3 * s.blockIdx.toNat ≤ s.bitpos.toNat) (hp : s.phase.inBlock = false)
    (he : if s.phase = .error then engineCode s.errCode else s.errCode = 0) (hi : s.phase ≠ .idle) : s.Inv where
  inMem := h1
  outMem := h2
  inLen := h3
  cursor _ := h4
  room _ := h5
  blocks _ := h6
  header h := by rw [hp] at h; cases h
  storedData h := by rw [h] at hp; cases hp
  sequence h := by rw [h] at hp; cases hp
  trees h := by rcases h with h | h <;> rw [h] at hp <;> cases hp
  copy h := by rw [h] at hp; cases hp
  error := he
  idle h := absurd h hi

theorem inv_hdr : (demo .hdr).Inv := inv_of_outside (by decide) (by decide) (by decide) (by decide) (by decide) (by decide) rfl rfl
  (by decide)

theorem inv_inCopy : inCopy.Inv where
  inMem := by decide
  outMem := by decide
  inLen := by decide
  cursor _ := by decide
  room _ := by decide
  blocks _ := by decide
  header _ := by decide
  storedData h := nomatch h
  sequence h := nomatch h
  trees _ := ⟨solo_wf 65, solo_wf 0⟩
  copy _ := by decide
  error := rfl
  idle h := nomatch h

theorem witness_DecodeOfEncode :
    Instr.wellFormed (.lit 65) = true ∧ (Format.llSymbol (soloTree 65)).kind = (Instr.lit 65).kind ∧
    (∀ sym, (Instr.lit 65).symbol = some sym → ∃ ls : List Nat, Huffman.build ls = some (Format.llSymbol (soloTree 65)).tree ∧
      (∀ l ∈ ls, l ≤ 15) ∧ ∃ h : sym < ls.length, ls[sym] ≠ 0) ∧
    Instr.wellFormed (.storedHdr 0xFFFF 0) = true ∧ (Format.storedHdr 7).kind = (Instr.storedHdr 0xFFFF 0).kind ∧
    (∀ sym, (Instr.storedHdr 0xFFFF 0).symbol = some sym → ∃ ls : List Nat, Huffman.build ls = some (Format.storedHdr 7).tree ∧
      (∀ l ∈ ls, l ≤ 15) ∧ ∃ h : sym < ls.length, ls[sym] ≠ 0) ∧
    (rd [1, 1]).length = (rd [0, 1]).length := by
  refine ⟨rfl, rfl, fun sym h => ?_, rfl, rfl, (fun sym h => nomatch h), rfl⟩
  obtain rfl : 65 = sym := Option.some.inj h
  exact ⟨List.replicate 65 0 ++ [1], solo_build 65 rfl, by decide, by decide, by decide⟩

theorem witness_EncodeOfDecode :
    decode (.clSymbol exampleCL) (rd [1, 1, 1]) = .ok (.clLen 2, [true]) ∧
    ((Format.clSymbol exampleCL).kind = .clSymbol ∨ (Format.clSymbol exampleCL).kind = .llSymbol ∨
      (Format.clSymbol exampleCL).kind = .dSymbol →
      ∃ ls : List Nat, Huffman.build ls = some (Format.clSymbol exampleCL).tree ∧ (∀ l ∈ ls, l ≤ 15) ∧
        2 ≤ Huffman.nsym (Format.clSymbol exampleCL).tree ∧ ls.length ≤ (if (Format.clSymbol exampleCL).kind = .clSymbol then 19
          else if (Format.clSymbol exampleCL).kind = .llSymbol then 288 else 32)) := by
  refine ⟨by decide +kernel, fun _ => ⟨[0, 2, 2] ++ List.replicate 15 0 ++ [1], by decide +kernel, by decide, by decide +kernel,
    by decide⟩⟩

theorem eq_some_getD {o : Option Sys2Proof.Tree} {d : Sys2Proof.Tree} (h : o.isSome = true) : o = some (o.getD d) := by
  cases o with
  | none => cases h
  | some t => rfl

theorem witness_FixedCodes :
    Huffman.build (List.replicate 144 8 ++ List.replicate 112 9 ++ List.replicate 24 7 ++ List.replicate 8 8) = some fixedLL ∧
    Huffman.build (List.replicate 30 5) = some fixedD := by
  exact ⟨eq_some_getD (by decide +kernel), eq_some_getD (by decide +kernel)⟩

theorem witness_BuildAcceptsKraft : Huffman.build [1, 1, 2] = none := by decide +kernel

theorem witness_CanonicalCodes :
    (∀ l ∈ [2, 1, 15, 0, 2], l ≤ 15) ∧ (Huffman.build [2, 1, 0, 2]).isSome = true ∧ Huffman.build [15] = some ⟨[⟨15, 0, 0⟩]⟩ := by
  decide +kernel

theorem witness_DecodeFindsTheCode :
    (∀ l ∈ [0, 2, 2] ++ List.replicate 15 0 ++ [1], l ≤ 15) ∧
    Huffman.build ([0, 2, 2] ++ List.replicate 15 0 ++ [1]) = some ⟨[⟨2, 2, 1⟩, ⟨2, 3, 2⟩, ⟨1, 0, 18⟩]⟩ ∧
    2 ≤ Huffman.nsym ⟨[⟨2, 2, 1⟩, ⟨2, 3, 2⟩, ⟨1, 0, 18⟩]⟩ := by decide +kernel

theorem witness_DegenerateTreeAlwaysDecodes :
    (∀ l ∈ [15], l ≤ 15) ∧ Huffman.build [15] = some ⟨[⟨15, 0, 0⟩]⟩ ∧ (nearEnd .sym 15).cursorOk ∧ (nearEnd .sym 15).hasBits 15 ∧
    (nearEnd .sym 14).cursorOk ∧ ¬ (nearEnd .sym 14).hasBits 15 := by decide +kernel

theorem witness_EmptyTreeNeverDecodes : (demo .sym).cursorOk := by decide +kernel

theorem witness_SerialDecodeIsHuff : (soloTree 65).wf ∧ (demo .sym).cursorOk := ⟨solo_wf 65, by decide +kernel⟩

theorem witness_ReadBitsAssembles :
    16 ≤ 16 ∧ (nearEnd .sym 16).cursorOk ∧ (nearEnd .sym 16).hasBits 16 ∧ (nearEnd .sym 15).cursorOk ∧
    ¬ (nearEnd .sym 15).hasBits 16 := by decide +kernel

theorem witness_AlignByteRoundsUp :
    (nearEnd .storedHdr 1).cursorOk ∧ (nearEnd .storedHdr 0).cursorOk ∧ (nearEnd .storedHdr 0).bitpos.toNat % 8 = 0 := by
  decide +kernel

theorem witness_NoObservableLookAhead :
    (nearEnd .hdr 3).cursorOk ∧ answers (engineStep (nearEnd .hdr 3)) (fun t => t.bitpos = 80) = true ∧
    ∀ k, (nearEnd .hdr 3).bitpos.toNat ≤ k → k < 80 →
      (Memory.read [(9, 0x4A), (10, 0x01)] (k / 8)).getLsbD (k % 8) =
        (Memory.read (nearEnd .hdr 3).inMem (k / 8)).getLsbD (k % 8) := by
  refine ⟨by decide +kernel, by decide +kernel, fun k h1 h2 => ?_⟩
  have h3 : 77 ≤ k := h1
  interval_cases k <;> decide +kernel

theorem witness_StepRunsDecodedElement :
    ((demo .hdr).hostQueue = [] ∧ (demo .hdr).cursorOk ∧ (demo .hdr).format = some .blockHdr ∧ Format.blockHdr.tree.wf ∧
      (decode .blockHdr (remaining (demo .hdr))).isOk = true) ∧
    (inCopy.cursorOk ∧ inCopy.tD = some (soloTree 0) ∧ (soloTree 0).wf ∧
      (decode (.dSymbol (soloTree 0)) (remaining inCopy)).isOk = true) :=
  ⟨⟨rfl, by decide +kernel, rfl, (fun c hc => nomatch hc), by decide +kernel⟩, by decide +kernel, rfl, solo_wf 0, by decide +kernel⟩

/-- A symbol phase whose tree is empty, with `n` bits left. -/
def emptyTree (n : Nat) : State := { nearEnd .sym n with tLL := some ⟨[]⟩, tD := some ⟨[]⟩ }

theorem witness_NoMatchingCodeRaises :
    (emptyTree 15).hostQueue = [] ∧ (emptyTree 15).cursorOk ∧ (emptyTree 15).format = some (.llSymbol ⟨[]⟩) ∧
    (Format.llSymbol ⟨[]⟩).tree.wf ∧ decode (.llSymbol ⟨[]⟩) (remaining (emptyTree 15)) = .error .noCode ∧
    (emptyTree 15).tD = some ⟨[]⟩ ∧ decode (.dSymbol ⟨[]⟩) (remaining (emptyTree 15)) = .error .noCode :=
  ⟨rfl, by decide +kernel, rfl, (fun c hc => nomatch hc), by decide +kernel, rfl, by decide +kernel⟩

/-- A regular tree with the code `0` for 0 and `10` for `sym`. -/
def twoCodes (sym : Nat) : Sys2Proof.Tree := ⟨[⟨1, 0, 0⟩, ⟨2, 2, sym⟩]⟩

/-- The first code-length symbol, with `n` bits left; the last two are `10`, the code of `sym`. -/
def firstCl (sym n : Nat) : State := { nearEnd .dynSeq n with tCL := some (twoCodes sym), seqTotal := 258 }

theorem twoCodes_wf (sym : Nat) : (twoCodes sym).wf := by
  intro c hc
  obtain rfl | rfl : c = ⟨1, 0, 0⟩ ∨ c = ⟨2, 2, sym⟩ := by simpa [twoCodes] using hc
  · exact ⟨Nat.le_refl 1, (by decide : (1 : Nat) ≤ 15)⟩
  · exact ⟨(by decide : (1 : Nat) ≤ 2), (by decide : (2 : Nat) ≤ 15)⟩

theorem witness_EndOfStreamAtTheEnd :
    ((emptyTree 14).hostQueue = [] ∧ (emptyTree 14).cursorOk ∧ (emptyTree 14).format = some (.llSymbol ⟨[]⟩) ∧
      (Format.llSymbol ⟨[]⟩).tree.wf ∧ (emptyTree 14).phase ≠ .dynSeq ∧
      decode (.llSymbol ⟨[]⟩) (remaining (emptyTree 14)) = .error .truncated) ∧
    ((emptyTree 14).phase ≠ .error ∧
      answers (engineStep (emptyTree 14)) (fun t => t.phase = .error ∧ t.errCode = 2) = true) :=
  ⟨⟨rfl, by decide +kernel, rfl, (fun c hc => nomatch hc), by decide, by decide +kernel⟩, by decide +kernel⟩

/-- The first code-length symbol: the input ends inside its code, or in the extra bits of `CL17`; and `CL16` there. -/
theorem witness_EndOfStreamAtTheEnd_first :
    ((firstCl 17 0).seqIdx = 0 ∧ (firstCl 17 0).cursorOk ∧ (firstCl 17 0).format = some (.clSymbol (twoCodes 17)) ∧
      (Format.clSymbol (twoCodes 17)).tree.wf ∧ (∀ n, Huffman.decode (twoCodes 17) (remaining (firstCl 17 0)) ≠ some (16, n)) ∧
      decode (.clSymbol (twoCodes 17)) (remaining (firstCl 17 0)) = .error .truncated) ∧
    ((firstCl 17 2).cursorOk ∧ (∀ n, Huffman.decode (twoCodes 17) (remaining (firstCl 17 2)) ≠ some (16, n)) ∧
      decode (.clSymbol (twoCodes 17)) (remaining (firstCl 17 2)) = .error .truncated) ∧
    ((firstCl 16 2).hostQueue = [] ∧ (firstCl 16 2).cursorOk ∧ (firstCl 16 2).phase = .dynSeq ∧
      (firstCl 16 2).tCL = some (twoCodes 16) ∧ (twoCodes 16).wf ∧ (firstCl 16 2).seqIdx = 0 ∧
      Huffman.decode (twoCodes 16) (remaining (firstCl 16 2)) = some (16, 2)) := by
  have h0 : Huffman.decode (twoCodes 17) (remaining (firstCl 17 0)) = none := by decide +kernel
  have h2 : Huffman.decode (twoCodes 17) (remaining (firstCl 17 2)) = some (17, 2) := by decide +kernel
  refine ⟨⟨rfl, by decide +kernel, rfl, twoCodes_wf 17, fun n h => ?_, by decide +kernel⟩,
    ⟨by decide +kernel, fun n h => ?_, by decide +kernel⟩,
    rfl, by decide +kernel, rfl, rfl, twoCodes_wf 16, rfl, by decide +kernel⟩
  · rw [h0] at h
    cases h
  · rw [h2] at h
    exact absurd (congrArg Prod.fst (Option.some.inj h)) (by decide : (17 : Nat) ≠ 16)

theorem witness_headers : (nearEnd .hdr 3).hasBits 3 := by decide +kernel

theorem witness_TruncatedHeader :
    ((nearEnd .hdr 2).cursorOk ∧ ¬ (nearEnd .hdr 2).hasBits 3 ∧ (nearEnd .hdr 2).hasBits 1) ∧
    ((nearEnd .hdr 0).cursorOk ∧ ¬ (nearEnd .hdr 0).hasBits 3 ∧ ¬ (nearEnd .hdr 0).hasBits 1) ∧
    Instr.reserved true ∈ [Instr.stored true, .fixed true, .dynamic true, .reserved true] := by decide +kernel

theorem witness_StoredHeader :
    (nearEnd .storedHdr 39).cursorOk ∧ (alignByte (nearEnd .storedHdr 39)).hasBits 32 ∧
    (0x0000 : BitVec 16) = ~~~0xFFFF ∧ (0xFFFF : BitVec 16) ≠ 0 ∧ (0xFFFF : BitVec 16) = ~~~0 ∧ (0xFFFF : BitVec 16) ≠ ~~~5 ∧
    (alignByte (nearEnd .storedHdr 16)).hasBits 16 ∧ ¬ (alignByte (nearEnd .storedHdr 16)).hasBits 32 ∧
    ¬ (alignByte (nearEnd .storedHdr 15)).hasBits 16 := by decide +kernel

theorem witness_StoredByte :
    (nearEnd .storedData 8).hasBits 8 ∧ (nearEnd .storedData 8).outLen ≠ (nearEnd .storedData 8).outCap ∧
    (nearEnd .storedData 8).storedRem ≠ 1 ∧
    ({ nearEnd .storedData 8 with storedRem := 1, outLen := 7 } : State).outLen ≠ (nearEnd .storedData 8).outCap ∧
    ({ nearEnd .storedData 8 with outLen := 8 } : State).outLen = (nearEnd .storedData 8).outCap ∧
    ¬ (nearEnd .storedData 7).hasBits 8 := by decide +kernel

theorem witness_EndOfBlock :
    ({ demo .sym with bfinal := true } : State).bfinal = true ∧ (demo .sym).bfinal = false ∧ (demo .sym).blockStep = false ∧
    ({ demo .sym with blockStep := true } : State).blockStep = true := by decide +kernel

theorem witness_DynamicHeader :
    ([0, 0, 0, 0] : List (BitVec 3)).length = (0 : BitVec 4).toNat + 4 ∧ (nearEnd .dynHdr 26).hasBits (14 + 3 * ((0 : BitVec 4).toNat + 4)) ∧
    (List.replicate 19 (1 : BitVec 3)).length = (15 : BitVec 4).toNat + 4 ∧
    (nearEnd .dynHdr 71).hasBits (14 + 3 * ((15 : BitVec 4).toNat + 4)) ∧
    Huffman.build ((Vector.replicate 19 (0 : BitVec 3)).toList.map BitVec.toNat) = some ⟨[]⟩ ∧
    Huffman.build ((Vector.replicate 19 (1 : BitVec 3)).toList.map BitVec.toNat) = none ∧
    (nearEnd .dynHdr 25).cursorOk ∧ ¬ (nearEnd .dynHdr 25).hasBits (14 + 3 * ((0 : BitVec 4).toNat + 4)) := by decide +kernel

/-- A descriptor with `SEQ_IDX` entries written of 258. -/
def inSeq (idx : BitVec 9) : State := { demo .dynSeq with tCL := some exampleCL, seqIdx := idx, seqTotal := 258 }

theorem witness_CodeLengthValue :
    (inSeq 0).seqIdx.toNat < (inSeq 0).seqTotal.toNat ∧ (inSeq 0).seqTotal.toNat ≤ 320 ∧
    (inSeq 0).seqIdx.toNat + 1 ≠ (inSeq 0).seqTotal.toNat ∧
    (inSeq 257).seqIdx.toNat < (inSeq 257).seqTotal.toNat ∧ (inSeq 257).seqIdx.toNat + 1 = (inSeq 257).seqTotal.toNat := by
  decide +kernel

theorem witness_CodeLengthRuns :
    (∃ e, Instr.clRep16 3 = .clRep16 e ∧ 2 = 2 ∧ 6 = 3 + e.toNat ∧ (inSeq 1).seqIdx ≠ 0 ∧
      0 = tableGet (inSeq 1).seq ((inSeq 1).seqIdx.toNat - 1)) ∧
    (∃ e, Instr.clZero17 7 = .clZero17 e ∧ 3 = 3 ∧ 10 = 3 + e.toNat ∧ (0 : BitVec 4) = 0) ∧
    (∃ e, Instr.clZero18 127 = .clZero18 e ∧ 7 = 7 ∧ 138 = 11 + e.toNat ∧ (0 : BitVec 4) = 0) ∧
    (inSeq 1).hasBits 7 ∧ (inSeq 1).seqTotal.toNat ≤ 320 ∧ (inSeq 121).seqTotal.toNat < (inSeq 121).seqIdx.toNat + 138 ∧
    (inSeq 119).seqIdx.toNat + 138 < (inSeq 119).seqTotal.toNat ∧ (inSeq 120).seqIdx.toNat + 138 = (inSeq 120).seqTotal.toNat ∧
    (nearEnd .dynSeq 6).cursorOk ∧ ¬ (nearEnd .dynSeq 6).hasBits 7 :=
  ⟨⟨3, rfl, rfl, rfl, by decide, by decide +kernel⟩, ⟨7, rfl, rfl, rfl, rfl⟩, ⟨127, rfl, rfl, rfl, rfl⟩, by decide +kernel,
    by decide, by decide, by decide, by decide, by decide +kernel, by decide +kernel⟩

theorem witness_InvalidTreeDescriptionSites :
    (inSeq 0).seqIdx = 0 ∧ (inSeq 256).phase ≠ .error ∧
    answers (exec (.clZero17 0) (inSeq 256)) (fun t => t.phase = .error ∧ t.errCode = 7) = true ∧
    (inSeq 256).seqIdx ≠ 0 ∧ (inSeq 256).hasBits 7 ∧ (inSeq 256).seqTotal.toNat < (inSeq 256).seqIdx.toNat + (3 + (0 : BitVec 2).toNat) ∧
    (inSeq 248).seqTotal.toNat < (inSeq 248).seqIdx.toNat + (11 + (0 : BitVec 7).toNat) := by decide +kernel

/-- A complete sequence of lengths: the first literal 1, the first distance `d`. -/
def complete (ll d : BitVec 4) : State :=
  { inSeq 258 with seq := tableSet (tableFill State.reset.seq 0 ll 3) 257 d, hlit := 0, hdist := 0 }

theorem witness_DescriptorFinishes :
    (Huffman.build ((((sliceLL (complete 2 1)).toList).take 257).map BitVec.toNat)).isSome = true ∧
    Huffman.build ((((sliceD (complete 2 1)).toList).take 1).map BitVec.toNat) = some ⟨[⟨1, 0, 0⟩]⟩ ∧
    Huffman.build ((((sliceLL (complete 1 1)).toList).take 257).map BitVec.toNat) = none ∧
    Huffman.build (([1, 1, 1] : List (BitVec 4)).map BitVec.toNat) = none := by decide +kernel

theorem witness_Literal :
    (demo .sym).outLen ≠ (demo .sym).outCap ∧ ({ demo .sym with outLen := 8 } : State).outLen = (demo .sym).outCap := by
  decide +kernel

theorem witness_MatchTables :
    lengthOperand .len257 = some (3, 0) ∧ lengthOperand (.len284 31) = some (258, 5) ∧ distanceOperand .dist0 = some (1, 0) ∧
    distanceOperand (.dist29 8191) = some (32768, 13) := by decide

/-- A symbol phase in which a length row stands behind its code and a distance row follows: `DIST4` with its extra bit. -/
def atLength (n : Nat) : State := { nearEnd .sym n with tD := some (soloTree 4), outLen := 6 }

theorem witness_BackReferenceCompletes :
    lengthOperand (.len265 1) = some (12, 1) ∧ (atLength 3).tD = some (soloTree 4) ∧ (soloTree 4).wf ∧
    (atLength 3).hasBits (1 + 1 + 1) ∧ Huffman.decode (soloTree 4) (remaining ((atLength 3).skip 1)) = some (4, 1) ∧
    dRow 4 (remaining ((atLength 3).skip (1 + 1))) = .dist4 0 ∧ distanceOperand (.dist4 0) = some (5, 1) ∧
    5 ≤ (atLength 3).outLen.toNat :=
  ⟨rfl, rfl, solo_wf 4, by decide +kernel, by decide +kernel, by decide +kernel, rfl, by decide⟩

theorem witness_LengthRunsDistance :
    lengthOperand (.len265 1) = some (12, 1) ∧ (emptyTree 16).tD = some ⟨[]⟩ ∧ Sys2Proof.Tree.wf ⟨[]⟩ ∧ (emptyTree 16).cursorOk ∧
    (emptyTree 16).hasBits (1 + 15) ∧ Huffman.decode ⟨[]⟩ (remaining ((emptyTree 16).skip 1)) = none ∧
    (emptyTree 15).hasBits 1 ∧ ¬ (emptyTree 15).hasBits (1 + 15) ∧
    Huffman.decode ⟨[]⟩ (remaining ((emptyTree 15).skip 1)) = none ∧ ¬ (emptyTree 0).hasBits 1 :=
  ⟨rfl, rfl, (fun c hc => nomatch hc), by decide +kernel, by decide +kernel, by decide +kernel, by decide +kernel, by decide +kernel,
    by decide +kernel, by decide +kernel⟩

theorem witness_DistanceStartsTheCopy :
    distanceOperand (.dist4 1) = some (6, 1) ∧ (atLength 1).cursorOk ∧ (atLength 1).hasBits 1 ∧ 6 ≤ (atLength 1).outLen.toNat ∧
    distanceOperand (.dist5 0) = some (7, 1) ∧ (atLength 1).outLen.toNat < 7 ∧ ¬ (atLength 0).hasBits 1 := by decide +kernel

theorem witness_CopyStep :
    inCopy.phase = .copy ∧ inCopy.matchDist.toNat ≤ inCopy.outLen.toNat ∧ inCopy.outLen ≠ inCopy.outCap ∧ inCopy.copyRem ≠ 1 ∧
    ({ inCopy with copyRem := 1 } : State).copyRem = 1 ∧ ({ inCopy with outLen := 8 } : State).outLen = inCopy.outCap := by
  decide +kernel

theorem witness_OverlappingCopy :
    inCopy.phase = .copy ∧ inCopy.hostQueue = [] ∧ Memory.wf inCopy.outMem ∧ inCopy.outLen.toNat = 1 ∧
    inCopy.matchDist.toNat = 1 ∧ inCopy.copyRem.toNat = 3 ∧ 1 ≤ 1 ∧ 1 ≤ 3 ∧ 1 + 3 ≤ inCopy.outCap.toNat := by decide +kernel

theorem witness_frames :
    answers (exec (.lit 7) (demo .sym)) (fun t => t.phase ≠ .error ∧ Memory.wf t.outMem) = true ∧ Memory.wf (demo .sym).outMem ∧
    answers (exec (.storedByte 7) (demo .storedData)) (fun t => t.outLen = 1) = true ∧
    answers (exec .eob (demo .sym)) (fun t => t.phase = .hdr) = true ∧
    answers (exec (.storedByte 7) { demo .storedData with storedRem := 2 }) (fun t => t.phase = .storedData) = true ∧
    answers (exec (.clLen 3) { demo .dynSeq with seqTotal := 258 }) (fun t => t.phase = .dynSeq ∧ t.seqIdx ≠ t.seqTotal) = true := by
  decide +kernel

theorem witness_TrapEntry :
    (demo .sym).phase ≠ .error ∧ answers (engineStep (emptyTree 15)) (fun t => t.phase = .error) = true ∧
    answers (engineStep (demo .hdr)) (fun t => t.phase ≠ .error) = true := by decide +kernel

/-- A session that ended in an error, and what the host does next. -/
def failed (e : HostEvent) : State := { demo .error with errCode := 2, hostQueue := [e] }

theorem witness_OnlyStartOrResetLeavesError :
    answers (step (failed (.writeReg 0 4 1))) (fun t => t.phase ≠ .error) = true ∧
    answers (step (failed .reset)) (fun t => t.phase ≠ .error) = true ∧ (failed .reset).phase = .error := by decide +kernel

theorem witness_StoppedPhasesStay :
    (demo .paused).phase ∈ [Phase.idle, .paused, .done, .error] ∧ (demo .paused).hostQueue = [] ∧
    ({ demo .done with hostQueue := [.quiet] } : State).hostQueue = .quiet :: [] := by decide +kernel

theorem witness_ResetLeaves : (failed .reset).hostQueue = .reset :: [] := rfl

theorem witness_RegisterReads :
    ({ demo .sym with hostQueue := [.readReg 0x3C 4] } : State).hostQueue = .readReg 0x3C 4 :: [] ∧ 0x3C % 4 = 0 ∧ 0x3C < 64 := by
  decide

theorem witness_ReadOnlyWritesIgnored :
    ({ demo .sym with hostQueue := [.writeReg 0x04 4 5] } : State).hostQueue = .writeReg 0x04 4 5 :: [] ∧ 0x04 % 4 = 0 ∧ 0x04 < 64 ∧
    0x04 ≠ 0x00 ∧ 0x04 ≠ 0x14 ∧ 0x04 ≠ 0x18 := by decide

theorem witness_commands :
    (1 : Word).getLsbD 0 = true ∧ (demo .paused).phase ∈ [Phase.idle, .paused, .done, .error] ∧
    (demo .copy).phase ∉ [Phase.idle, .paused, .done, .error] ∧ (2 : Word).getLsbD 0 = false ∧ (2 : Word).getLsbD 1 = true ∧
    (demo .paused).phase = .paused ∧ (demo .hdr).phase ≠ .paused ∧ (demo .hdr).bfinal = false ∧ (3 : Word).getLsbD 0 = true ∧
    (3 : Word).getLsbD 1 = true ∧ (demo .hdr).phase.status = .busy ∧ (0x100 : Word).getLsbD 0 = false ∧
    (0x100 : Word).getLsbD 1 = false ∧ (failed (.writeReg 0 4 2)).hostQueue = .writeReg 0 4 2 :: [] := by decide +kernel

theorem witness_SessionRegisters :
    (demo .paused).phase.inSession = true ∧ (demo .done).phase.inSession = false ∧
    ({ demo .hdr with hostQueue := [.writeReg 0x14 4 9] } : State).hostQueue = .writeReg 0x14 4 9 :: [] ∧
    answers (step (demo .hdr)) (fun _ => true) = true ∧ (∀ q, (demo .hdr).hostQueue ≠ .reset :: q) ∧
    (0 : Word).toNat ≤ Config.inLenMax :=
  ⟨by decide, by decide, rfl, by decide +kernel, (fun q h => nomatch h), Nat.zero_le _⟩

theorem witness_HostBufferAccess :
    Memory.wf (demo .done).inMem ∧ Memory.wf (demo .done).outMem ∧ (demo .done).phase.inSession = false ∧
    (demo .sym).phase.inSession = true ∧ (failed (.fillIn 3 4)).hostQueue = .fillIn 3 4 :: [] ∧
    (failed (.writeOut 3 4)).hostQueue = .writeOut 3 4 :: [] ∧ (failed (.readOut 3)).hostQueue = .readOut 3 :: [] := by
  decide +kernel

theorem witness_StepKeepsInv : inCopy.Inv ∧ answers (step inCopy) (fun t => t.phase = .copy) = true :=
  ⟨inv_inCopy, by decide +kernel⟩

theorem witness_NoInputStopsTheMachine :
    inCopy.Inv ∧ step { demo .sym with hostQueue := [.fillIn 3 4] } = .refused .bufferWriteInSession :=
  ⟨inv_inCopy, rfl⟩

theorem witness_CursorNeverMovesBack :
    inCopy.cursorOk ∧ answers (engineStep inCopy) (fun t => t.bitpos = inCopy.bitpos) = true ∧ inCopy.phase = .copy ∧
    answers (hostStep (.writeReg 0 4 1) (nearEnd .done 0)) (fun t => t.bitpos ≠ (nearEnd .done 0).bitpos) = true := by
  decide +kernel

/-- After a session the host has set `IN_LEN` to 0, below the cursor, and now starts the next one. -/
def shortened : State := { nearEnd .done 0 with inLen := 0, hostQueue := [.writeReg 0 4 1] }

/-- A step in a session and one outside, an `IN_LEN` written at the bound, and `START` with the cursor beyond a shortened input. -/
theorem witness_CursorNeverMovesBack_bound :
    (inCopy.cursorOk ∧ inCopy.hostQueue = [] ∧ answers (step inCopy) (fun t => t.phase = .copy) = true) ∧
    ((nearEnd .done 0).cursorOk ∧ (nearEnd .done 0).phase.inSession = false ∧ (nearEnd .done 0).bitpos.toNat = 8 * (10 : Word).toNat) ∧
    (nearEnd .hdr 0).phase.inSession = true ∧
    (8 * (failed .reset).inLen.toNat < 2 ^ 32 ∧ (failed .reset).hostQueue = [.reset]) ∧
    (8 * shortened.inLen.toNat < 2 ^ 32 ∧ shortened.hostQueue = [.writeReg 0 4 1] ∧ (1 : Word).getLsbD 0 = true ∧
      shortened.phase.status ≠ .busy ∧ 8 * shortened.inLen.toNat < shortened.bitpos.toNat) := by
  decide +kernel

theorem witness_OutputIsAppendOnly :
    inCopy.Inv ∧ Memory.wf [(0, 0x41), (5, 0x01)] ∧ answers (engineStep inCopy) (fun t => t.outLen = 2) = true ∧
    (∀ a, a < inCopy.outLen.toNat → Memory.read [(0, 0x41), (5, 0x01)] a = Memory.read inCopy.outMem a) ∧
    (demo .done).phase.status ≠ .busy := by
  refine ⟨inv_inCopy, by decide, by decide +kernel, fun a h => ?_, by decide⟩
  obtain rfl : a = 0 := by
    have : a < 1 := h
    omega
  decide

theorem witness_EveryStepProgresses :
    (demo .hdr).Inv ∧ (demo .hdr).phase.status = .busy ∧ answers (engineStep (demo .hdr)) (fun t => t.bitpos = 3) = true :=
  ⟨inv_hdr, by decide, by decide +kernel⟩

theorem witness_SessionsEnd : inCopy.Inv ∧ inCopy.phase.status = .busy ∧ inCopy.hostQueue = [] := ⟨inv_inCopy, by decide, rfl⟩

theorem witness_NoStaleStateIsRead :
    (demo .hdr).Inv ∧ ({ demo .hdr with hlit := 5, tLL := some (soloTree 3), storedRem := 7 } : State).Inv ∧
    (demo .hdr).live = ({ demo .hdr with hlit := 5, tLL := some (soloTree 3), storedRem := 7 } : State).live ∧
    answers (step (demo .hdr)) (fun _ => true) = true :=
  ⟨inv_hdr, inv_of_outside (by decide) (by decide) (by decide) (by decide) (by decide) (by decide) rfl rfl (by decide), rfl,
    by decide +kernel⟩

end Sys2Proof.Tests
end

section
/-! The BitReader (41_bit_reader.md): `ReadBit`, `ReadBits` and `AlignByte`, bit by bit. -/

namespace Sys2Proof.Machine

/-- `ReadBit` where a bit is there: the head of the rest of the input, and the cursor behind it (R200). -/
theorem readBit_of_hasBits {s : State} (h : s.hasBits 1) :
    ∃ b, remaining s = b :: remaining (s.skip 1) ∧ ∀ k, readBit s k = k b (s.skip 1) := by
  obtain ⟨hb, -⟩ := id h
  refine ⟨(Memory.read s.inMem (s.bitpos.toNat / 8)).getLsbD (s.bitpos.toNat % 8), ?_, fun k => ?_⟩
  · have hhead := remaining_getElem? s 0
    rw [if_pos (by omega)] at hhead
    obtain ⟨hlt, hget⟩ := List.getElem?_eq_some_iff.mp hhead
    rw [remaining_skip h, ← List.drop_zero (l := remaining s), List.drop_eq_getElem_cons hlt, hget]
    rfl
  · have hbyte : (s.bitpos >>> 3).toNat = s.bitpos.toNat / 8 := by
      simp [Nat.shiftRight_eq_div_pow]
    have hbit : (s.bitpos &&& 7).toNat = s.bitpos.toNat % 8 :=
      BitVec.toNat_and .. |>.trans (Nat.and_two_pow_sub_one_eq_mod _ 3)
    rw [readBit, if_neg (by omega), hbyte, hbit]
    rfl

theorem readBit_of_atEnd {s : State} (h : s.bitpos.toNat = 8 * s.inLen.toNat) (k : Bool → State → Result) :
    readBit s k = .next (raise .unexpectedEndOfStream s) := if_pos h

theorem atEnd_of_atEnd {s : State} (h : s.bitpos.toNat = 8 * s.inLen.toNat) : s.atEnd = s := by
  rw [State.atEnd, ← h, BitVec.ofNat_toNat, BitVec.setWidth_eq]

/-- The loop of `ReadBits` puts the bits it reads above the `i` bits it already holds (R201). -/
theorem readBitsFrom_of_hasBits {n i v : Nat} {s : State} (hv : v < 2 ^ i) (h : s.hasBits n) (k : Nat → State → Result) :
    readBitsFrom n i v s k = k (v + 2 ^ i * bitsValue ((remaining s).take n)) (s.skip n) := by
  induction n generalizing i v s with
  | zero => simp [readBitsFrom, bitsValue]
  | succ n ih =>
    obtain ⟨b, hrem, hread⟩ := readBit_of_hasBits (s := s) ⟨by have := h.1; omega, h.2⟩
    have hor : v ||| b.toNat <<< i = v + 2 ^ i * b.toNat := by
      rw [Nat.or_comm, ← Nat.shiftLeft_add_eq_or_of_lt hv, Nat.shiftLeft_eq]
      ring
    have hv' : v + 2 ^ i * b.toNat < 2 ^ (i + 1) := by
      cases b <;> simp [Nat.pow_succ] <;> omega
    rw [readBitsFrom, hread, hor, ih hv' (hasBits_skip (Nat.add_comm n 1 ▸ h)), skip_skip, hrem, List.take_succ_cons,
      bitsValue, Nat.add_comm 1 n]
    congr 1
    ring

/-- Where the input ends first, the loop consumes the bits before the end and raises (R201, D10). -/
theorem readBitsFrom_of_short {n : Nat} (i v : Nat) {s : State} (hs : s.cursorOk) (h : ¬ s.hasBits n)
    (k : Nat → State → Result) : readBitsFrom n i v s k = .next (raise .unexpectedEndOfStream s.atEnd) := by
  induction n generalizing i v s with
  | zero => exact absurd hs h
  | succ n ih =>
    by_cases hend : s.bitpos.toNat = 8 * s.inLen.toNat
    · rw [readBitsFrom, readBit_of_atEnd hend, atEnd_of_atEnd hend]
    · have hone : s.hasBits 1 := ⟨by have := hs.1; omega, hs.2⟩
      obtain ⟨b, -, hread⟩ := readBit_of_hasBits hone
      have hskip := skip_bitpos_toNat hone
      rw [readBitsFrom, hread, ih _ _ (hasBits_skip (n := 0) hone)
        fun hn => h ⟨by have := hn.1; simp only [skip_inLen] at this; omega, hs.2⟩]
      rfl

/-- Settles O11: by induction on the number of bits, each read bit standing above those read before it. -/
theorem readBitsAssembles : Obligations.ReadBitsAssembles := by
  refine ⟨fun n s k _ hs => ⟨fun h => ?_, fun h => readBitsFrom_of_short 0 0 hs h k⟩, fun k => ?_⟩
  · rw [readBits, readBitsFrom_of_hasBits (by simp) h]
    simp
  · rfl

/-- Settles O12: the cursor becomes `(BITPOS + 7) / 8 * 8`, and no other field is written. -/
theorem alignByteRoundsUp : Obligations.AlignByteRoundsUp := by
  intro s hs
  have hpos := alignByte_bitpos_toNat hs
  obtain ⟨hle, -⟩ := hs
  exact ⟨(alignByte s).bitpos, rfl, by omega, by omega, by omega, by omega, fun h => BitVec.eq_of_toNat_eq (by omega)⟩

end Sys2Proof.Machine
end

section
/-! No look-ahead can be observed (R205): a calculus of meanings that depend on no input bit but those they consume. -/

namespace Sys2Proof.Machine

/-! ## The statement about one meaning -/

/-- The same state over another input memory. -/
def State.withIn (m : Memory) (s : State) : State := { s with inMem := m }

@[simp] theorem withIn_phase (m : Memory) (s : State) : (s.withIn m).phase = s.phase := rfl
@[simp] theorem withIn_bitpos (m : Memory) (s : State) : (s.withIn m).bitpos = s.bitpos := rfl
@[simp] theorem withIn_inLen (m : Memory) (s : State) : (s.withIn m).inLen = s.inLen := rfl
@[simp] theorem withIn_tLL (m : Memory) (s : State) : (s.withIn m).tLL = s.tLL := rfl
@[simp] theorem withIn_tD (m : Memory) (s : State) : (s.withIn m).tD = s.tD := rfl
@[simp] theorem withIn_tCL (m : Memory) (s : State) : (s.withIn m).tCL = s.tCL := rfl

/-- `m` holds the input's bits from the cursor up to bit `stop`. -/
def SameBits (m : Memory) (s : State) (stop : Nat) : Prop :=
  ∀ k, s.bitpos.toNat ≤ k → k < stop →
    (Memory.read m (k / 8)).getLsbD (k % 8) = (Memory.read s.inMem (k / 8)).getLsbD (k % 8)

/-- From `s` to `t` the reader consumed `w` bits or more, or reached the end of the input, which it does not write (R200). -/
structure Consumes (w : Nat) (s t : State) : Prop where
  inMem : t.inMem = s.inMem
  inLen : t.inLen = s.inLen
  reach : min (s.bitpos.toNat + w) (8 * s.inLen.toNat) ≤ t.bitpos.toNat

theorem Consumes.mono {w w' : Nat} {s t : State} (h : Consumes w s t) (hw : w' ≤ w) : Consumes w' s t :=
  ⟨h.inMem, h.inLen, by have := h.reach; omega⟩

/-- Started in `s`, the meaning `f` consumes at least `w` bits (or runs out of input), and the next state it answers depends on
no input bit but those it consumes (R205). -/
def NoLookAheadAt (w : Nat) (f : State → Result) (s : State) : Prop :=
  s.cursorOk → ∀ t, f s = .next t →
    Consumes w s t ∧ ∀ m, SameBits m s t.bitpos.toNat → f (s.withIn m) = .next (t.withIn m)

/-- `NoLookAheadAt` from every state. -/
def NoLookAhead (w : Nat) (f : State → Result) : Prop := ∀ s, NoLookAheadAt w f s

/-- An update of registers that the reader does not use. -/
structure OffReader (g : State → State) : Prop where
  bitpos : ∀ s, (g s).bitpos = s.bitpos := by intros; rfl
  inLen : ∀ s, (g s).inLen = s.inLen := by intros; rfl
  inMem : ∀ s, (g s).inMem = s.inMem := by intros; rfl
  withIn : ∀ s m, g (s.withIn m) = (g s).withIn m := by intros; rfl

theorem offReader_raise (e : Err) : OffReader (raise e) := {}

theorem offReader_ite {p : State → Prop} [∀ s, Decidable (p s)] {f g : State → State}
    (hp : ∀ s m, p (s.withIn m) ↔ p s) (hf : OffReader f) (hg : OffReader g) :
    OffReader fun s => if p s then f s else g s where
  bitpos s := by split <;> simp only [hf.bitpos, hg.bitpos]
  inLen s := by split <;> simp only [hf.inLen, hg.inLen]
  inMem s := by split <;> simp only [hf.inMem, hg.inMem]
  withIn s m := by simp only [hp, hf.withIn, hg.withIn]; split <;> rfl

/-! ## One rule per way a meaning is built -/

namespace NoLookAhead

theorem ofNext {g : State → State} (hg : OffReader g) : NoLookAhead 0 fun s => .next (g s) := by
  rintro s - t ⟨⟩
  exact ⟨⟨hg.inMem s, hg.inLen s, by rw [hg.bitpos]; omega⟩, fun m _ => congrArg Host.Outcome.next (hg.withIn s m)⟩

theorem ofFault (w : Nat) (r : Fault) : NoLookAhead w fun _ => .fault r := by
  rintro s - t ⟨⟩

theorem ofUpdate {w : Nat} {f : State → Result} {g : State → State} (hg : OffReader g) (hf : NoLookAhead w f) :
    NoLookAhead w fun s => f (g s) := by
  intro s hs t ht
  have hs' : (g s).cursorOk := by simpa only [State.cursorOk, hg.bitpos, hg.inLen] using hs
  obtain ⟨hc, hm⟩ := hf (g s) hs' t ht
  refine ⟨⟨hc.inMem.trans (hg.inMem s), hc.inLen.trans (hg.inLen s), ?_⟩, fun m hsame => ?_⟩
  · simpa only [hg.bitpos, hg.inLen] using hc.reach
  · exact (congrArg f (hg.withIn s m)).trans (hm m (by simpa only [SameBits, hg.bitpos, hg.inMem] using hsame))

theorem ofIte {w : Nat} {p : State → Prop} [∀ s, Decidable (p s)] {f g : State → Result}
    (hp : ∀ s m, p (s.withIn m) ↔ p s) (hf : NoLookAhead w f) (hg : NoLookAhead w g) :
    NoLookAhead w fun s => if p s then f s else g s := by
  intro s hs t ht
  by_cases h : p s
  · simp only [hp, h, if_true] at ht ⊢
    exact hf s hs t ht
  · simp only [hp, h, if_false] at ht ⊢
    exact hg s hs t ht

/-- A field is consumed, or the input ends inside it; either way its bits are. -/
theorem ofField {n w : Nat} {k : State → Result} (hk : NoLookAhead w k) :
    NoLookAhead (w + n) fun s => field n s k := by
  intro s hs t ht
  rcases field_cases ht with ⟨hb, ht⟩ | ⟨hshort, rfl⟩
  · have hn : s.hasBits n := ⟨hb, hs.2⟩
    have hpos := skip_bitpos_toNat hn
    obtain ⟨hc, hm⟩ := hk (s.skip n) (hasBits_skip (n := 0) hn) t ht
    have hreach := hc.reach
    rw [hpos, skip_inLen] at hreach
    refine ⟨⟨hc.inMem, hc.inLen, by omega⟩, fun m hsame => ?_⟩
    exact (field_of_hasBits (s := s.withIn m) hb k).trans (hm m fun j hj => hsame j (by omega))
  · refine ⟨⟨rfl, rfl, ?_⟩, fun m _ => field_of_short (s := s.withIn m) hshort k⟩
    rw [raise_bitpos, atEnd_bitpos_toNat hs.2]
    omega

theorem ofLastField {n : Nat} {k : State → Result} (hk : NoLookAhead 0 k) : NoLookAhead n fun s => field n s k := by
  have h := ofField (n := n) hk
  rwa [Nat.zero_add] at h

theorem ofAppend {b : State → Byte} {k : State → Result} (hb : ∀ s m, b (s.withIn m) = b s)
    (hk : NoLookAhead 0 k) : NoLookAhead 0 fun s => append (b s) s k :=
  ofIte (fun _ _ => Iff.rfl) (ofNext {}) (ofUpdate { withIn := fun s m => by rw [hb]; rfl } hk)

theorem ofBuildThen {ls : State → List Nat} {g : State → State} {k : Tree → State → Result}
    (hls : ∀ s m, ls (s.withIn m) = ls s) (hg : OffReader g) (hk : ∀ t, NoLookAhead 0 (k t)) :
    NoLookAhead 0 fun s => buildThen (ls s) (g s) fun t => k t s := by
  intro s hs t ht
  simp only [hls]
  rcases h : Huffman.build (ls s) with _ | tree
  · simp only [buildThen_none h] at ht ⊢
    exact ofUpdate hg (ofNext (offReader_raise _)) s hs t ht
  · simp only [buildThen_some h] at ht ⊢
    exact hk tree s hs t ht

end NoLookAhead

/-! ## Looking ahead in the window -/

theorem window_getElem?_eq (s : State) (k : Nat) :
    (window s)[k]? = if k < (window s).length then
      some ((inByte s ((s.bitpos.toNat + k) / 8)).getLsbD ((s.bitpos.toNat + k) % 8)) else none := by
  split
  next h =>
    rw [window_length] at h
    rw [window, List.getElem?_drop, bitsOfBytes_getElem?, List.getElem?_map, List.getElem?_range (by omega),
      show (s.bitpos.toNat + k) / 8 = s.bitpos.toNat / 8 + (s.bitpos.toNat % 8 + k) / 8 by omega,
      show (s.bitpos.toNat + k) % 8 = (s.bitpos.toNat % 8 + k) % 8 by omega]
    rfl
  next h => exact List.getElem?_eq_none (by omega)

/-- A memory that holds the consumed bits gives the same look-ahead as far as they go: beyond the end of the input both count
as zeros (log 7). -/
theorem window_take_withIn {m : Memory} {s t : State} {w : Nat} (h : Consumes w s t)
    (hm : SameBits m s t.bitpos.toNat) : (window (s.withIn m)).take w = (window s).take w := by
  have hbit : ∀ k < w, (inByte (s.withIn m) ((s.bitpos.toNat + k) / 8)).getLsbD ((s.bitpos.toNat + k) % 8) =
      (inByte s ((s.bitpos.toNat + k) / 8)).getLsbD ((s.bitpos.toNat + k) % 8) := by
    intro k hk
    have hreach := h.reach
    by_cases hin : (s.bitpos.toNat + k) / 8 < s.inLen.toNat
    · rw [inByte, inByte, if_pos hin, withIn_inLen, if_pos hin]
      exact hm _ (by omega) (by omega)
    · rw [inByte, inByte, if_neg hin, withIn_inLen, if_neg hin]
  apply List.ext_getElem?
  intro k
  rw [List.getElem?_take, List.getElem?_take]
  split
  next hk =>
    rw [window_getElem?_eq, window_getElem?_eq, window_length, window_length, withIn_bitpos, hbit k hk]
  next => rfl

/-- What a meaning looks up in the window may steer it, where it consumes the bits that decide it. -/
theorem NoLookAheadAt.ofWindow {F : Bits → State → Result} {w : Nat} {s : State}
    (hF : NoLookAheadAt w (F (window s)) s)
    (hw : ∀ bits, bits.take w = (window s).take w → F bits = F (window s)) :
    NoLookAheadAt 0 (fun s => F (window s) s) s := by
  intro hs t ht
  obtain ⟨hc, hm⟩ := hF hs t ht
  refine ⟨hc.mono (Nat.zero_le w), fun m hsame => ?_⟩
  exact (congrFun (hw _ (window_take_withIn hc hsame)) _).trans (hm m hsame)

theorem getField_congr {w : Nat} {bits bits' : Bits} (h : bits.take w = bits'.take w) :
    getField w bits = getField w bits' := by rw [getField, h, getField]

theorem take_drop_congr {n : Nat} (off w : Nat) {bits bits' : Bits} (h : bits.take n = bits'.take n)
    (hn : off + w ≤ n) : (bits.drop off).take w = (bits'.drop off).take w := by
  have hdrop := congrArg (fun l => (l.drop off).take w) h
  simpa only [List.drop_take, List.take_take, Nat.min_eq_left (show w ≤ n - off by omega)] using hdrop

/-- A field inside the first `n` bits depends on no others. -/
theorem getField_drop_congr {n : Nat} (off w : Nat) {bits bits' : Bits} (h : bits.take n = bits'.take n)
    (hn : off + w ≤ n) : getField w (bits.drop off) = getField w (bits'.drop off) :=
  getField_congr (take_drop_congr off w h hn)

/-- A row whose one operand is the field that comes next. -/
theorem NoLookAhead.ofOperand {w : Nat} {row : BitVec w → State → Result} (h : ∀ e, NoLookAhead w (row e)) :
    NoLookAhead 0 fun s => row (getField w (window s)) s := fun s =>
  .ofWindow (F := fun bits => row (getField w bits)) (h _ s) fun _ htake =>
    congrArg row (getField_congr htake)

/-! ## Symbols -/

/-- A code is found only where all its bits are there, in any tree (R225, R226). -/
theorem decode_length_le {t : Tree} {bits : Bits} {sym n : Nat} (h : Huffman.decode t bits = some (sym, n)) :
    n ≤ bits.length := by
  unfold Huffman.decode at h
  split at h
  next c _ =>
    split at h
    next hl =>
      obtain ⟨-, rfl⟩ : c.sym = sym ∧ c.len = n := by simpa using h
      exact hl
    next => cases h
  next => simpa using (Huffman.walk_bounds t _ _ _ _ _ _ h).2.2

/-- A decoded symbol depends on the bits of its code only. -/
theorem decode_congr_of_some {t : Tree} {bits bits' : Bits} {sym n : Nat} (h : Huffman.decode t bits = some (sym, n))
    (htake : bits'.take n = bits.take n) : Huffman.decode t bits' = some (sym, n) := by
  obtain ⟨hfound, hnone⟩ := Huffman.decode_append t (bits.take n) (bits.drop n)
  rw [List.take_append_drop, h] at hfound hnone
  rcases hd : Huffman.decode t (bits.take n) with _ | r
  · have hn := decode_length_le h
    have := hnone sym n hd rfl
    rw [List.length_take] at this
    omega
  · obtain rfl := Option.some.inj (hfound r hd)
    rw [← List.take_append_drop n bits', htake]
    exact (Huffman.decode_append t _ _).1 _ hd

/-- That no code matches depends on 15 bits only (R225). -/
theorem decode_congr_of_none {t : Tree} {bits bits' : Bits} (h : Huffman.decode t bits = none)
    (hlen : bits'.length = bits.length) (htake : bits'.take Config.maxBits = bits.take Config.maxBits) :
    Huffman.decode t bits' = none := by
  unfold Huffman.decode at h ⊢
  split at h
  next => rwa [hlen]
  next => rwa [← Huffman.walk_take t _ 0 0 _ _ (Nat.le_refl _), htake, Huffman.walk_take t _ 0 0 _ _ (Nat.le_refl _)]

/-- `Decode` consumes the bits that decide it: those of the code it finds, or the 15 that match none (R225–R227). -/
theorem NoLookAhead.ofHuff {t : Tree} {k : Nat → State → Result} (hk : ∀ sym, NoLookAhead 0 (k sym)) :
    NoLookAhead 0 fun s => huff t s k := by
  intro s hs s' h
  rcases huff_cases h with ⟨sym, n, hd, h⟩ | ⟨hd, h⟩
  · obtain ⟨hc, hm⟩ := ofLastField (hk sym) s hs s' h
    refine ⟨hc.mono (Nat.zero_le _), fun m hsame => ?_⟩
    simp only [huff, decode_congr_of_some hd (window_take_withIn hc hsame)]
    exact hm m hsame
  · obtain ⟨hc, hm⟩ := ofLastField (ofNext (offReader_raise .invalidHuffmanCode)) s hs s' h
    refine ⟨hc.mono (Nat.zero_le _), fun m hsame => ?_⟩
    have hlen : (window (s.withIn m)).length = (window s).length := by simp [window_length]
    simp only [huff, decode_congr_of_none hd hlen (window_take_withIn hc hsame)]
    exact hm m hsame

end Sys2Proof.Machine
end

section
/-! Every meaning of the engine, and its step, by the rules for what it is built of (R205). -/

namespace Sys2Proof.Machine

open NoLookAhead

/-! ## Headers and stored blocks -/

theorem blockHdr_noLookAhead (final : Bool) (btype : BitVec 2) {k : State → Result} (hk : NoLookAhead 0 k) :
    NoLookAhead 3 fun s => blockHdr final btype s k :=
  ofField <| ofUpdate (f := fun s => field 2 s _) (g := fun s => { s with bfinal := final }) {} <|
  ofField <| ofUpdate (g := fun s => { s with btype := btype }) {} hk

/-- Both `Build`s of a block read tables only. -/
theorem buildTrees_noLookAhead {ll d : State → List Nat} {g : State → State} (hll : ∀ s m, ll (s.withIn m) = ll s)
    (hd : ∀ s m, d (s.withIn m) = d s) (hg : OffReader g) :
    NoLookAhead 0 fun s => buildTrees (ll s) (d s) (g s) := by
  refine ofBuildThen hll hg fun tLL => ofBuildThen (g := fun s => { g s with tLL := some tLL }) hd ?_ fun tD =>
    ofNext (g := fun s => { g s with tLL := some tLL, tD := some tD, phase := .sym }) ?_
  all_goals exact ⟨hg.bitpos, hg.inLen, hg.inMem, fun s m => by rw [hg.withIn]; rfl⟩

theorem offReader_setFixedTables : OffReader setFixedTables where
  bitpos s := by rw [setFixedTables_eq]
  inLen s := by rw [setFixedTables_eq]
  inMem s := by rw [setFixedTables_eq]
  withIn s m := by
    rw [setFixedTables_eq, setFixedTables_eq]
    rfl

theorem exec_blockRow_noLookAhead (btype : BitVec 2) (final : Bool) : NoLookAhead 3 (exec (blockRow btype final)) := by
  have hcases : btype = 0#2 ∨ btype = 1#2 ∨ btype = 2#2 ∨ btype = 3#2 := by
    revert btype
    decide
  obtain rfl | rfl | rfl | rfl := hcases
  · show NoLookAhead 3 (execStored final)
    exact blockHdr_noLookAhead _ _ (ofNext {})
  · show NoLookAhead 3 (execFixed final)
    exact blockHdr_noLookAhead _ _ (buildTrees_noLookAhead (fun _ _ => rfl) (fun _ _ => rfl) offReader_setFixedTables)
  · show NoLookAhead 3 (execDynamic final)
    exact blockHdr_noLookAhead _ _ (ofNext {})
  · show NoLookAhead 3 (execReserved final)
    exact blockHdr_noLookAhead _ _ (ofNext {})

theorem blockHdrElem_congr {bits bits' : Bits} (h : bits.take 3 = bits'.take 3) : blockHdrElem bits = blockHdrElem bits' := by
  have hfinal : bits.headD false = bits'.headD false := by
    have := congrArg (·.headD false) h
    simpa [List.headD_eq_head?_getD, List.head?_take] using this
  rw [blockHdrElem, getField_drop_congr 1 2 h (by omega), hfinal, blockHdrElem]

/-- The pad bits of a byte boundary are consumed by `AlignByte` (R203). -/
theorem alignByte_noLookAheadAt {w : Nat} {f : State → Result} (hf : NoLookAhead w f) (s : State) :
    NoLookAheadAt (padBits s + w) (fun s => f (alignByte s)) s := by
  intro hs t ht
  have hpos := alignByte_bitpos_toNat hs
  have hpad : (alignByte s).bitpos.toNat = s.bitpos.toNat + padBits s := by
    rw [padBits]
    omega
  have hs' : (alignByte s).cursorOk := ⟨by have := hs.1; rw [alignByte_inLen]; omega, hs.2⟩
  obtain ⟨hc, hm⟩ := hf (alignByte s) hs' t ht
  have hreach := hc.reach
  rw [hpad, alignByte_inLen] at hreach
  exact ⟨⟨hc.inMem, hc.inLen, by omega⟩, fun m hsame => hm m fun j hj => hsame j (by omega)⟩

theorem execStoredHdr_noLookAheadAt (len nlen : BitVec 16) (s : State) :
    NoLookAheadAt (padBits s + 32) (execStoredHdr len nlen) s := by
  refine alignByte_noLookAheadAt (ofField <| ofUpdate (f := fun s => field 16 s _) (g := fun s => { s with storedLen := len }) {}
    (ofField (w := 0) ?_)) s
  exact ofIte (fun _ _ => Iff.rfl) (ofNext {}) (ofIte (fun _ _ => Iff.rfl) (ofNext {}) (ofNext {}))

theorem storedHdrElem_congr {pad : Nat} {bits bits' : Bits} (h : bits.take (pad + 32) = bits'.take (pad + 32)) :
    storedHdrElem pad bits = storedHdrElem pad bits' := by
  rw [storedHdrElem, getField_drop_congr pad 16 h (by omega), getField_drop_congr (pad + 16) 16 h (by omega), storedHdrElem]

theorem execStoredByte_noLookAhead (data : Byte) : NoLookAhead 8 (execStoredByte data) :=
  ofField <| ofAppend (fun _ _ => rfl) <| ofNext <|
    offReader_ite (p := fun s => s.storedRem - 1 = 0) (fun _ _ => Iff.rfl) {} {}

/-! ## Dynamic headers -/

theorem clLengths_noLookAhead (lens : List (Nat × BitVec 3)) {k : State → Result} (hk : NoLookAhead 0 k) :
    NoLookAhead (3 * lens.length) fun s => clLengths lens s k := by
  induction lens with
  | nil => exact hk
  | cons il rest ih =>
    exact ofField <| ofUpdate (f := fun s => clLengths rest s k)
      (g := fun s => { s with clLen := tableSet s.clLen il.1 il.2 }) {} ih

theorem execDynHdr_noLookAhead (hlit hdist : BitVec 5) (hclen : BitVec 4) (lens : List (BitVec 3)) :
    NoLookAhead (3 * (clOrder.zip lens).length + 14) (execDynHdr hlit hdist hclen lens) :=
  ofField <| ofUpdate (f := fun s => field 5 s _) (g := fun s => { s with hlit := hlit }) {} <|
  ofField <| ofUpdate (f := fun s => field 4 s _) (g := fun s => { s with hdist := hdist }) {} <|
  ofField <| ofUpdate (f := fun s => clLengths (clOrder.zip lens) s _)
    (g := fun s => { s with hclen := hclen, clLen := tableOf 3 19 fun _ => 0 }) {} <|
  clLengths_noLookAhead _ <| ofBuildThen (fun _ _ => rfl) {} fun _ => ofNext {}

theorem getFields3_length (n : Nat) (bits : Bits) : (getFields3 n bits).length = n := by
  induction n generalizing bits with
  | zero => rfl
  | succ n ih => rw [getFields3, List.length_cons, ih]

theorem getFields3_congr {n : Nat} {bits bits' : Bits} (h : bits.take (3 * n) = bits'.take (3 * n)) :
    getFields3 n bits = getFields3 n bits' := by
  induction n generalizing bits bits' with
  | zero => rfl
  | succ n ih =>
    rw [getFields3, getFields3, ih (take_drop_congr 3 (3 * n) h (by omega)),
      show getField 3 bits = _ from getField_drop_congr 0 3 h (by omega)]
    rfl

theorem clCount_le (bits : Bits) : clCount bits ≤ 19 := by
  have := (getField 4 (bits.drop 10)).isLt
  rw [clCount]
  omega

theorem dynHdrElem_congr {bits bits' : Bits} (h : bits.take (3 * clCount bits' + 14) = bits'.take (3 * clCount bits' + 14)) :
    dynHdrElem bits = dynHdrElem bits' := by
  have hclen : getField 4 (bits.drop 10) = getField 4 (bits'.drop 10) := getField_drop_congr 10 4 h (by omega)
  have hcount : clCount bits = clCount bits' := by rw [clCount, hclen, clCount]
  rw [dynHdrElem, hclen, hcount, getFields3_congr (take_drop_congr 14 _ h (by omega)),
    getField_drop_congr 5 5 h (by omega), show getField 5 bits = _ from getField_drop_congr 0 5 h (by omega)]
  rfl

/-- How many bits a dynamic header takes is in its `HCLEN`, which it consumes (R144). -/
theorem exec_dynHdrElem_noLookAhead (bits : Bits) : NoLookAhead (3 * clCount bits + 14) (exec (dynHdrElem bits)) := by
  have hlen : (clOrder.zip (getFields3 (clCount bits) (bits.drop 14))).length = clCount bits := by
    rw [List.length_zip, getFields3_length]
    exact Nat.min_eq_right (clCount_le bits)
  have h := execDynHdr_noLookAhead (getField 5 bits) (getField 5 (bits.drop 5)) (getField 4 (bits.drop 10))
    (getFields3 (clCount bits) (bits.drop 14))
  rwa [hlen] at h

/-! ## Code-length symbols -/

theorem descriptorFinish_noLookAhead : NoLookAhead 0 descriptorFinish :=
  buildTrees_noLookAhead (fun _ _ => rfl) (fun _ _ => rfl) {}

theorem clFinish_noLookAhead : NoLookAhead 0 clFinish :=
  ofIte (fun _ _ => Iff.rfl) descriptorFinish_noLookAhead (ofNext {})

theorem clRun_noLookAhead (r : Nat) {v : State → BitVec 4} (hv : ∀ s m, v (s.withIn m) = v s) :
    NoLookAhead 0 fun s => clRun r (v s) s :=
  ofIte (fun _ _ => Iff.rfl) (ofNext {}) <| ofUpdate (f := clFinish)
    (g := fun s => { s with seq := tableFill s.seq s.seqIdx.toNat (v s) r, seqIdx := s.seqIdx + BitVec.ofNat 9 r })
    { withIn := fun s m => by rw [hv]; rfl } clFinish_noLookAhead

/-- `CL16` reads its extra bits only where it has a predecessor (R255). -/
theorem execClRep16_window_noLookAhead : NoLookAhead 0 fun s => execClRep16 (getField 2 (window s)) s :=
  ofIte (fun _ _ => Iff.rfl) (ofNext {}) <|
    ofOperand (row := fun extra s => field 2 s fun s => clRun (3 + extra.toNat) (tableGet s.seq (s.seqIdx.toNat - 1)) s)
      fun _ => ofLastField <| clRun_noLookAhead _ fun _ _ => rfl

theorem exec_clRow_noLookAhead (sym : Nat) : NoLookAhead 0 fun s => exec (clRow sym (window s)) s := by
  by_cases h15 : sym ≤ 15
  · simp only [clRow, h15, if_true]
    exact ofUpdate (f := clFinish) {} clFinish_noLookAhead
  by_cases h16 : sym = 16
  · subst h16
    exact execClRep16_window_noLookAhead
  by_cases h17 : sym = 17
  · subst h17
    exact ofOperand (row := execClZero17) fun _ => ofLastField <| clRun_noLookAhead _ fun _ _ => rfl
  · simp only [clRow, h15, h16, h17, if_false]
    exact ofOperand (row := execClZero18) fun _ => ofLastField <| clRun_noLookAhead _ fun _ _ => rfl

/-! ## Lengths and distances -/

theorem offReader_copyStart : OffReader copyStart :=
  offReader_ite (p := fun s => s.matchDist.toNat < 1 ∨ s.outLen.toNat < s.matchDist.toNat) (fun _ _ => Iff.rfl) {} {}

theorem distRow_noLookAhead {w : Nat} (base : Nat) (extra : BitVec w) : NoLookAhead w (distRow base extra) :=
  ofLastField <| ofUpdate (g := fun s => { s with matchDist := BitVec.ofNat 16 (base + extra.toNat) }) {} <|
    ofNext offReader_copyStart

/-- Each distance row reads its extra field only (R360). -/
theorem distanceSymbol_noLookAhead : ∀ sym, NoLookAhead 0 (distanceSymbol sym)
  | 0 | 1 | 2 | 3 => distRow_noLookAhead _ 0#0
  | 4 | 5 | 6 | 7 | 8 | 9 | 10 | 11 | 12 | 13 | 14 | 15 | 16 | 17 | 18 | 19 | 20 | 21 | 22 | 23 | 24 | 25 | 26 | 27 | 28 | 29 =>
    ofOperand fun extra => distRow_noLookAhead _ extra
  | 30 => ofNext {}
  | _ + 31 => ofNext {}

theorem distance_noLookAhead : NoLookAhead 0 distance := by
  intro s
  rcases htree : s.tD with _ | tree
  · rintro - t ht
    rw [distance, htree] at ht
    cases ht
  · have h := ofHuff (t := tree) distanceSymbol_noLookAhead s
    simp only [NoLookAheadAt, distance, withIn_tD, htree] at h ⊢
    exact h

theorem lengthRow_noLookAhead {w : Nat} (base : Nat) (extra : BitVec w) : NoLookAhead w (lengthRow base extra) :=
  ofLastField <| ofUpdate (g := fun s => { s with matchLen := BitVec.ofNat 9 (base + extra.toNat) }) {} distance_noLookAhead

/-- Each literal/length row reads its extra field, and a length row the distance behind it (R287, R320). -/
theorem exec_llRow_noLookAhead (sym : Nat) : NoLookAhead 0 fun s => exec (llRow sym (window s)) s := by
  by_cases hlit : sym < 256
  · simp only [llRow, hlit, if_true]
    exact ofAppend (fun _ _ => rfl) (ofNext {})
  by_cases heob : sym = 256
  · subst heob
    exact ofNext {}
  by_cases hshort : sym < 265
  · have hlen : 257 ≤ sym := by omega
    interval_cases sym
    all_goals exact lengthRow_noLookAhead _ 0#0
  by_cases hextra : sym < 285
  · interval_cases sym
    all_goals exact ofOperand fun extra => lengthRow_noLookAhead _ extra
  by_cases h285 : sym = 285
  · subst h285
    exact lengthRow_noLookAhead _ 0#0
  by_cases h286 : sym = 286
  · subst h286
    exact ofNext {}
  · obtain ⟨k, rfl⟩ : ∃ k, sym = k + 287 := ⟨sym - 287, by omega⟩
    simp only [llRow, hlit, if_false]
    exact ofNext {}

/-! ## The step -/

theorem runSymbol_noLookAhead (tree : Option Tree) {row : Nat → Bits → Instr}
    (hrow : ∀ sym, NoLookAhead 0 fun s => exec (row sym (window s)) s) : NoLookAhead 0 (runSymbol tree row) := by
  rcases tree with _ | t
  · exact ofFault 0 _
  · exact ofHuff hrow

theorem copyStep_noLookAhead : NoLookAhead 0 copyStep :=
  ofIte (fun _ _ => Iff.rfl) (ofFault 0 _) (ofAppend (fun _ _ => rfl) (ofNext {}))

/-- One step of the engine depends on no input bit but those it consumes (R205). -/
theorem engineStep_noLookAhead : NoLookAhead 0 engineStep := by
  intro s
  rcases hphase : s.phase
  all_goals simp only [NoLookAheadAt, engineStep, withIn_phase, withIn_tCL, withIn_tLL, hphase]
  case hdr =>
    exact NoLookAheadAt.ofWindow (F := fun bits => exec (blockHdrElem bits)) (exec_blockRow_noLookAhead _ _ s)
      fun _ htake => congrArg exec (blockHdrElem_congr htake)
  case storedHdr =>
    exact NoLookAheadAt.ofWindow (F := fun bits => exec (storedHdrElem (padBits s) bits)) (execStoredHdr_noLookAheadAt _ _ s)
      fun _ htake => congrArg exec (storedHdrElem_congr htake)
  case storedData => exact ofOperand execStoredByte_noLookAhead s
  case dynHdr =>
    exact NoLookAheadAt.ofWindow (F := fun bits => exec (dynHdrElem bits)) (exec_dynHdrElem_noLookAhead _ s)
      fun _ htake => congrArg exec (dynHdrElem_congr htake)
  case dynSeq => exact runSymbol_noLookAhead s.tCL exec_clRow_noLookAhead s
  case sym => exact runSymbol_noLookAhead s.tLL exec_llRow_noLookAhead s
  case copy => exact copyStep_noLookAhead s
  case idle | paused | done | error => exact ofNext (g := fun s => s) {} s

/-- Settles O13: every meaning consumes the bits that decide its answer, or stands at the end of the input, beyond which the
look-ahead holds zeros. -/
theorem noObservableLookAhead : Obligations.NoObservableLookAhead := by
  intro s t m hs ht hsame
  obtain ⟨hc, hm⟩ := engineStep_noLookAhead s hs t ht
  exact ⟨hc.inMem, hm m hsame⟩

end Sys2Proof.Machine
end

section
/-! Canonical codes (42_huffman.md §1): Kraft's inequality as one condition on the longest length, and the codes of a built tree
as the places of a length in the list. -/

namespace Sys2Proof.Huffman

/-! ## First codes (R221) -/

/-- Every shorter code, with its extensions, lies below the first code of a longer length (R229). -/
theorem firstCode_add_count_mul_le (ls : List Nat) {l m : Nat} (h : l < m) :
    (firstCode ls l + count ls l) * 2 ^ (m - l) ≤ firstCode ls m := by
  induction m, h using Nat.le_induction with
  | base => simp [firstCode]
  | succ m hm ih =>
    calc (firstCode ls l + count ls l) * 2 ^ (m + 1 - l)
        = (firstCode ls l + count ls l) * 2 ^ (m - l) * 2 := by rw [Nat.succ_sub (by omega), Nat.pow_succ, Nat.mul_assoc]
      _ ≤ (firstCode ls m + count ls m) * 2 := Nat.mul_le_mul_right 2 (by omega)

/-- The end of the codes of length `n` is Kraft's sum over the lengths up to `n`, in units of `2^−n` (R222). -/
theorem firstCode_add_count_eq_sum (ls : List Nat) (n : Nat) :
    firstCode ls n + count ls n = ((List.range n).map fun k => ls.count (k + 1) * 2 ^ (n - 1 - k)).sum := by
  induction n with
  | zero => simp [firstCode, count]
  | succ n ih =>
    have hdouble : ((List.range n).map fun k => ls.count (k + 1) * 2 ^ (n - k)).sum =
        ((List.range n).map fun k => ls.count (k + 1) * 2 ^ (n - 1 - k)).sum * 2 := by
      rw [← List.sum_map_mul_right]
      refine congrArg List.sum (List.map_congr_left fun k hk => ?_)
      rw [Nat.mul_assoc, ← Nat.pow_succ, show n - k = (n - 1 - k).succ by have := List.mem_range.mp hk; omega]
    rw [List.range_succ, List.map_append, List.sum_append, Nat.add_sub_cancel, hdouble, ← ih]
    simp [firstCode, count]

/-- Lengths fit, one by one, exactly when the longest one does: the shorter codes lie below it. -/
theorem build_isSome_iff_longest (ls : List Nat) :
    (build ls).isSome = true ↔ firstCode ls 15 + count ls 15 ≤ 2 ^ 15 := by
  rw [build_isSome_iff]
  refine ⟨fun h => h 15 (by omega) (Nat.le_refl _), fun h l _ hl => ?_⟩
  obtain rfl | hlt : l = 15 ∨ l < 15 := Nat.eq_or_lt_of_le hl
  · exact h
  · have hbelow := firstCode_add_count_mul_le ls hlt
    refine Nat.le_of_mul_le_mul_right ?_ (Nat.two_pow_pos (15 - l))
    calc (firstCode ls l + count ls l) * 2 ^ (15 - l) ≤ 2 ^ 15 := by omega
      _ = 2 ^ l * 2 ^ (15 - l) := by rw [← Nat.pow_add, Nat.add_sub_of_le hlt.le]

/-- Settles O5: Kraft's sum is where the codes of 15 bits end, and the shorter codes lie below them. -/
theorem buildAcceptsKraft : Obligations.BuildAcceptsKraft := by
  refine ⟨fun ls => ?_, build_isSome_iff, rfl, rfl, fun ls s k h => Machine.buildThen_none h s k⟩
  rw [build_isSome_iff_longest, firstCode_add_count_eq_sum]

/-! ## The codes of a built tree (R223) -/

/-- Unused symbols take no code (R221). -/
theorem lt_count_iff {ls : List Nat} {l n : Nat} : n < count ls l ↔ l ≠ 0 ∧ n < ls.count l := by
  unfold count
  split <;> simp [*]

/-- The codes of length `l` number its places in the list: code `first_code[l] + n` stands for the `n`-th symbol of that length. -/
theorem mem_build_iff_nth {ls : List Nat} {t : Tree} (h : build ls = some t) (hl : ∀ l ∈ ls, l ≤ Config.maxBits) (c : Code) :
    c ∈ t.codes ↔ ∃ n < count ls c.len, c.code = firstCode ls c.len + n ∧ c.sym = ls.idxOfNth c.len n := by
  rw [mem_build h hl]
  constructor
  · rintro ⟨k, hk, rfl, hlen, h0, hcode⟩
    rw [hlen]
    refine ⟨(ls.take c.sym).count ls[c.sym], ?_, hcode, ?_⟩
    · exact lt_count_iff.mpr ⟨h0, List.count_getElem_take_lt_count⟩
    · rw [← List.countBefore_eq_count_take, List.idxOfNth_countBefore_getElem]
  · rintro ⟨n, hn, hcode, hsym⟩
    obtain ⟨h0, hn⟩ := lt_count_iff.mp hn
    have hk := List.idxOfNth_lt_length_of_lt_count hn
    have hget : ls[ls.idxOfNth c.len n] = c.len := List.getElem_idxOfNth_eq
    refine ⟨_, hk, hsym, hget.symm, by rwa [hget], ?_⟩
    rw [hget, ← List.countBefore_eq_count_take, List.countBefore_idxOfNth_of_lt_count hn, hcode]

section
variable {ls : List Nat} {t : Tree} (h : build ls = some t) (hl : ∀ l ∈ ls, l ≤ Config.maxBits)
include h hl

/-- The code values of a length are consecutive (R229). -/
theorem exists_code_iff (l v : Nat) : (∃ c ∈ t.codes, c.len = l ∧ c.code = v) ↔
    firstCode ls l ≤ v ∧ v < firstCode ls l + count ls l := by
  constructor
  · rintro ⟨c, hc, rfl, rfl⟩
    obtain ⟨n, hn, hcode, -⟩ := (mem_build_iff_nth h hl c).mp hc
    omega
  · rintro ⟨hle, hlt⟩
    obtain ⟨n, rfl⟩ := Nat.exists_eq_add_of_le hle
    exact ⟨⟨l, firstCode ls l + n, ls.idxOfNth l n⟩,
      (mem_build_iff_nth h hl _).mpr ⟨n, Nat.add_lt_add_iff_left.mp hlt, rfl, rfl⟩, rfl, rfl⟩

/-- Codes of one length ascend with their symbols (R229). -/
theorem sym_lt_iff_code_lt {c c' : Code} (hc : c ∈ t.codes) (hc' : c' ∈ t.codes) (hlen : c.len = c'.len) :
    c.sym < c'.sym ↔ c.code < c'.code := by
  obtain ⟨n, hn, hcode, hsym⟩ := (mem_build_iff_nth h hl c).mp hc
  obtain ⟨n', -, hcode', hsym'⟩ := (mem_build_iff_nth h hl c').mp hc'
  rw [hsym, hsym', ← hlen, List.idxOfNth_lt_idxOfNth_iff_of_lt_count (lt_count_iff.mp hn).2, hcode, hcode', ← hlen]
  omega

/-- A code determines its entry (R220). -/
theorem eq_of_len_eq_of_code_eq {c c' : Code} (hc : c ∈ t.codes) (hc' : c' ∈ t.codes) (hlen : c.len = c'.len)
    (hcode : c.code = c'.code) : c = c' := by
  have hlt := sym_lt_iff_code_lt h hl hc hc' hlen
  have hgt := sym_lt_iff_code_lt h hl hc' hc hlen.symm
  have hsym : c.sym = c'.sym := by omega
  obtain ⟨len, code, sym⟩ := c
  obtain ⟨len', code', sym'⟩ := c'
  rw [Code.mk.injEq]
  exact ⟨hlen, hcode, hsym⟩

/-- A code value has as many bits as its length says (R222). -/
theorem code_lt_two_pow {c : Code} (hc : c ∈ t.codes) : c.code < 2 ^ c.len := by
  obtain ⟨h1, h15⟩ := build_wf h hl c hc
  have hfit := (build_isSome_iff ls).mp (by rw [h]; rfl) c.len h1 h15
  have := ((exists_code_iff h hl c.len c.code).mp ⟨c, hc, rfl, rfl⟩).2
  omega

end

/-! ## Code bits (R228) -/

@[simp] theorem codeBits_length (len code : Nat) : (codeBits len code).length = len := by
  induction len with
  | zero => rfl
  | succ len ih => rw [codeBits, List.length_cons, ih]

/-- The first bits of a code are the code bits of its high part. -/
theorem codeBits_take {l m : Nat} (h : l ≤ m) (v : Nat) : (codeBits m v).take l = codeBits l (v / 2 ^ (m - l)) := by
  induction l generalizing m with
  | zero => rfl
  | succ l ih =>
    obtain ⟨m, rfl⟩ : ∃ k, m = k + 1 := ⟨m - 1, by omega⟩
    rw [codeBits, List.take_succ_cons, ih (by omega), codeBits, Nat.testBit_div_two_pow, Nat.add_sub_add_right,
      Nat.add_sub_of_le (by omega)]

/-- The code bits tell the low part of a value. -/
theorem mod_eq_of_codeBits_eq {l v w : Nat} (h : codeBits l v = codeBits l w) : v % 2 ^ l = w % 2 ^ l := by
  induction l with
  | zero => simp [Nat.mod_one]
  | succ l ih =>
    obtain ⟨hbit, hrest⟩ := List.cons.inj h
    rw [Nat.mod_pow_succ, Nat.mod_pow_succ, ← Nat.toNat_testBit, ← Nat.toNat_testBit, hbit, ih hrest]

/-- The bits of one code begin with those of another exactly when the other is its high part (R228). -/
theorem codeBits_prefix_iff {l m v w : Nat} (hv : v < 2 ^ l) (hw : w < 2 ^ m) :
    codeBits l v <+: codeBits m w ↔ l ≤ m ∧ w / 2 ^ (m - l) = v := by
  constructor
  · intro h
    have hlm : l ≤ m := by simpa using h.length_le
    have hhigh : w / 2 ^ (m - l) < 2 ^ l := Nat.div_lt_of_lt_mul (by rwa [← Nat.pow_add, Nat.sub_add_cancel hlm])
    have heq := List.prefix_iff_eq_take.mp h
    rw [codeBits_length, codeBits_take hlm] at heq
    have := mod_eq_of_codeBits_eq heq
    rw [Nat.mod_eq_of_lt hv, Nat.mod_eq_of_lt hhigh] at this
    exact ⟨hlm, this.symm⟩
  · rintro ⟨hlm, rfl⟩
    rw [← codeBits_take hlm]
    exact List.take_prefix ..

/-- No code of a built tree begins with another one (R229). -/
theorem not_codeBits_prefix {ls : List Nat} {t : Tree} (h : build ls = some t) (hl : ∀ l ∈ ls, l ≤ Config.maxBits)
    {c c' : Code} (hc : c ∈ t.codes) (hc' : c' ∈ t.codes) (hne : c ≠ c') :
    ¬ codeBits c.len c.code <+: codeBits c'.len c'.code := by
  rw [codeBits_prefix_iff (code_lt_two_pow h hl hc) (code_lt_two_pow h hl hc')]
  rintro ⟨hle, hhigh⟩
  obtain heq | hlt : c.len = c'.len ∨ c.len < c'.len := Nat.eq_or_lt_of_le hle
  · rw [heq, Nat.sub_self, Nat.pow_zero, Nat.div_one] at hhigh
    exact hne (eq_of_len_eq_of_code_eq h hl hc hc' heq hhigh.symm)
  · obtain ⟨-, hend⟩ := (exists_code_iff h hl c.len c.code).mp ⟨c, hc, rfl, rfl⟩
    obtain ⟨hfirst, -⟩ := (exists_code_iff h hl c'.len c'.code).mp ⟨c', hc', rfl, rfl⟩
    have hbelow : c'.code < (c.code + 1) * 2 ^ (c'.len - c.len) :=
      (Nat.div_lt_iff_lt_mul (Nat.two_pow_pos _)).mp (by omega)
    have hext : (c.code + 1) * 2 ^ (c'.len - c.len) ≤ firstCode ls c'.len :=
      (Nat.mul_le_mul_right _ hend).trans (firstCode_add_count_mul_le ls hlt)
    omega

/-- Settles O6: the codes of a length number its places in the list, and the extensions of a shorter code lie below the first
code of a longer length. -/
theorem canonicalCodes : Obligations.CanonicalCodes := fun ls _ hl h =>
  ⟨fun l v _ _ => exists_code_iff h hl l v,
    fun _ hc _ hc' hlen => sym_lt_iff_code_lt h hl hc hc' hlen,
    fun _ hc _ hc' hne => not_codeBits_prefix h hl hc hc' hne,
    fun _ _ _ hlm _ => firstCode_add_count_mul_le ls hlm⟩

end Sys2Proof.Huffman
end

section
/-! `Decode` in a degenerate tree (R226): both forms consume the symbol's length, whatever the bits. -/

namespace Sys2Proof.Machine

/-- A tree with one symbol is a field of that symbol's length. -/
theorem huff_degenerate {c : Code} (hc : c.len ≤ Config.maxBits) (s : State) (k : Nat → State → Result) :
    huff ⟨[c]⟩ s k = field c.len s (k c.sym) := by
  have hlen : c.len ≤ (window s).length := by
    rw [window_length]
    have : Config.maxBits = 15 := rfl
    omega
  rw [huff, Huffman.decode_degenerate rfl hlen]

/-- Bit by bit, a tree with one symbol drops the value it reads. -/
theorem decodeSerial_degenerate {c : Code} {s : State} (h : s.hasBits c.len) (k : Nat → State → Result) :
    decodeSerial ⟨[c]⟩ s k = k c.sym (s.skip c.len) :=
  readBitsFrom_of_hasBits (v := 0) (i := 0) (by simp) h _

/-- Settles O8: in either form the bits of a degenerate tree are a field that nothing looks at. -/
theorem degenerateTreeAlwaysDecodes : Obligations.DegenerateTreeAlwaysDecodes := by
  intro ls c s k hl h hs
  have hc : c.len ≤ Config.maxBits := (Huffman.build_wf h hl c (List.mem_singleton_self c)).2
  rw [huff_degenerate hc]
  refine ⟨fun hb => ⟨field_of_hasBits hb.1 _, decodeSerial_degenerate hb k⟩, fun hb => field_of_short ?_ _⟩
  exact Nat.not_le.mp fun hle => hb ⟨hle, hs.2⟩

end Sys2Proof.Machine
end

section
/-! Meanings that read a fixed number of bits (R201, R452): one rule per way such a meaning is built. -/

namespace Sys2Proof.Machine

theorem field_of_not_hasBits {n : Nat} {s : State} (hs : s.cursorOk) (h : ¬ s.hasBits n) (k : State → Result) :
    field n s k = .next (raise .unexpectedEndOfStream s.atEnd) :=
  field_of_short (Nat.not_le.mp fun hle => h ⟨hle, hs.2⟩) k

/-- What goes on behind a field matters only in the state behind it. -/
theorem field_congr {n : Nat} {s : State} {k k' : State → Result} (h : k (s.skip n) = k' (s.skip n)) :
    field n s k = field n s k' := by
  unfold field
  split
  · exact h
  · rfl

/-- The meaning `f` consumes `w` bits and then does what `r` does behind them; where fewer are left, it raises
`UnexpectedEndOfStream` at the end of the input (R452), in a state whose other registers may have been written on the way. -/
structure Reads (w : Nat) (f r : State → Result) : Prop where
  full : ∀ s, s.hasBits w → f s = r (s.skip w)
  short : ∀ s, s.cursorOk → ¬ s.hasBits w →
    ∃ s' : State, f s = .next (raise .unexpectedEndOfStream s'.atEnd) ∧ s'.inLen = s.inLen

namespace Reads

theorem nothing (f : State → Result) : Reads 0 f f where
  full s _ := congrArg f (skip_zero s).symm
  short _ hs h := absurd hs h

/-- A register may as well be written behind the bits as before them. -/
theorem ofUpdate {w : Nat} {f r : State → Result} {g : State → State} (h : Reads w f r) (hg : OffReader g)
    (hskip : ∀ s, (g s).skip w = g (s.skip w)) : Reads w (fun s => f (g s)) fun s => r (g s) where
  full s hw := by
    rw [h.full (g s) (by rwa [State.hasBits, hg.bitpos, hg.inLen]), hskip]
  short s := by
    have hshort := h.short (g s)
    rwa [State.cursorOk, State.hasBits, hg.bitpos, hg.inLen] at hshort

/-- The input holds the field and the bits behind it, ends in the field, or ends behind it. -/
theorem ofField {w : Nat} {k r : State → Result} (n : Nat) (h : Reads w k r) : Reads (n + w) (fun s => field n s k) r where
  full s hw := by
    have hn : s.bitpos.toNat + n ≤ 8 * s.inLen.toNat := by
      have := hw.1
      omega
    rw [field_of_hasBits hn, h.full _ (hasBits_skip hw), skip_skip]
  short s hs hw := by
    by_cases hn : s.hasBits n
    · have hpos := skip_bitpos_toNat hn
      obtain ⟨s', hs', hlen⟩ := h.short (s.skip n) (hasBits_skip (n := 0) hn) fun hrest =>
        hw ⟨by have := hrest.1; rw [skip_inLen] at this; omega, hs.2⟩
      exact ⟨s', (field_of_hasBits hn.1 k).trans hs', hlen⟩
    · exact ⟨s, field_of_not_hasBits hs hn k, rfl⟩

end Reads

end Sys2Proof.Machine
end

section
/-! The dynamic-tree descriptor (43_tree_descriptor.md): its header, its repeat symbols and its end. -/

namespace Sys2Proof.Machine

/-! ## The code-length code lengths (R250, R251) -/

/-- `CL_LEN` with each length written to its place. -/
def placeLengths {n : Nat} (lens : List (Nat × BitVec 3)) (t : Vector (BitVec 3) n) : Vector (BitVec 3) n :=
  lens.foldl (fun t il => tableSet t il.1 il.2) t

@[simp] theorem placeLengths_nil {n : Nat} (t : Vector (BitVec 3) n) : placeLengths [] t = t := rfl

@[simp] theorem placeLengths_cons {n : Nat} (il : Nat × BitVec 3) (lens : List (Nat × BitVec 3)) (t : Vector (BitVec 3) n) :
    placeLengths (il :: lens) t = placeLengths lens (tableSet t il.1 il.2) := rfl

theorem tableGet_placeLengths_of_not_mem {n j : Nat} {lens : List (Nat × BitVec 3)} (hj : ∀ il ∈ lens, il.1 ≠ j)
    (t : Vector (BitVec 3) n) : tableGet (placeLengths lens t) j = tableGet t j := by
  induction lens generalizing t with
  | nil => rfl
  | cons il lens ih =>
    obtain ⟨hne, hj⟩ := List.forall_mem_cons.mp hj
    rw [placeLengths_cons, ih hj, tableGet_tableSet, if_neg fun heq => hne heq.1.symm]

/-- Lengths written to distinct places of a zero table stand there in order, and the places without one stay 0 (R251). -/
theorem tableGet_placeLengths_zip {n : Nat} {order : List Nat} (hdistinct : order.Nodup) (hlt : ∀ p ∈ order, p < n)
    (lens : List (BitVec 3)) {t : Vector (BitVec 3) n} (hzero : ∀ p ∈ order, tableGet t p = 0) {i : Nat}
    (hi : i < order.length) : tableGet (placeLengths (order.zip lens) t) order[i] = lens.getD i 0 := by
  induction order generalizing lens t i with
  | nil => cases hi
  | cons p order ih =>
    obtain ⟨hnot, hdistinct⟩ := List.nodup_cons.mp hdistinct
    obtain ⟨hp, hlt⟩ := List.forall_mem_cons.mp hlt
    cases lens with
    | nil => exact hzero _ (List.getElem_mem hi)
    | cons l lens =>
      rw [List.zip_cons_cons, placeLengths_cons]
      cases i with
      | zero =>
        have hkeep : ∀ il ∈ order.zip lens, il.1 ≠ p := fun il hil heq => hnot (heq ▸ (List.of_mem_zip hil).1)
        rw [List.getElem_cons_zero, tableGet_placeLengths_of_not_mem hkeep, tableGet_tableSet, if_pos ⟨rfl, hp⟩]
        rfl
      | succ i =>
        rw [List.getElem_cons_succ, List.getD_cons_succ]
        refine ih hdistinct hlt lens (fun q hq => ?_) _
        rw [tableGet_tableSet, if_neg fun (heq : q = p ∧ _) => hnot (heq.1 ▸ hq), hzero q (List.mem_cons_of_mem p hq)]

/-- The lengths are placed one by one as they are read (R250). -/
theorem clLengths_reads (lens : List (Nat × BitVec 3)) (k : State → Result) :
    Reads (3 * lens.length) (fun s => clLengths lens s k) fun s => k { s with clLen := placeLengths lens s.clLen } := by
  induction lens with
  | nil => exact .nothing k
  | cons il lens ih =>
    have h := Reads.ofField 3 <| ih.ofUpdate (g := fun s => { s with clLen := tableSet s.clLen il.1 il.2 }) {} fun _ => rfl
    rwa [Nat.add_comm, ← Nat.mul_succ] at h

/-! ## The header (R250) -/

/-- `CL_LEN` as a dynamic header writes it: the lengths in permuted places of a zero table (R251). -/
def permutedLengths (lens : List (BitVec 3)) : Vector (BitVec 3) 19 :=
  placeLengths (clOrder.zip lens) (tableOf 3 19 fun _ => 0)

theorem tableGet_permutedLengths (lens : List (BitVec 3)) {i : Nat} (hi : i < 19) :
    tableGet (permutedLengths lens) (clOrder.getD i 0) = lens.getD i 0 := by
  have hi' : i < clOrder.length := hi
  rw [List.getD_eq_getElem _ _ hi']
  refine tableGet_placeLengths_zip (by decide) (by decide) lens (fun p _ => ?_) hi'
  rw [tableGet_tableOf, ite_self]

/-- `DYN_HDR` behind its last field (R250): the counts and the lengths are written, and `T_CL` is built. -/
def finishDynHdr (hlit hdist : BitVec 5) (hclen : BitVec 4) (cl : Vector (BitVec 3) 19) (s : State) : Result :=
  buildThen (tableLengths cl 19) { s with hlit := hlit, hdist := hdist, hclen := hclen, clLen := cl } fun tCL =>
    .next { s with
      hlit := hlit, hdist := hdist, hclen := hclen, clLen := cl, tCL := some tCL
      seqTotal := seqTotalOf hlit hdist, seqIdx := 0, phase := .dynSeq }

/-- The header is its three counts and its lengths, whatever their number (R144). -/
theorem execDynHdr_reads (hlit hdist : BitVec 5) (hclen : BitVec 4) (lens : List (BitVec 3)) :
    Reads (5 + (5 + (4 + 3 * (clOrder.zip lens).length))) (execDynHdr hlit hdist hclen lens)
      (finishDynHdr hlit hdist hclen (permutedLengths lens)) :=
  .ofField 5 <| .ofUpdate (g := fun s => { s with hlit := hlit }) (hg := {}) (hskip := fun _ => rfl) <|
  .ofField 5 <| .ofUpdate (g := fun s => { s with hdist := hdist }) (hg := {}) (hskip := fun _ => rfl) <|
  .ofField 4 <| .ofUpdate (g := fun s => { s with hclen := hclen, clLen := tableOf 3 19 fun _ => 0 }) (hg := {})
    (hskip := fun _ => rfl) <|
  clLengths_reads _ _

/-- A header has a place for each of its `HCLEN + 4` lengths (R144). -/
theorem clOrder_zip_length {lens : List (BitVec 3)} {hclen : BitVec 4} (h : lens.length = hclen.toNat + 4) :
    (clOrder.zip lens).length = hclen.toNat + 4 := by
  have := hclen.isLt
  rw [List.length_zip, h, show clOrder.length = 19 from rfl]
  omega

theorem tableLengths_all {w n : Nat} (t : Vector (BitVec w) n) : tableLengths t n = t.toList.map BitVec.toNat := by
  rw [tableLengths, List.take_of_length_le (by simp)]

/-- A well-formed header takes 14 bits and 3 for each of its `HCLEN + 4` lengths (R144, R250). -/
theorem exec_dynHdr_reads (hlit hdist : BitVec 5) {hclen : BitVec 4} {lens : List (BitVec 3)}
    (h : lens.length = hclen.toNat + 4) :
    Reads (14 + 3 * (hclen.toNat + 4)) (exec (.dynHdr hlit hdist hclen lens))
      (finishDynHdr hlit hdist hclen (permutedLengths lens)) := by
  have hreads := execDynHdr_reads hlit hdist hclen lens
  rwa [clOrder_zip_length h, ← Nat.add_assoc, ← Nat.add_assoc] at hreads

/-- Settles O24: the fields are consumed one behind the other, and the lengths land in distinct places of a zero table. -/
theorem dynamicHeader : Obligations.DynamicHeader := by
  refine ⟨fun s hlit hdist hclen lens hlen hs hshort => ?_, fun s hlit hdist hclen lens hlen hbits =>
    ⟨permutedLengths lens, fun i hi => tableGet_permutedLengths lens hi, ?_⟩⟩
  · obtain ⟨s', hexec, hin⟩ := (exec_dynHdr_reads hlit hdist hlen).short s hs hshort
    have hend : s'.atEnd.bitpos = s.atEnd.bitpos := by rw [atEnd_bitpos, hin, atEnd_bitpos]
    exact ⟨_, hexec, rfl, rfl, hend, hend⟩
  · rw [(exec_dynHdr_reads hlit hdist hlen).full s hbits, finishDynHdr, tableLengths_all]
    exact ⟨fun tCL h => buildThen_some h _ _, fun h => buildThen_none h _ _⟩

/-! ## The repeat symbols (R255–R258) -/

theorem clFinish_of_complete {s : State} (h : s.seqIdx = s.seqTotal) : clFinish s = descriptorFinish s := if_pos h

theorem clFinish_of_incomplete {s : State} (h : s.seqIdx ≠ s.seqTotal) : clFinish s = .next s := if_neg h

theorem clRun_of_past {r : Nat} {s : State} (h : s.seqTotal.toNat < s.seqIdx.toNat + r) (v : BitVec 4) :
    clRun r v s = .next (raise .invalidTreeDescription s) := if_pos h

theorem clRun_of_within {r : Nat} {s : State} (h : s.seqIdx.toNat + r ≤ s.seqTotal.toNat) (v : BitVec 4) :
    clRun r v s = clFinish { s with
      seq := tableFill s.seq s.seqIdx.toNat v r, seqIdx := s.seqIdx + BitVec.ofNat 9 r } := if_neg (Nat.not_lt.mpr h)

/-- A run up to `SEQ_TOTAL` or short of it does not wrap `SEQ_IDX`. -/
theorem seqIdx_add_toNat {r : Nat} {s : State} (h : s.seqIdx.toNat + r ≤ s.seqTotal.toNat) :
    (s.seqIdx + BitVec.ofNat 9 r).toNat = s.seqIdx.toNat + r := by
  have := s.seqTotal.isLt
  rw [BitVec.toNat_add, BitVec.toNat_ofNat]
  omega

theorem clRun_of_incomplete {r : Nat} {s : State} (h : s.seqIdx.toNat + r < s.seqTotal.toNat) (v : BitVec 4) :
    clRun r v s = .next { s with
      seq := tableFill s.seq s.seqIdx.toNat v r, seqIdx := s.seqIdx + BitVec.ofNat 9 r } := by
  rw [clRun_of_within h.le, clFinish_of_incomplete]
  intro heq
  have hidx : (s.seqIdx + BitVec.ofNat 9 r).toNat = s.seqTotal.toNat := congrArg BitVec.toNat heq
  rw [seqIdx_add_toNat h.le] at hidx
  omega

theorem clRun_of_complete {r : Nat} {s : State} (h : s.seqIdx.toNat + r = s.seqTotal.toNat) (v : BitVec 4) :
    clRun r v s = descriptorFinish { s with
      seq := tableFill s.seq s.seqIdx.toNat v r, seqIdx := s.seqTotal } := by
  have hidx : s.seqIdx + BitVec.ofNat 9 r = s.seqTotal :=
    BitVec.eq_of_toNat_eq ((seqIdx_add_toNat h.le).trans h)
  rw [clRun_of_within h.le, hidx, clFinish_of_complete rfl]

/-- The row `i` fills `r` entries with `v` behind an extra field of `w` bits (R255–R257). -/
def IsRun (s : State) (i : Instr) (w r : Nat) (v : BitVec 4) : Prop :=
  (∃ e, i = .clRep16 e ∧ w = 2 ∧ r = 3 + e.toNat ∧ s.seqIdx ≠ 0 ∧ v = tableGet s.seq (s.seqIdx.toNat - 1)) ∨
  (∃ e, i = .clZero17 e ∧ w = 3 ∧ r = 3 + e.toNat ∧ v = 0) ∨
  (∃ e, i = .clZero18 e ∧ w = 7 ∧ r = 11 + e.toNat ∧ v = 0)

/-- A repeat symbol is its extra field, then one run (R255–R257). -/
theorem exec_of_isRun {s : State} {i : Instr} {w r : Nat} {v : BitVec 4} (h : IsRun s i w r v) :
    exec i s = field w s (clRun r v) := by
  rcases h with ⟨e, rfl, rfl, rfl, hidx, rfl⟩ | ⟨e, rfl, rfl, rfl, rfl⟩ | ⟨e, rfl, rfl, rfl, rfl⟩
  · rw [exec_clRep16, execClRep16, if_neg hidx]
    exact field_congr (by rw [skip_seq, skip_seqIdx])
  · rfl
  · rfl

/-- Settles O26: each of the three symbols is its extra field and then one run. -/
theorem codeLengthRuns : Obligations.CodeLengthRuns := by
  intro s i w r v hrun
  rw [exec_of_isRun hrun]
  refine ⟨fun hs hshort => field_of_not_hasBits hs hshort _, fun hbits hpast => ?_,
    fun hbits hle htotal => ⟨tableFill s.seq s.seqIdx.toNat v r, fun j _ => ?_, fun hlt => ?_, fun heq => ?_⟩⟩
  · exact (field_of_hasBits hbits.1 _).trans (clRun_of_past (s := s.skip w) hpast v)
  · exact tableGet_tableFill r s.seq _ v (hle.trans htotal) j
  · exact (field_of_hasBits hbits.1 _).trans (clRun_of_incomplete (s := s.skip w) hlt v)
  · exact (field_of_hasBits hbits.1 _).trans (clRun_of_complete (s := s.skip w) heq v)

/-! ## The end of the descriptor (R259, R260) -/

section
variable {ll d : List Nat} (s : State)

theorem buildTrees_of_some {tLL tD : Tree} (hll : Huffman.build ll = some tLL) (hd : Huffman.build d = some tD) :
    buildTrees ll d s = .next { s with tLL := some tLL, tD := some tD, phase := .sym } := by
  rw [buildTrees, buildThen_some hll, buildThen_some hd]

theorem buildTrees_of_first_none (hll : Huffman.build ll = none) :
    buildTrees ll d s = .next (raise .invalidHuffmanTree s) := buildThen_none hll _ _

theorem buildTrees_of_second_none {tLL : Tree} (hll : Huffman.build ll = some tLL) (hd : Huffman.build d = none) :
    buildTrees ll d s = .next (raise .invalidHuffmanTree { s with tLL := some tLL }) := by
  rw [buildTrees, buildThen_some hll, buildThen_none hd]

end

/-- Settles O28: the two slices are tables given by a function, and the trees are built from them in order. -/
theorem descriptorFinishes : Obligations.DescriptorFinishes := by
  refine fun s => ⟨sliceLL s, sliceD s, fun i hi => ?_, fun i hi => ?_, fun tLL tD hll hd => buildTrees_of_some _ hll hd,
    fun hll => buildTrees_of_first_none _ hll, fun tLL hll hd => buildTrees_of_second_none _ hll hd⟩
  · rw [sliceLL, tableGet_tableOf, if_pos hi]
  · rw [sliceD, tableGet_tableOf, if_pos hi]

end Sys2Proof.Machine
end

section
/-! The block decoder (44_block_decoder.md): block headers, stored blocks, literals and the end of a block. -/

namespace Sys2Proof.Machine

/-! ## Block headers (R280–R284) -/

/-- What all four rows share (R280): three bits, with `BFINAL` and `BTYPE` written on the way. -/
theorem blockHdr_reads (final : Bool) (btype : BitVec 2) (k : State → Result) :
    Reads 3 (fun s => blockHdr final btype s k) fun s => k { s with bfinal := final, btype := btype } :=
  .ofField 1 <| .ofUpdate (g := fun s => { s with bfinal := final }) (hg := {}) (hskip := fun _ => rfl) <|
  .ofField 2 <| .nothing fun s => k { s with btype := btype }

theorem blockHdr_of_hasBits {s : State} (h : s.hasBits 3) (final : Bool) (btype : BitVec 2) (k : State → Result) :
    blockHdr final btype s k = k { s.skip 3 with bfinal := final, btype := btype } :=
  (blockHdr_reads final btype k).full s h

/-- Settles O17: behind the shared three bits only `PHASE` is written, and it selects the format in force. -/
theorem storedAndDynamicHeaders : Obligations.StoredAndDynamicHeaders := by
  refine fun s final h => ⟨⟨_, ?_, rfl, rfl⟩, ⟨_, ?_, rfl, rfl⟩⟩
  · rw [exec_stored, execStored, blockHdr_of_hasBits h]
    rfl
  · rw [exec_dynamic, execDynamic, blockHdr_of_hasBits h]
    rfl

/-- Settles O19: the error is raised behind the shared three bits, whatever `BFINAL` is. -/
theorem reservedHeaderRaises : Obligations.ReservedHeaderRaises := by
  intro s final h
  have hexec : exec (.reserved final) s =
      .next (raise .invalidBlockType { s.skip 3 with bfinal := final, btype := 3 }) := by
    rw [exec_reserved, execReserved, blockHdr_of_hasBits h]
    rfl
  exact ⟨_, hexec, rfl, rfl, skip_bitpos_toNat h, rfl, rfl⟩

/-! ## The fixed trees (R230, R231, R282) -/

/-- The lengths in a table given by a function, in index order. -/
theorem tableOf_lengths (w n : Nat) (f : Nat → BitVec w) :
    (tableOf w n f).toList.map BitVec.toNat = (List.range n).map fun i => (f i).toNat :=
  List.ext_getElem (by simp) fun i _ _ => by simp [tableOf]

/-- The lengths of the fixed literal/length alphabet, symbol by symbol (R230). -/
def fixedLLLengths : List Nat :=
  List.replicate 144 8 ++ List.replicate 112 9 ++ List.replicate 24 7 ++ List.replicate 8 8

theorem fixedLLLengths_length : fixedLLLengths.length = 288 := by
  simp only [fixedLLLengths, List.length_append, List.length_replicate]

theorem fixedLLLen_toNat (sym : Nat) :
    (fixedLLLen sym).toNat = if sym ≤ 143 then 8 else if sym ≤ 255 then 9 else if sym ≤ 279 then 7 else 8 := by
  simp only [fixedLLLen, apply_ite BitVec.toNat]
  rfl

/-- The four runs of the assignment are the four branches of its definition. -/
theorem fixedLLTable_lengths : (tableOf 4 288 fixedLLLen).toList.map BitVec.toNat = fixedLLLengths := by
  rw [tableOf_lengths]
  refine List.ext_getElem (by rw [List.length_map, List.length_range, fixedLLLengths_length]) fun i _ _ => ?_
  simp only [List.getElem_map, List.getElem_range, fixedLLLen_toNat, fixedLLLengths, List.getElem_append,
    List.length_append, List.length_replicate, List.getElem_replicate]
  split_ifs <;> omega

theorem fixedDTable_lengths : (tableOf 4 32 fixedDLen).toList.map BitVec.toNat = List.replicate 30 5 ++ [0, 0] := by
  rw [tableOf_lengths]
  decide

/-- Kraft's sum of the fixed literal/length code is exactly 1 (R230). -/
theorem build_fixedLLLengths : ∃ tLL, Huffman.build fixedLLLengths = some tLL := by
  rw [← Option.isSome_iff_exists, Huffman.build_isSome_iff_longest, Huffman.firstCode_add_count_eq_sum]
  simp only [fixedLLLengths, List.count_append, List.count_replicate]
  decide

/-- Kraft's sum of the fixed distance code is 30/32 (R231). -/
theorem build_fixedDLengths : ∃ tD, Huffman.build (List.replicate 30 5) = some tD := by
  rw [← Option.isSome_iff_exists, Huffman.build_isSome_iff_longest, Huffman.firstCode_add_count_eq_sum]
  simp only [List.count_replicate]
  decide

/-- Settles O18: the two tables are the fixed assignment, and neither Kraft sum is over 1. -/
theorem fixedHeader : Obligations.FixedHeader := by
  intro s final h
  obtain ⟨tLL, hLL⟩ := build_fixedLLLengths
  obtain ⟨tD, hD⟩ := build_fixedDLengths
  have hllen : tableLengths (tableOf 4 288 fixedLLLen) 288 = fixedLLLengths := by
    rw [tableLengths_all, fixedLLTable_lengths]
  have hdlen : tableLengths (tableOf 4 32 fixedDLen) 30 = List.replicate 30 5 := by
    rw [tableLengths, List.map_take, fixedDTable_lengths]
    rfl
  have hexec : exec (.fixed final) s = .next { s.skip 3 with
      bfinal := final, btype := 1, llLen := tableOf 4 288 fixedLLLen, dLen := tableOf 4 32 fixedDLen
      tLL := some tLL, tD := some tD, phase := .sym } := by
    rw [exec_fixed, execFixed, blockHdr_of_hasBits h, setFixedTables_eq, hllen, hdlen, buildTrees_of_some _ hLL hD]
    rfl
  exact ⟨tLL, tD, _, hLL, hD, hexec, rfl, fixedLLTable_lengths, fixedDTable_lengths⟩

/-! ## Stored blocks (R285, R286) -/

/-- `STORED_HDR` behind NLEN (R285): the complement is checked, then the data begins or the block ends. -/
def finishStoredHdr (len nlen : BitVec 16) (s : State) : Result :=
  if nlen ≠ ~~~len then .next (raise .storedBlockLengthMismatch { s with storedLen := len, storedNlen := nlen })
  else if len = 0 then .next (blockEnd { s with storedLen := len, storedNlen := nlen, storedRem := len })
  else .next { s with storedLen := len, storedNlen := nlen, storedRem := len, phase := .storedData }

theorem execStoredHdr_of_hasBits {s : State} (h : (alignByte s).hasBits 32) (len nlen : BitVec 16) :
    execStoredHdr len nlen s = finishStoredHdr len nlen ((alignByte s).skip 32) :=
  (Reads.ofField 16 <| .ofUpdate (g := fun s => { s with storedLen := len }) (hg := {}) (hskip := fun _ => rfl) <|
    .ofField 16 <| .nothing _).full _ h

theorem alignByte_cursorOk {s : State} (h : s.cursorOk) : (alignByte s).cursorOk := by
  have hpos := alignByte_bitpos_toNat h
  obtain ⟨hle, hfit⟩ := h
  exact ⟨by rw [alignByte_inLen]; omega, hfit⟩

/-- An input that ends in `m + n` bits, and not in the first `m`, ends in the `n` behind them. -/
theorem not_hasBits_skip {m n : Nat} {s : State} (hm : s.hasBits m) (h : ¬ s.hasBits (m + n)) : ¬ (s.skip m).hasBits n := by
  rintro ⟨hle, hfit⟩
  rw [skip_bitpos_toNat hm, skip_inLen, Nat.add_assoc] at hle
  exact h ⟨hle, hfit⟩

/-- Settles O21: with both lengths there, the branches behind NLEN decide; else the first or the second of the two fields ends the
input. -/
theorem storedHeader : Obligations.StoredHeader := by
  intro s len nlen hs
  have halign := alignByte_cursorOk hs
  rw [exec_storedHdr]
  refine ⟨fun h hcompl hlen => ?_, fun h hcompl hlen => ?_, fun h hcompl => ?_, fun h16 h32 => ?_, fun h16 => ?_⟩
  · rw [execStoredHdr_of_hasBits h, finishStoredHdr, if_neg (not_not.mpr hcompl), if_neg hlen]
  · rw [execStoredHdr_of_hasBits h, finishStoredHdr, if_neg (not_not.mpr hcompl), if_pos hlen, hlen]
  · rw [execStoredHdr_of_hasBits h, finishStoredHdr, if_pos hcompl]
  · have hrest : ¬ ((alignByte s).skip 16).hasBits 16 := not_hasBits_skip h16 h32
    rw [execStoredHdr, field_of_hasBits h16.1]
    exact field_of_not_hasBits (s := { (alignByte s).skip 16 with storedLen := len }) (hasBits_skip (n := 0) h16) hrest _
  · rw [execStoredHdr]
    exact field_of_not_hasBits halign h16 _

/-- Settles O22: the byte is a field of eight bits, then an append, then the count. -/
theorem storedByte : Obligations.StoredByte := by
  intro s b hs
  rw [exec_storedByte, execStoredByte]
  refine ⟨fun h hroom hrem => ?_, fun h hroom hrem => ?_, fun h hfull => ?_, fun h => field_of_not_hasBits hs h _⟩
  · rw [field_of_hasBits h.1, append_of_room (s := s.skip 8) hroom]
    exact congrArg _ (if_neg (mt sub_eq_zero.mp hrem))
  · rw [field_of_hasBits h.1, append_of_room (s := s.skip 8) hroom]
    simp [hrem]
  · rw [field_of_hasBits h.1, append_of_full (s := s.skip 8) hfull]

/-! ## Literals and the end of a block (R288–R290) -/

/-- Settles O23: `BlockEnd` is a function of `BFINAL` and `BLOCK_STEP`. -/
theorem endOfBlock : Obligations.EndOfBlock := by
  intro s
  have hexec : exec .eob s = .next { s with
    blockIdx := s.blockIdx + 1, phase := phaseAfterBlock s.bfinal s.blockStep } := rfl
  refine ⟨fun hfinal => ?_, fun hfinal hstep => ?_, fun hfinal hstep => ?_⟩
  · rw [hexec, phaseAfterBlock, if_pos hfinal]
  · rw [hexec, phaseAfterBlock, hfinal, hstep]
    rfl
  · rw [hexec, phaseAfterBlock, hfinal, hstep]
    rfl

/-- Settles O29: a literal is one append. -/
theorem literal : Obligations.Literal := fun _ _ => ⟨fun h => append_of_room h _, fun h => append_of_full h _⟩

end Sys2Proof.Machine
end

section
/-! Lengths and distances (45_length_distance.md): the tables of bases, extra bits and ranges. -/

namespace Sys2Proof

theorem bitsValue_lt_two_pow (bits : Bits) : bitsValue bits < 2 ^ bits.length := by
  induction bits with
  | nil => simp [bitsValue]
  | cons b bits ih =>
    have hb := Bool.toNat_lt b
    rw [bitsValue, List.length_cons, Nat.pow_succ]
    omega

/-- Truncating to the field's width loses nothing: the field holds the value of the bits it takes (R107). -/
theorem getField_toNat (w : Nat) (bits : Bits) : (getField w bits).toNat = bitsValue (bits.take w) := by
  have hfits : bitsValue (bits.take w) < 2 ^ w :=
    (bitsValue_lt_two_pow _).trans_le (Nat.pow_le_pow_right Nat.two_pos (List.length_take_le w bits))
  rw [getField, BitVec.toNat_ofNat, Nat.mod_eq_of_lt hfits]

namespace Machine

/-- A row with an extra field stands for its base plus the value of the bits behind its code (R148, R149). -/
theorem operand_getField (base w : Nat) (ops : Bits) :
    some (base + (getField w ops).toNat, w) = some (base + bitsValue (ops.take w), w) := by rw [getField_toNat]

/-- The extra field is below `2 ^ w`: `LEN284` with its five bits ends at 227 + 31, and no row goes beyond (R352). -/
theorem lengthOperand_range {i : Instr} {len w : Nat} (h : lengthOperand i = some (len, w)) : 3 ≤ len ∧ len ≤ 258 := by
  cases i <;> simp only [lengthOperand, Option.some.injEq, Prod.mk.injEq, reduceCtorEq] at h
  all_goals omega

/-- The extra field is below `2 ^ w`: `DIST29` with its thirteen bits ends at 24577 + 8191, and no row goes beyond (R393). -/
theorem distanceOperand_range {i : Instr} {dist w : Nat} (h : distanceOperand i = some (dist, w)) :
    1 ≤ dist ∧ dist ≤ 32768 := by
  cases i <;> simp only [distanceOperand, Option.some.injEq, Prod.mk.injEq, reduceCtorEq] at h
  all_goals omega

/-- Settles O31: the rows without extra bits (257–264 and 285, 0–3) are constants, and each other row is its base and its field. -/
theorem matchTables : Obligations.MatchTables := by
  refine ⟨fun sym ops hlo hhi => ?_, fun sym ops hhi => ?_, fun _ _ _ => lengthOperand_range, fun _ _ _ => distanceOperand_range⟩
  · by_cases hshort : sym < 265
    · interval_cases sym
      all_goals rfl
    by_cases hextra : sym < 285
    · interval_cases sym
      all_goals exact operand_getField _ _ ops
    · obtain rfl : sym = 285 := by omega
      rfl
  · by_cases hshort : sym < 4
    · interval_cases sym
      all_goals rfl
    · interval_cases sym
      all_goals exact operand_getField _ _ ops

end Machine
end Sys2Proof
end

section
/-! The start of a copy (R403, R459) and one step of it (R402). -/

namespace Sys2Proof.Machine

/-! ## Distance rows -/

section
variable {s : State}

theorem copyStart_of_within (hpos : 1 ≤ s.matchDist.toNat) (hle : s.matchDist.toNat ≤ s.outLen.toNat) :
    copyStart s = { s with copyRem := s.matchLen, phase := .copy } := if_neg (by omega)

theorem copyStart_of_beyond (h : s.outLen.toNat < s.matchDist.toNat) :
    copyStart s = raise .invalidDistance s := if_pos (.inr h)

end

/-- A distance row is its extra field, then `CopyStart` with the row's distance (R360). -/
theorem exec_distance_eq_field {d : Instr} {dist w : Nat} (h : distanceOperand d = some (dist, w)) (s : State) :
    exec d s = field w s fun s => .next (copyStart { s with matchDist := BitVec.ofNat 16 dist }) := by
  obtain ⟨base, e, rfl, hexec⟩ := exec_distance h
  exact hexec s

/-- `MATCH_DIST` holds every distance of the table (R393). -/
theorem distanceOperand_toNat {d : Instr} {dist w : Nat} (h : distanceOperand d = some (dist, w)) :
    (BitVec.ofNat 16 dist).toNat = dist := by
  obtain ⟨-, hle⟩ := distanceOperand_range h
  rw [BitVec.toNat_ofNat]
  omega

/-- Settles O34: behind the extra field `CopyStart` decides, and the distance of a row is at least 1 and fits `MATCH_DIST`. -/
theorem distanceStartsTheCopy : Obligations.DistanceStartsTheCopy := by
  intro s d dist w hd hs
  have hdist := distanceOperand_toNat hd
  obtain ⟨hpos, -⟩ := distanceOperand_range hd
  rw [exec_distance_eq_field hd]
  refine ⟨fun h hle => ?_, fun h hlt => ?_, fun h => field_of_not_hasBits hs h _⟩
  · rw [field_of_hasBits h.1, copyStart_of_within (by rwa [hdist]) (by rwa [hdist])]
    rfl
  · rw [field_of_hasBits h.1, copyStart_of_beyond (by rwa [hdist])]

/-! ## The copy step -/

theorem engineStep_of_copy {s : State} (h : s.phase = .copy) : engineStep s = copyStep s := by
  rw [engineStep, h]

/-- Settles O35: a copy step is one append of the byte it reads, then the count. (The name `copyStep` is the model's function.) -/
theorem copyStep_holds : Obligations.CopyStep := by
  intro s hphase hsrc b
  rw [engineStep_of_copy hphase, copyStep, if_neg (Nat.not_lt.mpr hsrc)]
  refine ⟨fun hroom hrem => ?_, fun hroom hrem => ?_, fun hfull => append_of_full hfull _⟩
  · rw [append_of_room hroom, if_neg hrem]
  · rw [append_of_room hroom, if_pos hrem, hrem]
    rfl

end Sys2Proof.Machine
end

section
/-! The output as an append-only buffer (R400): a calculus of meanings that append at most so many bytes and read no byte of the
output at or above `OUT_LEN`. -/

namespace Sys2Proof.Machine

/-! ## Memories that agree below an address -/

/-- The two memories hold the same bytes below `n`. -/
def SameBelow (n : Nat) (m m' : Memory) : Prop := ∀ a, a < n → Memory.read m a = Memory.read m' a

theorem SameBelow.write {n : Nat} {m m' : Memory} (h : SameBelow n m m') (hm : Memory.wf m) (hm' : Memory.wf m') (b : Byte) :
    SameBelow (n + 1) (Memory.write n b m) (Memory.write n b m') := by
  intro a ha
  rw [Memory.read_write m hm, Memory.read_write m' hm']
  split
  · rfl
  · exact h a (by omega)

theorem SameBelow.writeBytes {n : Nat} {m m' : Memory} (h : SameBelow n m m') (hm : Memory.wf m) (hm' : Memory.wf m')
    (bs : List Byte) : SameBelow (n + bs.length) (Memory.writeBytes n bs m) (Memory.writeBytes n bs m') := by
  induction bs generalizing n m m' with
  | nil => exact h
  | cons b bs ih =>
    rw [List.length_cons, Nat.add_comm bs.length, ← Nat.add_assoc]
    exact ih (h.write hm hm' b) (Memory.wf_write m hm _ b) (Memory.wf_write m' hm' _ b)

/-! ## The statement about one meaning -/

/-- The same state over another output memory. -/
def State.withOut (m : Memory) (s : State) : State := { s with outMem := m }

@[simp] theorem withOut_phase (m : Memory) (s : State) : (s.withOut m).phase = s.phase := rfl
@[simp] theorem withOut_tLL (m : Memory) (s : State) : (s.withOut m).tLL = s.tLL := rfl
@[simp] theorem withOut_tD (m : Memory) (s : State) : (s.withOut m).tD = s.tD := rfl
@[simp] theorem withOut_tCL (m : Memory) (s : State) : (s.withOut m).tCL = s.tCL := rfl
@[simp] theorem withOut_window (m : Memory) (s : State) : window (s.withOut m) = window s := rfl
@[simp] theorem withOut_padBits (m : Memory) (s : State) : padBits (s.withOut m) = padBits s := rfl

/-- The output is in canonical form and within its capacity (R57). -/
structure State.OutputOk (s : State) : Prop where
  wf : Memory.wf s.outMem
  room : s.outLen.toNat ≤ s.outCap.toNat

/-- From `s` the meaning `f` answers `t` with `bs` appended to the output. Over any output memory that agrees below `OUT_LEN` it
appends the same bytes and answers the same state (R400). -/
structure Appends (bs : List Byte) (f : State → Result) (s t : State) : Prop where
  outLen : t.outLen.toNat = s.outLen.toNat + bs.length
  room : t.outLen.toNat ≤ s.outCap.toNat
  answer : ∀ m, Memory.wf m → SameBelow s.outLen.toNat m s.outMem →
    f (s.withOut m) = .next (t.withOut (Memory.writeBytes s.outLen.toNat bs m))

/-- Started in `s`, the meaning `f` appends at most `n` bytes, whatever next state it answers. -/
def AppendsAtMostAt (n : Nat) (f : State → Result) (s : State) : Prop :=
  s.OutputOk → ∀ t, f s = .next t → ∃ bs, bs.length ≤ n ∧ Appends bs f s t

/-- `AppendsAtMostAt` from every state. -/
def AppendsAtMost (n : Nat) (f : State → Result) : Prop := ∀ s, AppendsAtMostAt n f s

/-- An update of registers that leaves the output and its bounds alone and reads no byte of it. -/
structure OffOutput (g : State → State) : Prop where
  outLen : ∀ s, (g s).outLen = s.outLen := by intros; rfl
  outCap : ∀ s, (g s).outCap = s.outCap := by intros; rfl
  outMem : ∀ s, (g s).outMem = s.outMem := by intros; rfl
  withOut : ∀ s m, g (s.withOut m) = (g s).withOut m := by intros; rfl

theorem offOutput_raise (e : Err) : OffOutput (raise e) := {}

theorem offOutput_ite {p : State → Prop} [∀ s, Decidable (p s)] {f g : State → State}
    (hp : ∀ s m, p (s.withOut m) ↔ p s) (hf : OffOutput f) (hg : OffOutput g) :
    OffOutput fun s => if p s then f s else g s where
  outLen s := by split <;> simp only [hf.outLen, hg.outLen]
  outCap s := by split <;> simp only [hf.outCap, hg.outCap]
  outMem s := by split <;> simp only [hf.outMem, hg.outMem]
  withOut s m := by simp only [hp, hf.withOut, hg.withOut]; split <;> rfl

/-- The state behind an append (R401). -/
def State.appended (b : Byte) (s : State) : State :=
  { s with outMem := Memory.write s.outLen.toNat b s.outMem, outLen := s.outLen + 1 }

/-- Where the output is not full, `OUT_LEN` counts one more byte without passing `OUT_CAP` (R57). -/
theorem outLen_add_one {s : State} (hroom : s.outLen.toNat ≤ s.outCap.toNat) (hfull : s.outLen ≠ s.outCap) :
    (s.outLen + 1).toNat = s.outLen.toNat + 1 ∧ (s.outLen + 1).toNat ≤ s.outCap.toNat := by
  have hne : s.outLen.toNat ≠ s.outCap.toNat := fun h => hfull (BitVec.eq_of_toNat_eq h)
  have hcap := s.outCap.isLt
  have hsucc : (s.outLen + 1).toNat = (s.outLen.toNat + 1) % 2 ^ 32 := BitVec.toNat_add ..
  omega

theorem Appends.outMem {bs : List Byte} {f : State → Result} {s t : State} (h : Appends bs f s t) (hs : Memory.wf s.outMem)
    (ht : f s = .next t) : t.outMem = Memory.writeBytes s.outLen.toNat bs s.outMem :=
  congrArg State.outMem (Host.Outcome.next.inj (ht.symm.trans (h.answer s.outMem hs fun _ _ => rfl)))

/-- A meaning that does the same as another one over every output memory appends the same bytes. -/
theorem AppendsAtMostAt.congr {n : Nat} {f f' : State → Result} {s : State}
    (hff' : ∀ m, f (s.withOut m) = f' (s.withOut m)) (hf' : AppendsAtMostAt n f' s) : AppendsAtMostAt n f s := by
  intro hs t ht
  obtain ⟨bs, hlen, h⟩ := hf' hs t ((hff' s.outMem).symm.trans ht)
  exact ⟨bs, hlen, h.outLen, h.room, fun m hm hsame => (hff' m).trans (h.answer m hm hsame)⟩

/-- A branch taken on anything but the output memory. -/
theorem AppendsAtMostAt.ofIte {n : Nat} {p : State → Prop} [∀ s, Decidable (p s)] {f g : State → Result} {s : State}
    (hp : ∀ m, p (s.withOut m) ↔ p s) (hf : p s → AppendsAtMostAt n f s) (hg : ¬ p s → AppendsAtMostAt n g s) :
    AppendsAtMostAt n (fun s => if p s then f s else g s) s := by
  by_cases h : p s
  · exact .congr (fun m => if_pos ((hp m).mpr h)) (hf h)
  · exact .congr (fun m => if_neg (mt (hp m).mp h)) (hg h)

namespace AppendsAtMost

/-! ## One rule per way a meaning is built -/

variable {n : Nat}

theorem ofNext {g : State → State} (hg : OffOutput g) : AppendsAtMost n fun s => .next (g s) := by
  rintro s ⟨-, hroom⟩ t ⟨⟩
  exact ⟨[], Nat.zero_le n, congrArg BitVec.toNat (hg.outLen s), by rwa [hg.outLen],
    fun m _ _ => congrArg Host.Outcome.next (hg.withOut s m)⟩

theorem ofFault (r : Fault) : AppendsAtMost n fun _ => .fault r := by
  rintro s - t ⟨⟩

theorem ofUpdate {f : State → Result} {g : State → State} (hg : OffOutput g) (hf : AppendsAtMost n f) :
    AppendsAtMost n fun s => f (g s) := by
  rintro s ⟨hwf, hroom⟩ t ht
  obtain ⟨bs, hlen, h⟩ := hf (g s) ⟨by rwa [hg.outMem], by rwa [hg.outLen, hg.outCap]⟩ t ht
  have hanswer := h.answer
  rw [hg.outLen, hg.outMem] at hanswer
  exact ⟨bs, hlen, hg.outLen s ▸ h.outLen, hg.outCap s ▸ h.room,
    fun m hm hsame => (congrArg f (hg.withOut s m)).trans (hanswer m hm hsame)⟩

theorem ofIte {p : State → Prop} [∀ s, Decidable (p s)] {f g : State → Result} (hp : ∀ s m, p (s.withOut m) ↔ p s)
    (hf : AppendsAtMost n f) (hg : AppendsAtMost n g) : AppendsAtMost n fun s => if p s then f s else g s :=
  fun s => .ofIte (hp s) (fun _ => hf s) fun _ => hg s

/-- What a meaning looks up elsewhere than in the output may steer it. -/
theorem ofLookup {α : Type} {look : State → α} {f : α → State → Result} (hlook : ∀ s m, look (s.withOut m) = look s)
    (hf : ∀ a, AppendsAtMost n (f a)) : AppendsAtMost n fun s => f (look s) s :=
  fun s => .congr (f' := f (look s)) (fun m => by rw [hlook]) (hf _ s)

theorem ofField {w : Nat} {k : State → Result} (hk : AppendsAtMost n k) : AppendsAtMost n fun s => field w s k :=
  ofIte (fun _ _ => Iff.rfl) (ofUpdate (g := State.skip w) {} hk)
    (ofNext (g := fun s => raise .unexpectedEndOfStream s.atEnd) {})

theorem ofBuildThen {ls : State → List Nat} {g : State → State} {k : Tree → State → Result}
    (hls : ∀ s m, ls (s.withOut m) = ls s) (hg : OffOutput g) (hk : ∀ t, AppendsAtMost n (k t)) :
    AppendsAtMost n fun s => buildThen (ls s) (g s) fun t => k t s := by
  refine ofLookup (look := ls) (f := fun ls s => buildThen ls (g s) fun t => k t s) hls fun ls s => ?_
  rcases h : Huffman.build ls with _ | tree
  · exact .congr (fun m => buildThen_none h _ _) (ofUpdate hg (ofNext (offOutput_raise .invalidHuffmanTree)) s)
  · exact .congr (fun m => buildThen_some h _ _) (hk tree s)

theorem ofHuff {t : Tree} {k : Nat → State → Result} (hk : ∀ sym, AppendsAtMost n (k sym)) :
    AppendsAtMost n fun s => huff t s k := by
  intro s
  rcases hd : Huffman.decode t (window s) with _ | ⟨sym, w⟩
  · exact .congr (fun m => by simp only [huff, withOut_window, hd])
      (ofField (w := Config.maxBits) (ofNext (offOutput_raise .invalidHuffmanCode)) s)
  · exact .congr (fun m => by simp only [huff, withOut_window, hd]) (ofField (w := w) (hk sym) s)

/-- `Append` adds one byte, which may come from the output below `OUT_LEN` (R401, R402). -/
theorem ofAppendAt {b : State → Byte} {k : State → Result} {s : State}
    (hb : ∀ m, SameBelow s.outLen.toNat m s.outMem → b (s.withOut m) = b s) (hk : AppendsAtMost n k) :
    AppendsAtMostAt (n + 1) (fun s => append (b s) s k) s := by
  refine .ofIte (fun _ => Iff.rfl) (fun _ => ofNext (offOutput_raise .outputOverflow) s) fun hfull => ?_
  rintro ⟨hwf, hroom⟩ t ht
  obtain ⟨hsucc, hle⟩ := outLen_add_one hroom hfull
  obtain ⟨bs, hlen, h⟩ := hk (s.appended (b s)) ⟨Memory.wf_write _ hwf _ _, hle⟩ t ht
  have houtLen : t.outLen.toNat = s.outLen.toNat + 1 + bs.length := hsucc ▸ h.outLen
  refine ⟨b s :: bs, Nat.succ_le_succ hlen, by rw [houtLen, List.length_cons]; omega, h.room, fun m hm hsame => ?_⟩
  have hsame' : SameBelow (s.outLen + 1).toNat (Memory.write s.outLen.toNat (b s) m)
      (Memory.write s.outLen.toNat (b s) s.outMem) := hsucc ▸ hsame.write hm hwf (b s)
  calc k ((s.withOut m).appended (b (s.withOut m)))
      = k ((s.appended (b s)).withOut (Memory.write s.outLen.toNat (b s) m)) := by rw [hb m hsame]; rfl
    _ = .next (t.withOut (Memory.writeBytes (s.outLen + 1).toNat bs (Memory.write s.outLen.toNat (b s) m))) :=
        h.answer _ (Memory.wf_write m hm _ _) hsame'
    _ = .next (t.withOut (Memory.writeBytes s.outLen.toNat (b s :: bs) m)) := by rw [hsucc]; rfl

theorem ofAppend {b : Byte} {k : State → Result} (hk : AppendsAtMost n k) : AppendsAtMost (n + 1) fun s => append b s k :=
  fun _ => ofAppendAt (b := fun _ => b) (fun _ _ => rfl) hk

end AppendsAtMost
end Sys2Proof.Machine
end

section
/-! Every meaning of the engine appends at most one byte, and so does its step (R400). -/

namespace Sys2Proof.Machine

open AppendsAtMost

/-! ## Headers and stored blocks -/

section
variable {n : Nat}

theorem blockHdr_appendsAtMost (final : Bool) (btype : BitVec 2) {k : State → Result} (hk : AppendsAtMost n k) :
    AppendsAtMost n fun s => blockHdr final btype s k :=
  ofField <| ofUpdate (f := fun s => field 2 s _) (g := fun s => { s with bfinal := final }) {} <|
  ofField <| ofUpdate (g := fun s => { s with btype := btype }) {} hk

/-- Both `Build`s of a block read tables only. -/
theorem buildTrees_appendsAtMost {ll d : State → List Nat} {g : State → State} (hll : ∀ s m, ll (s.withOut m) = ll s)
    (hd : ∀ s m, d (s.withOut m) = d s) (hg : OffOutput g) :
    AppendsAtMost n fun s => buildTrees (ll s) (d s) (g s) := by
  refine ofBuildThen hll hg fun tLL => ofBuildThen (g := fun s => { g s with tLL := some tLL }) hd ?_ fun tD =>
    ofNext (g := fun s => { g s with tLL := some tLL, tD := some tD, phase := .sym }) ?_
  all_goals exact ⟨hg.outLen, hg.outCap, hg.outMem, fun s m => by rw [hg.withOut]; rfl⟩

theorem offOutput_setFixedTables : OffOutput setFixedTables where
  outLen s := by rw [setFixedTables_eq]
  outCap s := by rw [setFixedTables_eq]
  outMem s := by rw [setFixedTables_eq]
  withOut s m := by
    rw [setFixedTables_eq, setFixedTables_eq]
    rfl

theorem execFixed_appendsAtMost (final : Bool) : AppendsAtMost n (execFixed final) :=
  blockHdr_appendsAtMost _ _ <| buildTrees_appendsAtMost (fun _ _ => rfl) (fun _ _ => rfl) offOutput_setFixedTables

theorem execStoredHdr_appendsAtMost (len nlen : BitVec 16) : AppendsAtMost n (execStoredHdr len nlen) :=
  ofUpdate (g := alignByte) {} <|
  ofField <| ofUpdate (f := fun s => field 16 s _) (g := fun s => { s with storedLen := len }) {} <|
  ofField <| ofIte (fun _ _ => Iff.rfl) (ofNext {}) (ofIte (fun _ _ => Iff.rfl) (ofNext {}) (ofNext {}))

/-- A stored byte is the one appended (R286). -/
theorem execStoredByte_appendsAtMost (data : Byte) : AppendsAtMost (n + 1) (execStoredByte data) :=
  ofField <| ofAppend <| ofNext <| offOutput_ite (p := fun s => s.storedRem - 1 = 0) (fun _ _ => Iff.rfl) {} {}

/-! ## The descriptor -/

theorem clLengths_appendsAtMost (lens : List (Nat × BitVec 3)) {k : State → Result} (hk : AppendsAtMost n k) :
    AppendsAtMost n fun s => clLengths lens s k := by
  induction lens with
  | nil => exact hk
  | cons il rest ih =>
    exact ofField <| ofUpdate (f := fun s => clLengths rest s k)
      (g := fun s => { s with clLen := tableSet s.clLen il.1 il.2 }) {} ih

theorem execDynHdr_appendsAtMost (hlit hdist : BitVec 5) (hclen : BitVec 4) (lens : List (BitVec 3)) :
    AppendsAtMost n (execDynHdr hlit hdist hclen lens) :=
  ofField <| ofUpdate (f := fun s => field 5 s _) (g := fun s => { s with hlit := hlit }) {} <|
  ofField <| ofUpdate (f := fun s => field 4 s _) (g := fun s => { s with hdist := hdist }) {} <|
  ofField <| ofUpdate (f := fun s => clLengths (clOrder.zip lens) s _)
    (g := fun s => { s with hclen := hclen, clLen := tableOf 3 19 fun _ => 0 }) {} <|
  clLengths_appendsAtMost _ <| ofBuildThen (fun _ _ => rfl) {} fun _ => ofNext {}

theorem clFinish_appendsAtMost : AppendsAtMost n clFinish :=
  ofIte (fun _ _ => Iff.rfl) (buildTrees_appendsAtMost (fun _ _ => rfl) (fun _ _ => rfl) {}) (ofNext {})

theorem clRun_appendsAtMost (r : Nat) (v : BitVec 4) : AppendsAtMost n (clRun r v) :=
  ofIte (fun _ _ => Iff.rfl) (ofNext {}) <| ofUpdate (f := clFinish) {} clFinish_appendsAtMost

theorem execClRep16_appendsAtMost (extra : BitVec 2) : AppendsAtMost n (execClRep16 extra) :=
  ofIte (fun _ _ => Iff.rfl) (ofNext {}) <| ofField <|
    ofLookup (look := fun s => tableGet s.seq (s.seqIdx.toNat - 1)) (fun _ _ => rfl) fun v => clRun_appendsAtMost _ v

/-! ## Lengths and distances -/

theorem offOutput_copyStart : OffOutput copyStart :=
  offOutput_ite (p := fun s => s.matchDist.toNat < 1 ∨ s.outLen.toNat < s.matchDist.toNat) (fun _ _ => Iff.rfl) {} {}

theorem distRow_appendsAtMost {w : Nat} (base : Nat) (extra : BitVec w) : AppendsAtMost n (distRow base extra) :=
  ofField <| ofUpdate (g := fun s => { s with matchDist := BitVec.ofNat 16 (base + extra.toNat) }) {} <|
    ofNext offOutput_copyStart

/-- A match writes its bytes in the copy steps, none in the row that starts it (R403). -/
theorem exec_distance_appendsAtMost {i : Instr} {dist w : Nat} (h : distanceOperand i = some (dist, w)) :
    AppendsAtMost n (exec i) := by
  obtain ⟨base, e, -, hexec⟩ := exec_distance h
  rw [show exec i = distRow base e from funext hexec]
  exact distRow_appendsAtMost base e

theorem exec_dRow_appendsAtMost (sym : Nat) (ops : Bits) : AppendsAtMost n (exec (dRow sym ops)) := by
  by_cases hvalid : sym ≤ 29
  · obtain ⟨-, htable, -⟩ := matchTables
    exact exec_distance_appendsAtMost (htable sym ops hvalid)
  by_cases h30 : sym = 30
  · subst h30
    exact ofNext (offOutput_raise .invalidSymbol)
  · obtain ⟨k, rfl⟩ : ∃ k, sym = k + 31 := ⟨sym - 31, by omega⟩
    exact ofNext (offOutput_raise .invalidSymbol)

theorem distanceSymbol_appendsAtMost (sym : Nat) : AppendsAtMost n (distanceSymbol sym) := by
  rw [show distanceSymbol sym = fun s => exec (dRow sym (window s)) s from funext (distanceSymbol_eq sym)]
  exact ofLookup (f := fun ops => exec (dRow sym ops)) (fun _ _ => rfl) (exec_dRow_appendsAtMost sym)

theorem distance_appendsAtMost : AppendsAtMost n distance := by
  intro s
  rcases htree : s.tD with _ | tree
  · exact .congr (fun m => by simp only [distance, withOut_tD, htree]) (ofFault .treeAbsent s)
  · exact .congr (fun m => by simp only [distance, withOut_tD, htree]) (ofHuff (t := tree) distanceSymbol_appendsAtMost s)

theorem exec_length_appendsAtMost {i : Instr} {len w : Nat} (h : lengthOperand i = some (len, w)) :
    AppendsAtMost n (exec i) := by
  obtain ⟨base, e, -, hexec⟩ := exec_length h
  rw [show exec i = lengthRow base e from funext hexec]
  exact ofField <| ofUpdate (g := fun s => { s with matchLen := BitVec.ofNat 9 (base + e.toNat) }) {} distance_appendsAtMost

end

/-! ## The step -/

/-- Of all elements only a literal and a stored byte append, and they append one byte (R401). -/
theorem exec_appendsAtMost_one (i : Instr) : AppendsAtMost 1 (exec i) := by
  rcases hlength : lengthOperand i with _ | ⟨len, w⟩
  case some => exact exec_length_appendsAtMost hlength
  rcases hdistance : distanceOperand i with _ | ⟨dist, w⟩
  case some => exact exec_distance_appendsAtMost hdistance
  cases i
  case stored final => exact blockHdr_appendsAtMost _ _ (ofNext (g := fun s => { s with phase := .storedHdr }) {})
  case fixed final => exact execFixed_appendsAtMost final
  case dynamic final => exact blockHdr_appendsAtMost _ _ (ofNext (g := fun s => { s with phase := .dynHdr }) {})
  case reserved final => exact blockHdr_appendsAtMost _ _ (ofNext (offOutput_raise _))
  case storedHdr len nlen => exact execStoredHdr_appendsAtMost len nlen
  case storedByte data => exact execStoredByte_appendsAtMost data
  case dynHdr hlit hdist hclen lens => exact execDynHdr_appendsAtMost hlit hdist hclen lens
  case clLen v => exact ofUpdate (f := clFinish) {} clFinish_appendsAtMost
  case clRep16 extra => exact execClRep16_appendsAtMost extra
  case clZero17 extra => exact ofField (clRun_appendsAtMost _ 0)
  case clZero18 extra => exact ofField (clRun_appendsAtMost _ 0)
  case lit b => exact ofAppend (ofNext {})
  case eob => exact ofNext (g := blockEnd) {}
  case llInvalid286 | llInvalid287 | dInvalid30 | dInvalid31 => exact ofNext (offOutput_raise .invalidSymbol)
  all_goals simp only [lengthOperand, distanceOperand, reduceCtorEq] at hlength hdistance

/-- The byte a copy step reads stands below `OUT_LEN` (R402, R403). -/
theorem copyStep_appendsAtMostAt {s : State} (hdist : 1 ≤ s.matchDist.toNat) : AppendsAtMostAt 1 copyStep s := by
  refine .ofIte (fun _ => Iff.rfl) (fun _ => ofFault .copySourceAbsent s) fun hsrc => ?_
  have hbelow : s.outLen.toNat - s.matchDist.toNat < s.outLen.toNat := by omega
  exact ofAppendAt (b := fun s => Memory.read s.outMem (s.outLen.toNat - s.matchDist.toNat))
    (fun m hsame => hsame _ hbelow) (ofNext {})

theorem runSymbol_appendsAtMost (tree : Option Tree) (row : Nat → Bits → Instr) : AppendsAtMost 1 (runSymbol tree row) := by
  rcases tree with _ | t
  · exact ofFault .treeAbsent
  · exact ofHuff fun sym => ofLookup (f := fun bits => exec (row sym bits)) (fun _ _ => rfl) fun bits =>
      exec_appendsAtMost_one (row sym bits)

/-- One step of the engine appends at most one byte, and reads no byte of the output at or above `OUT_LEN` (R400). -/
theorem engineStep_appendsAtMostAt {s : State} (hcopy : s.phase = .copy → 1 ≤ s.matchDist.toNat) :
    AppendsAtMostAt 1 engineStep s := by
  rcases hphase : s.phase
  case hdr =>
    exact .congr (fun m => by simp only [engineStep, withOut_phase, withOut_window, hphase])
      (exec_appendsAtMost_one (blockHdrElem (window s)) s)
  case storedHdr =>
    exact .congr (fun m => by simp only [engineStep, withOut_phase, withOut_window, withOut_padBits, hphase])
      (exec_appendsAtMost_one (storedHdrElem (padBits s) (window s)) s)
  case storedData =>
    exact .congr (fun m => by simp only [engineStep, withOut_phase, withOut_window, hphase])
      (exec_appendsAtMost_one (storedByteElem (window s)) s)
  case dynHdr =>
    exact .congr (fun m => by simp only [engineStep, withOut_phase, withOut_window, hphase])
      (exec_appendsAtMost_one (dynHdrElem (window s)) s)
  case dynSeq =>
    exact .congr (fun m => by simp only [engineStep, withOut_phase, withOut_tCL, hphase])
      (runSymbol_appendsAtMost s.tCL clRow s)
  case sym =>
    exact .congr (fun m => by simp only [engineStep, withOut_phase, withOut_tLL, hphase])
      (runSymbol_appendsAtMost s.tLL llRow s)
  case copy =>
    exact .congr (fun m => by simp only [engineStep, withOut_phase, hphase]) (copyStep_appendsAtMostAt (hcopy hphase))
  case idle | paused | done | error =>
    exact .congr (fun m => by simp only [engineStep, withOut_phase, hphase]) (ofNext (g := fun s => s) {} s)

/-- Outside a session the engine takes no step (R480). -/
theorem engineStep_of_not_inSession {s : State} (h : ¬ s.phase.inSession = true) : engineStep s = .next s := by
  rcases hphase : s.phase
  case idle | done | error => rw [engineStep, hphase]
  all_goals
    rw [hphase] at h
    exact absurd rfl h

/-- What a step of a session does to the output (R400). -/
theorem engineStep_appends {s t : State} (hinv : s.Inv) (hsession : s.phase.inSession = true) (ht : engineStep s = .next t) :
    ∃ bs, bs.length ≤ 1 ∧ Appends bs engineStep s t :=
  engineStep_appendsAtMostAt (fun hcopy => (hinv.copy hcopy).1) ⟨hinv.outMem, hinv.room hsession⟩ t ht

theorem start_outLen {s : State} (h : s.phase.status ≠ .busy) : (start s).outLen = 0 := by
  rw [start, if_neg h]

/-- Settles O57: a step appends no byte or one, the same over every output memory that agrees below `OUT_LEN`. -/
theorem outputIsAppendOnly : Obligations.OutputIsAppendOnly := by
  refine ⟨fun s t hinv ht => ?_, fun s t m hinv hm ht hsame => ?_, fun s => start_outLen⟩
  · by_cases hsession : s.phase.inSession = true
    · obtain ⟨bs, hlen, happ⟩ := engineStep_appends hinv hsession ht
      have hmem := happ.outMem hinv.outMem ht
      obtain rfl | ⟨b, rfl⟩ : bs = [] ∨ ∃ b, bs = [b] := by
        rwa [Nat.le_one_iff_eq_zero_or_eq_one, List.length_eq_zero_iff, List.length_eq_one_iff] at hlen
      · exact .inl ⟨BitVec.eq_of_toNat_eq happ.outLen, hmem⟩
      · exact .inr ⟨happ.outLen, happ.room, fun a ha => hmem ▸ Memory.read_write_other _ hinv.outMem _ b a ha⟩
    · obtain rfl : s = t := Host.Outcome.next.inj ((engineStep_of_not_inSession hsession).symm.trans ht)
      exact .inl ⟨rfl, rfl⟩
  · by_cases hsession : s.phase.inSession = true
    · obtain ⟨bs, -, happ⟩ := engineStep_appends hinv hsession ht
      refine ⟨_, happ.answer m hm hsame, ?_⟩
      rw [happ.outLen, happ.outMem hinv.outMem ht]
      exact SameBelow.writeBytes hsame hm hinv.outMem bs
    · obtain rfl : s = t := Host.Outcome.next.inj ((engineStep_of_not_inSession hsession).symm.trans ht)
      exact ⟨m, engineStep_of_not_inSession (s := s.withOut m) hsession, hsame⟩

end Sys2Proof.Machine
end

section
/-! The commands of the host (R420–R424): what a write of `CTRL` does, by its bits 0, 1 and 8 and the phase. -/

namespace Sys2Proof.Machine

/-- The phases that `STATUS.STATE` shows as `BUSY` are those of the engine's steps (R45). -/
theorem status_eq_busy_iff (p : Phase) : p.status = .busy ↔ p ∉ [Phase.idle, .paused, .done, .error] := by
  cases p <;> decide

theorem ne_paused_of_status_busy {p : Phase} (h : p.status = .busy) : p ≠ .paused :=
  fun hpaused => (status_eq_busy_iff p).mp h (by simp [hpaused])

/-! ## `START` and `RESUME` -/

theorem start_of_busy {s : State} (h : s.phase.status = .busy) : start s = s := if_pos h

theorem start_of_not_busy {s : State} (h : s.phase.status ≠ .busy) :
    start s = { s with
      bitpos := 0, outLen := 0, blockIdx := 0, bfinal := false, errCode := 0, errBitpos := 0, errBlock := 0, phase := .hdr } :=
  if_neg h

theorem resume_of_paused {s : State} (h : s.phase = .paused) : resume s = { s with phase := .hdr } := if_pos h

theorem resume_of_not_paused {s : State} (h : s.phase ≠ .paused) : resume s = s := if_neg h

/-- `BLOCK_STEP` decides between `PAUSED` and `HDR` only, and `RESUME` undoes the pause (R290, R422, R423). -/
theorem resume_blockEnd {s : State} (hfinal : s.bfinal = false) :
    resume (blockEnd { s with blockStep := true }) = { blockEnd { s with blockStep := false } with blockStep := true } := by
  have hpause : (blockEnd { s with blockStep := true }).phase = .paused := by simp [phaseAfterBlock, hfinal]
  have hgo : (blockEnd { s with blockStep := false }).phase = .hdr := by simp [phaseAfterBlock, hfinal]
  rw [resume_of_paused hpause, ← hgo]
  rfl

/-! ## A write of `CTRL` -/

section
variable {s : State} {v : Word}

theorem writeCtrl_start (h0 : v.getLsbD 0 = true) : writeCtrl v s = start { s with blockStep := v.getLsbD 8 } := if_pos h0

theorem writeCtrl_resume (h0 : v.getLsbD 0 = false) (h1 : v.getLsbD 1 = true) :
    writeCtrl v s = resume { s with blockStep := v.getLsbD 8 } := by
  simp only [writeCtrl, h0, h1, Bool.false_eq_true, if_false, if_true]

theorem writeCtrl_neither (h0 : v.getLsbD 0 = false) (h1 : v.getLsbD 1 = false) :
    writeCtrl v s = { s with blockStep := v.getLsbD 8 } := by
  simp only [writeCtrl, h0, h1, Bool.false_eq_true, if_false]

/-- Without `START`, a write outside `PAUSED` only stores `BLOCK_STEP` (R422). -/
theorem writeCtrl_of_not_paused (h0 : v.getLsbD 0 = false) (hphase : s.phase ≠ .paused) :
    writeCtrl v s = { s with blockStep := v.getLsbD 8 } := by
  cases h1 : v.getLsbD 1
  · exact writeCtrl_neither h0 h1
  · exact (writeCtrl_resume h0 h1).trans (resume_of_not_paused hphase)

/-- In `BUSY` a write only stores `BLOCK_STEP` (R424). -/
theorem writeCtrl_of_busy (hbusy : s.phase.status = .busy) : writeCtrl v s = { s with blockStep := v.getLsbD 8 } := by
  cases h0 : v.getLsbD 0
  · exact writeCtrl_of_not_paused h0 (ne_paused_of_status_busy hbusy)
  · exact (writeCtrl_start h0).trans (start_of_busy hbusy)

/-- A `CTRL` write at the head of the queue takes the step. -/
theorem step_of_writeCtrl {q : List HostEvent} (hq : s.hostQueue = .writeReg 0 4 v :: q) :
    step s = .next (writeCtrl v { s with hostQueue := q }) := by
  rw [step, hq]
  rfl

end

/-- Settles O47: the phases outside `BUSY` are the four that take `START`. -/
theorem startCommand : Obligations.StartCommand := by
  intro s q v hq h0
  rw [step_of_writeCtrl hq, ← status_eq_busy_iff]
  refine ⟨fun hphase => ?_, fun hbusy => congrArg _ (writeCtrl_of_busy hbusy)⟩
  have hbusy : s.phase.status ≠ .busy := fun h => (status_eq_busy_iff _).mp h hphase
  exact congrArg _ ((writeCtrl_start h0).trans (start_of_not_busy hbusy))

/-- Settles O48: `RESUME` writes `PHASE` alone, and `PHASE` is all that a pause changes. -/
theorem resumeCommand : Obligations.ResumeCommand := by
  refine ⟨fun s q v hq h0 h1 => ?_, fun s => resume_blockEnd⟩
  rw [step_of_writeCtrl hq]
  refine ⟨fun hpaused => ?_, fun hphase => congrArg _ (writeCtrl_of_not_paused h0 hphase)⟩
  exact congrArg _ ((writeCtrl_resume h0 h1).trans (resume_of_paused hpaused))

/-- Settles O49: one lemma for each line of R424. -/
theorem commandConflicts : Obligations.CommandConflicts := fun _ _ =>
  ⟨fun h0 _ => writeCtrl_start h0, writeCtrl_of_busy, writeCtrl_of_not_paused, writeCtrl_neither⟩

end Sys2Proof.Machine
end

section
/-! Trap entry (60_exceptions.md, R460–R463): what a meaning does to the error registers, as a calculus over the ways a meaning is
built. -/

namespace Sys2Proof.Machine

/-! ## The statement about one meaning -/

/-- The errors the engine raises (R462): neither of the host's two. -/
def engineErrors : List Err :=
  [.unexpectedEndOfStream, .invalidBlockType, .storedBlockLengthMismatch, .invalidHuffmanTree, .invalidHuffmanCode,
    .invalidTreeDescription, .invalidSymbol, .invalidDistance, .outputOverflow]

/-- The errors raised elsewhere than in the repeat symbols (R457). -/
def plainErrors : List Err := engineErrors.erase .invalidTreeDescription

theorem plainErrors_subset : plainErrors ⊆ engineErrors := List.erase_subset ..

/-- From `s` to `t` no error is taken. -/
structure NoTrap (s t : State) : Prop where
  phase : t.phase ≠ .error
  errCode : t.errCode = s.errCode
  errBitpos : t.errBitpos = s.errBitpos
  errBlock : t.errBlock = s.errBlock

/-- From `s` to `t` no error is taken, or one of `E` is raised in the block of `s` (R460). -/
def TrapsOnly (E : List Err) (s t : State) : Prop :=
  NoTrap s t ∨ ∃ e ∈ E, ∃ u : State, u.blockIdx = s.blockIdx ∧ t = raise e u

/-- The meaning `f` takes no error but those of `E`. -/
def RaisesOnly (E : List Err) (f : State → Result) : Prop :=
  ∀ s t, s.phase ≠ .error → f s = .next t → TrapsOnly E s t

/-- An update of registers that takes no error. -/
structure TrapFree (g : State → State) : Prop where
  phase : ∀ s, s.phase ≠ .error → (g s).phase ≠ .error := by simp
  errCode : ∀ s, (g s).errCode = s.errCode := by intros; rfl
  errBitpos : ∀ s, (g s).errBitpos = s.errBitpos := by intros; rfl
  errBlock : ∀ s, (g s).errBlock = s.errBlock := by intros; rfl

theorem trapFree_ite {p : State → Prop} [∀ s, Decidable (p s)] {f g : State → State} (hf : TrapFree f) (hg : TrapFree g) :
    TrapFree fun s => if p s then f s else g s where
  phase s hs := by
    split
    · exact hf.phase s hs
    · exact hg.phase s hs
  errCode s := by split <;> simp only [hf.errCode, hg.errCode]
  errBitpos s := by split <;> simp only [hf.errBitpos, hg.errBitpos]
  errBlock s := by split <;> simp only [hf.errBlock, hg.errBlock]

@[simp] theorem phaseAfterBlock_ne_error (bfinal blockStep : Bool) : phaseAfterBlock bfinal blockStep ≠ .error := by
  revert bfinal blockStep
  decide

namespace RaisesOnly

/-! ## One rule per way a meaning is built -/

variable {E : List Err}

theorem mono {E' : List Err} {f : State → Result} (h : RaisesOnly E f) (hE : E ⊆ E') : RaisesOnly E' f :=
  fun s t hs ht => (h s t hs ht).imp_right fun ⟨e, he, hraise⟩ => ⟨e, hE he, hraise⟩

theorem ofNext {g : State → State} (hg : TrapFree g) : RaisesOnly E fun s => .next (g s) := by
  rintro s - hs ⟨⟩
  exact .inl ⟨hg.phase s hs, hg.errCode s, hg.errBitpos s, hg.errBlock s⟩

theorem ofRaise (e : Err) (he : e ∈ E := by decide) : RaisesOnly E fun s => .next (raise e s) := by
  rintro s - - ⟨⟩
  exact .inr ⟨e, he, s, rfl, rfl⟩

theorem ofFault (r : Fault) : RaisesOnly E fun _ => .fault r := by
  rintro s t - ⟨⟩

/-- An error is recorded with the index of the block it is found in, so what comes before it must not end the block. -/
theorem ofUpdate {f : State → Result} {g : State → State} (hg : TrapFree g) (hf : RaisesOnly E f)
    (hblock : ∀ s, (g s).blockIdx = s.blockIdx := by intros; rfl) : RaisesOnly E fun s => f (g s) := by
  intro s t hs ht
  rcases hf (g s) t (hg.phase s hs) ht with ⟨hphase, hcode, hbitpos, hblk⟩ | ⟨e, he, u, hu, rfl⟩
  · exact .inl ⟨hphase, hcode.trans (hg.errCode s), hbitpos.trans (hg.errBitpos s), hblk.trans (hg.errBlock s)⟩
  · exact .inr ⟨e, he, u, hu.trans (hblock s), rfl⟩

theorem ofIte {p : State → Prop} [∀ s, Decidable (p s)] {f g : State → Result} (hf : RaisesOnly E f) (hg : RaisesOnly E g) :
    RaisesOnly E fun s => if p s then f s else g s := by
  intro s t hs ht
  by_cases h : p s
  · exact hf s t hs ((if_pos h).symm.trans ht)
  · exact hg s t hs ((if_neg h).symm.trans ht)

theorem ofField {n : Nat} {k : State → Result} (hk : RaisesOnly E k) (he : .unexpectedEndOfStream ∈ E := by decide) :
    RaisesOnly E fun s => field n s k :=
  ofIte (ofUpdate (g := State.skip n) {} hk) (ofUpdate (g := State.atEnd) {} (ofRaise .unexpectedEndOfStream he))

theorem ofAppend {b : State → Byte} {k : State → Result} (hk : RaisesOnly E k) (he : .outputOverflow ∈ E := by decide) :
    RaisesOnly E fun s => append (b s) s k :=
  ofIte (ofRaise .outputOverflow he) (ofUpdate (g := fun s => s.appended (b s)) { phase := fun _ hs => hs } hk)

theorem ofBuildThen {ls : State → List Nat} {g : State → State} {k : Tree → State → Result}
    (hk : ∀ tree, RaisesOnly E (k tree)) (he : .invalidHuffmanTree ∈ E := by decide)
    (hblock : ∀ s, (g s).blockIdx = s.blockIdx := by intros; rfl) :
    RaisesOnly E fun s => buildThen (ls s) (g s) fun tree => k tree s := by
  intro s t hs ht
  rcases buildThen_cases ht with ⟨tree, -, hnext⟩ | ⟨-, rfl⟩
  · exact hk tree s t hs hnext
  · exact .inr ⟨_, he, g s, hblock s, rfl⟩

theorem ofHuff {tree : Tree} {k : Nat → State → Result} (hk : ∀ sym, RaisesOnly E (k sym))
    (hcode : .invalidHuffmanCode ∈ E := by decide) (hend : .unexpectedEndOfStream ∈ E := by decide) :
    RaisesOnly E fun s => huff tree s k := by
  intro s t hs ht
  rcases huff_cases ht with ⟨sym, n, -, hfield⟩ | ⟨-, hfield⟩
  · exact ofField (hk sym) hend s t hs hfield
  · exact ofField (ofRaise .invalidHuffmanCode hcode) hend s t hs hfield

end RaisesOnly

end Sys2Proof.Machine
end

section
/-! The errors of every element and of the engine's step (R457, R458, R462). -/

namespace Sys2Proof.Machine

open RaisesOnly

/-! ## Headers and stored blocks -/

theorem blockHdr_raisesOnly (final : Bool) (btype : BitVec 2) {k : State → Result} (hk : RaisesOnly plainErrors k) :
    RaisesOnly plainErrors fun s => blockHdr final btype s k :=
  ofField <| ofUpdate (f := fun s => field 2 s _) (g := fun s => { s with bfinal := final }) {} <|
  ofField <| ofUpdate (g := fun s => { s with btype := btype }) {} hk

theorem buildTrees_raisesOnly {ll d : State → List Nat} {g : State → State} (hg : TrapFree g)
    (hblock : ∀ s, (g s).blockIdx = s.blockIdx := by intros; rfl) :
    RaisesOnly plainErrors fun s => buildTrees (ll s) (d s) (g s) :=
  ofBuildThen (hblock := hblock) fun tLL =>
  ofBuildThen (g := fun s => { g s with tLL := some tLL }) (hblock := hblock) fun tD =>
  ofNext (g := fun s => { g s with tLL := some tLL, tD := some tD, phase := .sym })
    ⟨by simp, hg.errCode, hg.errBitpos, hg.errBlock⟩

theorem trapFree_setFixedTables : TrapFree setFixedTables where
  phase s hs := by rwa [setFixedTables_eq]
  errCode s := by rw [setFixedTables_eq]
  errBitpos s := by rw [setFixedTables_eq]
  errBlock s := by rw [setFixedTables_eq]

theorem execFixed_raisesOnly (final : Bool) : RaisesOnly plainErrors (execFixed final) :=
  blockHdr_raisesOnly final _ <| buildTrees_raisesOnly trapFree_setFixedTables fun s => by rw [setFixedTables_eq]

theorem execStoredHdr_raisesOnly (len nlen : BitVec 16) : RaisesOnly plainErrors (execStoredHdr len nlen) :=
  ofUpdate (g := alignByte) {} <|
  ofField <| ofUpdate (f := fun s => field 16 s _) (g := fun s => { s with storedLen := len }) {} <|
  ofField <| ofIte (ofUpdate (g := fun s => { s with storedNlen := nlen }) {} (ofRaise .storedBlockLengthMismatch)) <|
  ofIte (ofNext (g := fun s => blockEnd { s with storedNlen := nlen, storedRem := len }) {}) <|
  ofNext (g := fun s => { s with storedNlen := nlen, storedRem := len, phase := .storedData }) {}

theorem execStoredByte_raisesOnly (data : Byte) : RaisesOnly plainErrors (execStoredByte data) :=
  ofField <| ofAppend (b := fun _ => data) <| ofNext <| trapFree_ite (p := fun s => s.storedRem - 1 = 0)
    (f := fun s => blockEnd { s with storedRem := s.storedRem - 1 })
    (g := fun s => { s with storedRem := s.storedRem - 1 }) {} {}

/-! ## The descriptor -/

theorem clLengths_raisesOnly (lens : List (Nat × BitVec 3)) {k : State → Result} (hk : RaisesOnly plainErrors k) :
    RaisesOnly plainErrors fun s => clLengths lens s k := by
  induction lens with
  | nil => exact hk
  | cons il rest ih =>
    exact ofField <| ofUpdate (f := fun s => clLengths rest s k)
      (g := fun s => { s with clLen := tableSet s.clLen il.1 il.2 }) {} ih

theorem execDynHdr_raisesOnly (hlit hdist : BitVec 5) (hclen : BitVec 4) (lens : List (BitVec 3)) :
    RaisesOnly plainErrors (execDynHdr hlit hdist hclen lens) :=
  ofField <| ofUpdate (f := fun s => field 5 s _) (g := fun s => { s with hlit := hlit }) {} <|
  ofField <| ofUpdate (f := fun s => field 4 s _) (g := fun s => { s with hdist := hdist }) {} <|
  ofField <| ofUpdate (f := fun s => clLengths (clOrder.zip lens) s _)
    (g := fun s => { s with hclen := hclen, clLen := tableOf 3 19 fun _ => 0 }) {} <|
  clLengths_raisesOnly _ <| ofBuildThen fun tCL =>
    ofNext (g := fun s => { s with tCL := some tCL, seqTotal := seqTotalOf hlit hdist, seqIdx := 0, phase := .dynSeq }) {}

theorem clFinish_raisesOnly : RaisesOnly plainErrors clFinish := ofIte (buildTrees_raisesOnly {}) (ofNext {})

theorem execClLen_raisesOnly (v : BitVec 4) : RaisesOnly plainErrors (execClLen v) :=
  ofUpdate (f := clFinish) (g := fun s => { s with seq := tableSet s.seq s.seqIdx.toNat v, seqIdx := s.seqIdx + 1 }) {}
    clFinish_raisesOnly

/-! ## Lengths, distances and invalid symbols -/

theorem copyStart_raisesOnly : RaisesOnly plainErrors fun s => .next (copyStart s) := by
  rintro s - hs ⟨⟩
  rcases copyStart_cases s with ⟨-, h⟩ | ⟨-, -, h⟩
  · exact h ▸ .inr ⟨.invalidDistance, by decide, s, rfl, rfl⟩
  · exact h ▸ .inl ⟨nofun, rfl, rfl, rfl⟩

theorem exec_distance_raisesOnly {i : Instr} {dist w : Nat} (h : distanceOperand i = some (dist, w)) :
    RaisesOnly plainErrors (exec i) := by
  rw [funext (exec_distance_eq_field h)]
  exact ofField <| ofUpdate (g := fun s => { s with matchDist := BitVec.ofNat 16 dist }) {} copyStart_raisesOnly

/-- Settles O30: each of the four rows is one `RAISE`. -/
theorem invalidSymbolsRaise : Obligations.InvalidSymbolsRaise := by
  intro s i hi
  obtain rfl | rfl | rfl | rfl : i = .llInvalid286 ∨ i = .llInvalid287 ∨ i = .dInvalid30 ∨ i = .dInvalid31 := by
    simpa using hi
  all_goals rfl

theorem exec_invalid_raisesOnly {i : Instr} (h : i ∈ [Instr.llInvalid286, .llInvalid287, .dInvalid30, .dInvalid31]) :
    RaisesOnly plainErrors (exec i) := by
  rw [funext fun s => invalidSymbolsRaise s i h]
  exact ofRaise .invalidSymbol

theorem exec_dRow_raisesOnly (sym : Nat) (ops : Bits) : RaisesOnly plainErrors (exec (dRow sym ops)) := by
  by_cases hvalid : sym ≤ 29
  · obtain ⟨-, htable, -⟩ := matchTables
    exact exec_distance_raisesOnly (htable sym ops hvalid)
  by_cases h30 : sym = 30
  · subst h30
    exact exec_invalid_raisesOnly (by simp [dRow])
  · obtain ⟨k, rfl⟩ : ∃ k, sym = k + 31 := ⟨sym - 31, by omega⟩
    exact exec_invalid_raisesOnly (by simp [dRow])

theorem distanceSymbol_raisesOnly (sym : Nat) : RaisesOnly plainErrors (distanceSymbol sym) := fun s t hs ht =>
  exec_dRow_raisesOnly sym (window s) s t hs (distanceSymbol_eq sym s ▸ ht)

theorem distance_raisesOnly : RaisesOnly plainErrors distance := by
  intro s t hs ht
  unfold distance at ht
  split at ht
  next tree _ => exact (ofHuff distanceSymbol_raisesOnly) s t hs ht
  next => cases ht

theorem exec_length_raisesOnly {i : Instr} {len w : Nat} (h : lengthOperand i = some (len, w)) :
    RaisesOnly plainErrors (exec i) := by
  obtain ⟨base, e, -, hexec⟩ := exec_length h
  rw [funext hexec]
  exact ofField <| ofUpdate (g := fun s => { s with matchLen := BitVec.ofNat 9 (base + e.toNat) }) {} distance_raisesOnly

/-! ## `InvalidTreeDescription` (R457) -/

/-- An element raises plain errors only, or it is a repeat symbol: one with no predecessor, or a run. -/
theorem exec_raisesOnly_or_repeat (i : Instr) :
    RaisesOnly plainErrors (exec i) ∨ ∀ s : State, (∃ e, i = .clRep16 e ∧ s.seqIdx = 0) ∨ ∃ w r v, IsRun s i w r v := by
  rcases hlength : lengthOperand i with _ | ⟨len, w⟩
  case some => exact .inl (exec_length_raisesOnly hlength)
  rcases hdistance : distanceOperand i with _ | ⟨dist, w⟩
  case some => exact .inl (exec_distance_raisesOnly hdistance)
  cases i
  case clRep16 e =>
    refine .inr fun s => ?_
    by_cases hidx : s.seqIdx = 0
    · exact .inl ⟨e, rfl, hidx⟩
    · exact .inr ⟨_, _, _, .inl ⟨e, rfl, rfl, rfl, hidx, rfl⟩⟩
  case clZero17 e => exact .inr fun s => .inr ⟨_, _, _, .inr (.inl ⟨e, rfl, rfl, rfl, rfl⟩)⟩
  case clZero18 e => exact .inr fun s => .inr ⟨_, _, _, .inr (.inr ⟨e, rfl, rfl, rfl, rfl⟩)⟩
  all_goals refine .inl ?_
  case stored final => exact blockHdr_raisesOnly _ _ (ofNext (g := fun s => { s with phase := .storedHdr }) {})
  case fixed final => exact execFixed_raisesOnly final
  case dynamic final => exact blockHdr_raisesOnly _ _ (ofNext (g := fun s => { s with phase := .dynHdr }) {})
  case reserved final => exact blockHdr_raisesOnly _ _ (ofRaise .invalidBlockType)
  case storedHdr len nlen => exact execStoredHdr_raisesOnly len nlen
  case storedByte data => exact execStoredByte_raisesOnly data
  case dynHdr hlit hdist hclen lens => exact execDynHdr_raisesOnly hlit hdist hclen lens
  case clLen v => exact execClLen_raisesOnly v
  case lit b => exact ofAppend (b := fun _ => b) (ofNext {})
  case eob => exact ofNext (g := blockEnd) {}
  case llInvalid286 | llInvalid287 | dInvalid30 | dInvalid31 => exact exec_invalid_raisesOnly (by simp)
  all_goals simp only [lengthOperand, distanceOperand, reduceCtorEq] at hlength hdistance

theorem execClRep16_of_first {s : State} (h : s.seqIdx = 0) (e : BitVec 2) :
    exec (.clRep16 e) s = .next (raise .invalidTreeDescription s) := if_pos h

/-- A state that only plain errors lead to does not show code 7 (R451). -/
theorem TrapsOnly.errCode_ne_seven {s t : State} (h : TrapsOnly plainErrors s t) (herror : t.phase = .error) : t.errCode ≠ 7 := by
  have hcodes : ∀ e ∈ plainErrors, e.code ≠ 7 := by decide
  rcases h with hrun | ⟨e, he, u, -, rfl⟩
  · exact absurd herror hrun.phase
  · exact hcodes e he

section
variable {s t : State} {i : Instr} {w r : Nat} {v : BitVec 4} (hrun : IsRun s i w r v)
include hrun

/-- A run raises `InvalidTreeDescription` where it goes past `SEQ_TOTAL`, behind its extra field (R258). -/
theorem exec_isRun_of_past (hbits : s.hasBits w) (hpast : s.seqTotal.toNat < s.seqIdx.toNat + r) :
    exec i s = .next (raise .invalidTreeDescription (s.skip w)) := by
  obtain ⟨-, h, -⟩ := codeLengthRuns s i w r v hrun
  exact h hbits hpast

/-- A run that ends with code 7 went past `SEQ_TOTAL`: its field runs out with code 2, and behind it a run that fits raises plain
errors only. -/
theorem exec_isRun_errCode_seven (hs : s.phase ≠ .error) (ht : exec i s = .next t) (herror : t.phase = .error)
    (hcode : t.errCode = 7) : s.seqTotal.toNat < s.seqIdx.toNat + r ∧ t = raise .invalidTreeDescription (s.skip w) := by
  rw [exec_of_isRun hrun] at ht
  rcases field_cases ht with ⟨-, hnext⟩ | ⟨-, rfl⟩
  · by_cases hpast : s.seqTotal.toNat < s.seqIdx.toNat + r
    · rw [clRun_of_past (s := s.skip w) hpast] at hnext
      exact ⟨hpast, (Host.Outcome.next.inj hnext).symm⟩
    · rw [clRun_of_within (s := s.skip w) (Nat.not_lt.mp hpast)] at hnext
      refine absurd hcode (TrapsOnly.errCode_ne_seven (clFinish_raisesOnly _ t ?_ hnext) herror)
      exact hs
  · exact absurd hcode (by rw [raise_errCode]; decide)

end

/-- Settles O27: apart from the repeat symbols the elements raise plain errors only, and a run that fits does too. -/
theorem invalidTreeDescriptionSites : Obligations.InvalidTreeDescriptionSites := by
  refine ⟨fun s e h => execClRep16_of_first h e, fun s t i hs ht herror hcode => ?_,
    fun s e hidx => exec_isRun_of_past (.inl ⟨e, rfl, rfl, rfl, hidx, rfl⟩),
    fun s e => exec_isRun_of_past (.inr (.inl ⟨e, rfl, rfl, rfl, rfl⟩)),
    fun s e => exec_isRun_of_past (.inr (.inr ⟨e, rfl, rfl, rfl, rfl⟩))⟩
  rcases exec_raisesOnly_or_repeat i with hplain | hrepeat
  · exact absurd hcode ((hplain s t hs ht).errCode_ne_seven herror)
  rcases hrepeat s with ⟨e, rfl, hidx⟩ | ⟨w, r, v, hrun⟩
  · rw [execClRep16_of_first hidx] at ht
    exact .inl ⟨e, rfl, hidx, (Host.Outcome.next.inj ht).symm⟩
  · obtain ⟨hpast, hraise⟩ := exec_isRun_errCode_seven hrun hs ht herror hcode
    rcases hrun with ⟨e, rfl, rfl, rfl, hidx, -⟩ | ⟨e, rfl, rfl, rfl, -⟩ | ⟨e, rfl, rfl, rfl, -⟩
    · exact .inr (.inl ⟨e, rfl, hidx, hpast, hraise⟩)
    · exact .inr (.inr (.inl ⟨e, rfl, hpast, hraise⟩))
    · exact .inr (.inr (.inr ⟨e, rfl, hpast, hraise⟩))

/-! ## The step (R460, R462) -/

theorem clRun_raisesOnly (r : Nat) (v : BitVec 4) : RaisesOnly engineErrors (clRun r v) :=
  ofIte (ofRaise .invalidTreeDescription) <| ofUpdate (f := clFinish) {} (clFinish_raisesOnly.mono plainErrors_subset)

/-- Every element raises the engine's errors only. -/
theorem exec_raisesOnly (i : Instr) : RaisesOnly engineErrors (exec i) := by
  rcases exec_raisesOnly_or_repeat i with hplain | hrepeat
  · exact hplain.mono plainErrors_subset
  intro s t hs ht
  rcases hrepeat s with ⟨e, rfl, hidx⟩ | ⟨w, r, v, hrun⟩
  · rw [execClRep16_of_first hidx] at ht
    exact (ofRaise .invalidTreeDescription) s t hs ht
  · rw [exec_of_isRun hrun] at ht
    exact (ofField (clRun_raisesOnly r v)) s t hs ht

theorem runSymbol_raisesOnly (tree : Option Tree) (row : Nat → Bits → Instr) :
    RaisesOnly engineErrors (runSymbol tree row) := by
  rcases tree with _ | tree
  · exact ofFault .treeAbsent
  · exact ofHuff fun sym s t hs ht => exec_raisesOnly (row sym (window s)) s t hs ht

theorem copyStep_raisesOnly : RaisesOnly engineErrors copyStep := by
  refine ofIte (ofFault .copySourceAbsent) <| ofAppend <|
    ofNext (g := fun s => { s with copyRem := s.copyRem - 1, phase := if s.copyRem = 1 then .sym else s.phase })
      { phase := fun s hs => ?_ }
  show (if s.copyRem = 1 then Phase.sym else s.phase) ≠ .error
  split
  · exact nofun
  · exact hs

/-- One step of the engine takes no error, or raises one of the engine's in the block it is in. -/
theorem engineStep_raisesOnly : RaisesOnly engineErrors engineStep := by
  intro s t hs ht
  rcases hphase : s.phase
  all_goals simp only [engineStep, hphase] at ht
  case hdr | storedHdr | storedData | dynHdr => exact exec_raisesOnly _ s t hs ht
  case dynSeq | sym => exact runSymbol_raisesOnly _ _ s t hs ht
  case copy => exact copyStep_raisesOnly s t hs ht
  case idle | paused | done | error => exact ofNext (g := fun s => s) {} s t hs ht

/-- Settles O40: a step that takes an error ends in `RAISE`, which records it; any other leaves the error registers alone. -/
theorem trapEntry : Obligations.TrapEntry := by
  intro s t hs ht
  have hcodes : ∀ e ∈ engineErrors, engineCode e.code := by decide
  rcases engineStep_raisesOnly s t hs ht with ⟨hphase, hcode, hbitpos, hblock⟩ | ⟨e, he, u, hu, rfl⟩
  · exact ⟨fun h => absurd h hphase, fun _ => ⟨hcode, hbitpos, hblock⟩⟩
  · exact ⟨fun _ => ⟨hcodes e he, rfl, hu, rfl⟩, fun h => absurd rfl h⟩

end Sys2Proof.Machine
end

section
/-! The stopped phases (R480) and the ways out of `ERROR` (R463). -/

namespace Sys2Proof.Machine

/-! ## Whose step it is (R15) -/

section
variable {s : State} {q : List HostEvent}

theorem step_of_empty (hq : s.hostQueue = []) : step s = engineStep s := by
  rw [step, hq]

theorem step_of_quiet (hq : s.hostQueue = .quiet :: q) : step s = engineStep { s with hostQueue := q } := by
  rw [step, hq]

theorem step_of_event {e : HostEvent} (hq : s.hostQueue = e :: q) (he : e ≠ .quiet) :
    step s = hostStep e { s with hostQueue := q } := by
  rw [step, hq]
  cases e
  case quiet => exact absurd rfl he
  all_goals rfl

end

theorem engineStep_of_stopped {s : State} (h : s.phase ∈ [Phase.idle, .paused, .done, .error]) : engineStep s = .next s := by
  obtain hphase | hphase | hphase | hphase : s.phase = .idle ∨ s.phase = .paused ∨ s.phase = .done ∨ s.phase = .error := by
    simpa using h
  all_goals rw [engineStep, hphase]

/-- Settles O42: a quiet host leaves the step to the engine, which takes none. -/
theorem stoppedPhasesStay : Obligations.StoppedPhasesStay := fun s h =>
  ⟨engineStep_of_stopped h, fun hq => (step_of_empty hq).trans (engineStep_of_stopped h),
    fun q hq => (step_of_quiet hq).trans (engineStep_of_stopped (s := { s with hostQueue := q }) h)⟩

/-! ## What the host can do to `PHASE` -/

section
variable {s t : State}

theorem writeInLen_phase {v : Word} (h : writeInLen v s = .next t) : t.phase = s.phase := by
  unfold writeInLen at h
  split_ifs at h
  all_goals
    obtain rfl := Host.Outcome.next.inj h
    rfl

theorem writeOutCap_phase (v : Word) (s : State) : (writeOutCap v s).phase = s.phase := by
  unfold writeOutCap
  split
  · rfl
  · rfl

/-- Of all registers only `CTRL` can move `PHASE` (R59, R69). -/
theorem writeRegister_phase {off : Nat} {v : Word} (h : writeRegister off v s = .next t) :
    off = 0 ∨ t.phase = s.phase := by
  unfold writeRegister at h
  split at h
  · exact .inl rfl
  · exact .inr (writeInLen_phase h)
  · obtain rfl := Host.Outcome.next.inj h
    exact .inr (writeOutCap_phase v s)
  · obtain rfl := Host.Outcome.next.inj h
    exact .inr rfl

/-- An event of the host leaves `PHASE` alone, unless it is a reset or a write of `CTRL` (R420–R424, R490). -/
theorem hostStep_phase {e : HostEvent} (h : hostStep e s = .next t) :
    t.phase = s.phase ∨ (e = .reset ∧ t = platformReset s) ∨ ∃ v, e = .writeReg 0 4 v ∧ t = writeCtrl v s := by
  cases e
  case writeReg off bytes v =>
    rw [hostStep] at h
    split at h
    next haccess =>
      obtain ⟨rfl, -, -⟩ : bytes = 4 ∧ off % 4 = 0 ∧ off < 64 := by simpa [registerAccess] using haccess
      obtain rfl | hphase := writeRegister_phase h
      · exact .inr (.inr ⟨v, rfl, (Host.Outcome.next.inj h).symm⟩)
      · exact .inl hphase
    next => cases h
  case reset => exact .inr (.inl ⟨rfl, (Host.Outcome.next.inj h).symm⟩)
  case quiet | readOut =>
    obtain rfl := Host.Outcome.next.inj h
    exact .inl rfl
  case readReg | fillIn | writeOut =>
    rw [hostStep] at h
    split_ifs at h
    obtain rfl := Host.Outcome.next.inj h
    exact .inl rfl

/-- In `ERROR` a write of `CTRL` moves `PHASE` only by `START` (R422, R463). -/
theorem writeCtrl_of_error {v : Word} (hs : s.phase = .error) :
    (writeCtrl v s).phase = .error ∨
      v.getLsbD 0 = true ∧ (writeCtrl v s).phase = .hdr ∧ (writeCtrl v s).bitpos = 0 := by
  cases h0 : v.getLsbD 0
  · have hpaused : s.phase ≠ .paused := by simp [hs]
    exact .inl (writeCtrl_of_not_paused h0 hpaused ▸ hs)
  · have hbusy : s.phase.status ≠ .busy := by simp [hs, Phase.status]
    rw [writeCtrl_start h0, start_of_not_busy (s := { s with blockStep := v.getLsbD 8 }) hbusy]
    exact .inr ⟨rfl, rfl, rfl⟩

end

/-- Settles O41: the engine takes no step in `ERROR`, and of the host's events only a reset and `START` move `PHASE` there. -/
theorem onlyStartOrResetLeavesError : Obligations.OnlyStartOrResetLeavesError := by
  intro s t hs ht hleft
  have hstopped : s.phase ∈ [Phase.idle, .paused, .done, .error] := by simp [hs]
  obtain ⟨-, hempty, hquiet⟩ := stoppedPhasesStay s hstopped
  rcases hq : s.hostQueue with _ | ⟨e, q⟩
  · obtain rfl := Host.Outcome.next.inj ((hempty hq).symm.trans ht)
    exact absurd hs hleft
  by_cases he : e = .quiet
  · subst he
    obtain rfl := Host.Outcome.next.inj ((hquiet q hq).symm.trans ht)
    exact absurd hs hleft
  rw [step_of_event hq he] at ht
  rcases hostStep_phase ht with hphase | ⟨rfl, rfl⟩ | ⟨v, rfl, rfl⟩
  · exact absurd (hphase.trans hs) hleft
  · exact .inl ⟨q, rfl, rfl⟩
  · rcases writeCtrl_of_error (s := { s with hostQueue := q }) (v := v) hs with hphase | ⟨h0, hhdr, hbitpos⟩
    · exact absurd hphase hleft
    · exact .inr ⟨v, q, rfl, h0, hhdr, hbitpos⟩

end Sys2Proof.Machine
end

section
/-! The reset event (R490). -/

namespace Sys2Proof.Machine

/-- A reset event takes the step, in whatever phase the machine is (R15, R490). -/
theorem step_of_reset {s : State} {q : List HostEvent} (hq : s.hostQueue = .reset :: q) :
    step s = .next (platformReset { s with hostQueue := q }) :=
  step_of_event hq nofun

/-- Settles O43: `State.reset` holds the table's values, and the platform's reset takes every register of the table from there. -/
theorem resetLeaves : Obligations.ResetLeaves := by
  unfold Obligations.ResetLeaves
  intro leaves
  have hvalues : leaves State.reset := by simp [leaves, State.reset]
  have hregisters (s : State) : leaves (platformReset s) := hvalues
  exact ⟨hvalues, fun s q hq => ⟨_, step_of_reset hq, hregisters _, rfl, rfl⟩⟩

end Sys2Proof.Machine
end

section
/-! `Decode` in a regular tree (R225): the walk finds the code that comes next and only that. -/

namespace Sys2Proof.Huffman

/-- What the map of a tree answers is one of its entries (R220). -/
theorem exists_of_find_eq_some {t : Tree} {len code sym : Nat} (h : find t len code = some sym) :
    ∃ c ∈ t.codes, c.sym = sym ∧ c.len = len ∧ c.code = code := by
  obtain ⟨c, hc, rfl⟩ := Option.map_eq_some_iff.mp h
  have hmatch := List.find?_some hc
  rw [Bool.and_eq_true, beq_iff_eq, beq_iff_eq] at hmatch
  exact ⟨c, List.mem_of_find?_eq_some hc, rfl, hmatch.2, hmatch.1⟩

theorem find_isSome_of_mem {t : Tree} {c : Code} (hc : c ∈ t.codes) : ∃ sym, find t c.len c.code = some sym := by
  rw [← Option.isSome_iff_exists, find, Option.isSome_map, List.find?_isSome]
  exact ⟨c, hc, by simp⟩

theorem decode_of_regular {t : Tree} (ht : nsym t ≠ 1) (bits : Bits) : decode t bits = walk t Config.maxBits 0 0 bits := by
  unfold decode
  split
  next c hc => exact absurd (congrArg List.length hc) ht
  next => rfl

theorem codeBits_succ (len code : Nat) : codeBits (len + 1) code = code.testBit len :: codeBits len code := rfl

/-- A bit below the bits read so far is the next bit of the value (R228). -/
theorem two_mul_div_add_testBit (v k : Nat) : 2 * (v / 2 ^ (k + 1)) + (v.testBit k).toNat = v / 2 ^ k := by
  rw [Nat.toNat_testBit, Nat.pow_succ, ← Nat.div_div_eq_div_mul]
  exact Nat.div_add_mod _ 2

/-- The other way round: the next bit of a value is the last one of its beginning. -/
theorem div_testBit_of_div {w k v : Nat} {b : Bool} (h : w / 2 ^ k = 2 * v + b.toNat) :
    w / 2 ^ (k + 1) = v ∧ w.testBit k = b := by
  rw [Nat.pow_succ, ← Nat.div_div_eq_div_mul, Nat.testBit_eq_decide_div_mod_eq, h]
  cases b
  · exact ⟨by simp, by simp⟩
  · exact ⟨by simp only [Bool.toNat_true]; omega, by simp [Nat.add_mod]⟩

/-- What a walk answers is the rest of a code whose first bits are those read so far. -/
theorem exists_code_of_walk {t : Tree} {fuel len v : Nat} {bits : Bits} {sym n : Nat}
    (h : walk t fuel len v bits = some (sym, n)) :
    ∃ c ∈ t.codes, c.sym = sym ∧ c.len = n ∧ c.code / 2 ^ (n - len) = v ∧ codeBits (n - len) c.code <+: bits := by
  induction fuel generalizing len v bits with
  | zero => cases h
  | succ fuel ih =>
    cases bits with
    | nil => cases h
    | cons b bits =>
      rw [walk] at h
      split at h
      next s hs =>
        obtain ⟨c, hc, hsym, hlen, hcode⟩ := exists_of_find_eq_some hs
        obtain ⟨rfl, rfl⟩ : s = sym ∧ len + 1 = n := by simpa using h
        obtain ⟨hv, htest⟩ := div_testBit_of_div (w := c.code) (k := 0) (by rwa [Nat.pow_zero, Nat.div_one])
        refine ⟨c, hc, hsym, hlen, ?_⟩
        rw [Nat.add_sub_cancel_left, codeBits_succ 0, htest]
        exact ⟨hv, (List.prefix_cons_inj b).mpr List.nil_prefix⟩
      next =>
        have hlt := (walk_bounds t _ _ _ _ _ _ h).1
        obtain ⟨c, hc, hsym, hlen, hcode, hpre⟩ := ih h
        obtain ⟨hv, htest⟩ := div_testBit_of_div hcode
        refine ⟨c, hc, hsym, hlen, ?_⟩
        rw [show n - len = n - (len + 1) + 1 by omega, codeBits_succ, htest]
        exact ⟨hv, (List.prefix_cons_inj b).mpr hpre⟩

section
variable {ls : List Nat} {t : Tree} (h : build ls = some t) (hl : ∀ l ∈ ls, l ≤ Config.maxBits)
include h hl

/-- In a built tree a code stands for its own symbol (R220, R229). -/
theorem find_of_mem {c : Code} (hc : c ∈ t.codes) : find t c.len c.code = some c.sym := by
  obtain ⟨sym, hfind⟩ := find_isSome_of_mem hc
  obtain ⟨c', hc', rfl, hlen, hcode⟩ := exists_of_find_eq_some hfind
  rw [hfind, eq_of_len_eq_of_code_eq h hl hc' hc hlen hcode]

/-- No proper beginning of a code is a code (R229). -/
theorem find_of_beginning {c : Code} (hc : c ∈ t.codes) {len : Nat} (hlen : len < c.len) :
    find t len (c.code / 2 ^ (c.len - len)) = none := by
  rw [Option.eq_none_iff_forall_ne_some]
  intro sym hfind
  obtain ⟨c', hc', -, hlen', hcode'⟩ := exists_of_find_eq_some hfind
  refine not_codeBits_prefix h hl hc' hc (by rintro rfl; omega) ?_
  rw [codeBits_prefix_iff (code_lt_two_pow h hl hc') (code_lt_two_pow h hl hc), hlen', hcode']
  exact ⟨hlen.le, rfl⟩

/-- A walk along the bits of a code ends behind it and not before. -/
theorem walk_of_code {c : Code} (hc : c ∈ t.codes) {fuel len v : Nat} {bits : Bits} (hlen : len < c.len)
    (hfuel : c.len ≤ len + fuel) (hv : c.code / 2 ^ (c.len - len) = v) (hpre : codeBits (c.len - len) c.code <+: bits) :
    walk t fuel len v bits = some (c.sym, c.len) := by
  induction fuel generalizing len v bits with
  | zero => omega
  | succ fuel ih =>
    obtain ⟨k, hk⟩ : ∃ k, c.len - len = k + 1 := ⟨c.len - len - 1, by omega⟩
    rw [hk, codeBits_succ] at hpre
    obtain ⟨more, rfl⟩ := hpre
    rw [hk] at hv
    have hnext : 2 * v + (c.code.testBit k).toNat = c.code / 2 ^ k := hv ▸ two_mul_div_add_testBit c.code k
    rw [List.cons_append, walk, hnext]
    obtain rfl | hpos := Nat.eq_zero_or_pos k
    · rw [show len + 1 = c.len by omega, Nat.pow_zero, Nat.div_one, find_of_mem h hl hc]
    · obtain rfl : k = c.len - (len + 1) := by omega
      rw [find_of_beginning h hl hc (by omega)]
      exact ih (by omega) (by omega) rfl (List.prefix_append _ _)

/-- `Decode` in a regular tree answers exactly the code that the bits begin with (R225). -/
theorem decode_eq_some_iff (ht : nsym t ≠ 1) (bits : Bits) (sym n : Nat) :
    decode t bits = some (sym, n) ↔
      ∃ c ∈ t.codes, c.sym = sym ∧ c.len = n ∧ codeBits c.len c.code <+: bits := by
  rw [decode_of_regular ht]
  constructor
  · intro hwalk
    obtain ⟨c, hc, hsym, rfl, -, hpre⟩ := exists_code_of_walk hwalk
    exact ⟨c, hc, hsym, rfl, hpre⟩
  · rintro ⟨c, hc, rfl, rfl, hpre⟩
    obtain ⟨hpos, hmax⟩ := build_wf h hl c hc
    have hzero : c.code / 2 ^ (c.len - 0) = 0 := Nat.div_eq_of_lt (code_lt_two_pow h hl hc)
    exact walk_of_code h hl hc hpos (by omega) hzero hpre

end

/-- Settles O7: the walk stops behind a code, and no code of a regular tree begins another one, which keeps it from stopping before. -/
theorem decodeFindsTheCode : Obligations.DecodeFindsTheCode := fun _ _ bits sym n hl h ht =>
  decode_eq_some_iff h hl (by omega) bits sym n

end Sys2Proof.Huffman
end

section
/-! `Decode` bit by bit (R225–R227) is `Decode` on the bits that come next (log 7). -/

namespace Sys2Proof.Machine

/-- Where the walk finds a code, the loop reads its bits one by one and goes on behind them (R225). -/
theorem decodeFrom_of_walk_eq_some {t : Tree} {fuel len v : Nat} {s : State} {sym n : Nat} (hs : s.cursorOk)
    (h : Huffman.walk t fuel len v (remaining s) = some (sym, n)) (k : Nat → State → Result) :
    decodeFrom t fuel len v s k = k sym (s.skip (n - len)) := by
  induction fuel generalizing len v s with
  | zero => cases h
  | succ fuel ih =>
    obtain ⟨hlt, -, hle⟩ := Huffman.walk_bounds t _ _ _ _ _ _ h
    rw [remaining_length] at hle
    have hone : s.hasBits 1 := ⟨by omega, hs.2⟩
    obtain ⟨b, hrem, hread⟩ := readBit_of_hasBits hone
    rw [hrem, Huffman.walk] at h
    rw [decodeFrom, hread]
    rcases hfind : Huffman.find t (len + 1) (2 * v + b.toNat) with _ | sym'
    · simp only [hfind] at h ⊢
      obtain ⟨hlt', -⟩ := Huffman.walk_bounds t _ _ _ _ _ _ h
      refine (ih (hasBits_skip (n := 0) hone) h).trans ?_
      rw [skip_skip, show 1 + (n - (len + 1)) = n - len by omega]
    · simp only [hfind, Option.some.injEq, Prod.mk.injEq] at h ⊢
      obtain ⟨rfl, rfl⟩ := h
      rw [Nat.add_sub_cancel_left]

/-- Where it finds none, the loop reads all its bits and raises, or runs out of input first (R225, R452). -/
theorem decodeFrom_of_walk_eq_none {t : Tree} {fuel len v : Nat} {s : State} (hs : s.cursorOk)
    (h : Huffman.walk t fuel len v (remaining s) = none) (k : Nat → State → Result) :
    decodeFrom t fuel len v s k = field fuel s fun s => .next (raise .invalidHuffmanCode s) := by
  induction fuel generalizing len v s with
  | zero => rw [decodeFrom, field_of_hasBits hs.1, skip_zero]
  | succ fuel ih =>
    by_cases hend : s.bitpos.toNat = 8 * s.inLen.toNat
    · rw [decodeFrom, readBit_of_atEnd hend, field_of_short (by omega), atEnd_of_atEnd hend]
    · have hone : s.hasBits 1 := ⟨by have := hs.1; omega, hs.2⟩
      obtain ⟨b, hrem, hread⟩ := readBit_of_hasBits hone
      rw [hrem, Huffman.walk] at h
      rw [decodeFrom, hread]
      rcases hfind : Huffman.find t (len + 1) (2 * v + b.toNat) with _ | sym
      · simp only [hfind] at h ⊢
        refine (ih (hasBits_skip (n := 0) hone) h).trans ?_
        simp only [field, skip_bitpos_toNat hone, skip_inLen, Nat.add_comm fuel 1, Nat.add_assoc]
        split
        · exact congrArg (fun s => Host.Outcome.next (raise .invalidHuffmanCode s)) (skip_skip 1 fuel s)
        · rfl
      · simp only [hfind, reduceCtorEq] at h

/-- Settles O10: the loop and the walk read the same bits, and a degenerate tree is a field in either form. -/
theorem serialDecodeIsHuff : Obligations.SerialDecodeIsHuff := by
  intro t s k ht hs
  by_cases hone : Huffman.nsym t = 1
  · obtain ⟨c, hc⟩ := List.length_eq_one_iff.mp hone
    obtain rfl : t = ⟨[c]⟩ := congrArg Tree.mk hc
    obtain ⟨-, hmax⟩ := ht c (List.mem_singleton_self c)
    rw [huff_degenerate hmax]
    by_cases hbits : s.hasBits c.len
    · rw [decodeSerial_degenerate hbits, field_of_hasBits hbits.1]
    · rw [field_of_not_hasBits hs hbits]
      exact readBitsFrom_of_short 0 0 hs hbits _
  · have hserial : decodeSerial t s k = decodeFrom t Config.maxBits 0 0 s k := by
      unfold decodeSerial
      split
      next c hc => exact absurd (congrArg List.length hc) hone
      next => rfl
    have hdecode := Huffman.decode_of_regular hone (remaining s)
    rw [hserial]
    rcases hwalk : Huffman.walk t Config.maxBits 0 0 (remaining s) with _ | ⟨sym, n⟩
    · rw [huff_of_none ht hs (hdecode.trans hwalk), decodeFrom_of_walk_eq_none hs hwalk]
      rfl
    · rw [huff_of_decode ht hs (hdecode.trans hwalk), decodeFrom_of_walk_eq_some hs hwalk, Nat.sub_zero]

end Sys2Proof.Machine
end

section
/-! The fixed codes (30_encoding.md §3, R230, R231) and the empty tree (R227). -/

namespace Sys2Proof.Huffman

/-! ## Codes of symbols and of bits -/

section
variable {ls : List Nat} {t : Tree} (h : build ls = some t) (hl : ∀ l ∈ ls, l ≤ Config.maxBits)
include h hl

/-- A symbol determines its entry (R223). -/
theorem eq_of_sym_eq {c c' : Code} (hc : c ∈ t.codes) (hc' : c' ∈ t.codes) (hsym : c.sym = c'.sym) : c = c' := by
  obtain ⟨k, hk, rfl, hlen, -, hcode⟩ := (mem_build h hl c).mp hc
  obtain ⟨k', hk', rfl, hlen', -, hcode'⟩ := (mem_build h hl c').mp hc'
  simp only [← hsym] at hlen' hcode'
  exact eq_of_len_eq_of_code_eq h hl hc hc' (hlen.trans hlen'.symm) (hcode.trans hcode'.symm)

theorem entry_of_mem {c : Code} (hc : c ∈ t.codes) : entry t c.sym = some c := by
  obtain ⟨c', hc'⟩ : ∃ c', entry t c.sym = some c' := by
    rw [← Option.isSome_iff_exists, entry, List.find?_isSome]
    exact ⟨c, hc, beq_self_eq_true c.sym⟩
  have hfind : t.codes.find? (fun d => d.sym == c.sym) = some c' := hc'
  have hsym : c'.sym = c.sym := by simpa using List.find?_some hfind
  rw [hc', eq_of_sym_eq h hl (List.mem_of_find?_eq_some hfind) hc hsym]

/-- An entry's bits are the code of its symbol. -/
theorem symBits_of_mem {c : Code} (hc : c ∈ t.codes) : symBits t c.sym = codeBits c.len c.code := by
  rw [symBits, entry_of_mem h hl hc]

/-- Each symbol with a length has an entry (R223). -/
theorem exists_mem_of_length {sym : Nat} (hsym : sym < ls.length) (h0 : ls[sym] ≠ 0) :
    ∃ c ∈ t.codes, c.sym = sym ∧ c.len = ls[sym] ∧ c.code = firstCode ls ls[sym] + (ls.take sym).count ls[sym] :=
  ⟨⟨_, _, _⟩, (mem_build h hl _).mpr ⟨sym, hsym, rfl, rfl, h0, rfl⟩, rfl, rfl, rfl⟩

theorem symBits_eq {sym : Nat} (hsym : sym < ls.length) (h0 : ls[sym] ≠ 0) :
    symBits t sym = codeBits ls[sym] (firstCode ls ls[sym] + (ls.take sym).count ls[sym]) := by
  obtain ⟨c, hc, hcsym, hlen, hcode⟩ := exists_mem_of_length h hl hsym h0
  have hbits := symBits_of_mem h hl hc
  rwa [hcsym, hlen, hcode] at hbits

/-- The symbols of a built tree are places in its list of lengths (R223). -/
theorem sym_lt_of_mem {c : Code} (hc : c ∈ t.codes) : c.sym < ls.length := by
  obtain ⟨k, hk, rfl, -⟩ := (mem_build h hl c).mp hc
  exact hk

end

theorem two_le_nsym {t : Tree} {c c' : Code} (hc : c ∈ t.codes) (hc' : c' ∈ t.codes) (hne : c ≠ c') : nsym t ≠ 1 := by
  intro hone
  obtain ⟨d, hd⟩ := List.length_eq_one_iff.mp hone
  rw [hd, List.mem_singleton] at hc hc'
  exact hne (hc.trans hc'.symm)

/-- The code bits are the low bits of the value. -/
theorem codeBits_congr {l v w : Nat} (h : ∀ j < l, v.testBit j = w.testBit j) : codeBits l v = codeBits l w := by
  induction l with
  | zero => rfl
  | succ l ih => rw [codeBits_succ, codeBits_succ, h l (Nat.lt_succ_self l), ih fun j hj => h j (by omega)]

/-- Any bits are the code bits of some value (R228). -/
theorem exists_codeBits (bits : Bits) : ∃ v < 2 ^ bits.length, codeBits bits.length v = bits := by
  induction bits with
  | nil => exact ⟨0, by simp, rfl⟩
  | cons b bits ih =>
    obtain ⟨v, hv, hbits⟩ := ih
    have htest (j : Nat) := Nat.testBit_two_pow_mul_add b.toNat hv j
    refine ⟨2 ^ bits.length * b.toNat + v, ?_, ?_⟩
    · rw [List.length_cons, Nat.pow_succ]
      have := Nat.mul_le_mul_left (2 ^ bits.length) (Nat.le_of_lt_succ (Bool.toNat_lt b))
      omega
    · rw [List.length_cons, codeBits_succ, htest, if_neg (Nat.lt_irrefl _),
        codeBits_congr (w := v) fun j hj => by rw [htest, if_pos hj], hbits]
      cases b <;> simp

/-- Where the codes of length `n` end at `first_code[n] + count[n]`, every smaller value of `n` bits begins with a code of at most
`n` bits (R229). -/
theorem exists_beginning_code {ls : List Nat} {n v : Nat} (h : v < firstCode ls n + count ls n) :
    ∃ l ≤ n, firstCode ls l ≤ v / 2 ^ (n - l) ∧ v / 2 ^ (n - l) < firstCode ls l + count ls l := by
  induction n generalizing v with
  | zero => simp [firstCode, count] at h
  | succ n ih =>
    by_cases hfirst : firstCode ls (n + 1) ≤ v
    · exact ⟨n + 1, Nat.le_refl _, by simpa using hfirst, by simpa using h⟩
    · rw [firstCode] at hfirst
      obtain ⟨l, hl, hlo, hhi⟩ := ih (v := v / 2) (by omega)
      have hhalf : v / 2 / 2 ^ (n - l) = v / 2 ^ (n + 1 - l) := by
        rw [Nat.div_div_eq_div_mul, ← Nat.pow_succ', Nat.succ_sub hl]
      exact ⟨l, by omega, hhalf ▸ hlo, hhalf ▸ hhi⟩

/-- A complete code: where the codes of `n` bits end at `2^n`, any `n` bits begin with a code. -/
theorem decode_of_complete {ls : List Nat} {t : Tree} (h : build ls = some t) (hl : ∀ l ∈ ls, l ≤ Config.maxBits)
    (ht : nsym t ≠ 1) {n : Nat} (hn : firstCode ls n + count ls n = 2 ^ n) {bits : Bits} (hbits : n ≤ bits.length) :
    ∃ c ∈ t.codes, c.len ≤ n ∧ decode t bits = some (c.sym, c.len) := by
  have hlen : (bits.take n).length = n := List.length_take_of_le hbits
  obtain ⟨v, hv, hcode⟩ := exists_codeBits (bits.take n)
  rw [hlen] at hv hcode
  obtain ⟨l, hln, hrange⟩ := exists_beginning_code (hn ▸ hv)
  obtain ⟨c, hc, rfl, hc'⟩ := (exists_code_iff h hl l _).mpr hrange
  refine ⟨c, hc, hln, (decode_eq_some_iff h hl ht bits _ _).mpr ⟨c, hc, rfl, rfl, ?_⟩⟩
  rw [hc', ← codeBits_take hln, hcode]
  exact (List.take_prefix _ _).trans (List.take_prefix _ _)

/-! ## The fixed trees (R230, R231) -/

open Machine (fixedLLLengths fixedLLLengths_length)

theorem fixedLLLengths_getElem {sym : Nat} (h : sym < fixedLLLengths.length) :
    fixedLLLengths[sym] = if sym ≤ 143 then 8 else if sym ≤ 255 then 9 else if sym ≤ 279 then 7 else 8 := by
  simp only [fixedLLLengths, List.getElem_append, List.length_append, List.length_replicate, List.getElem_replicate]
  split_ifs <;> omega

theorem fixedLLLengths_count_take (l sym : Nat) : (fixedLLLengths.take sym).count l =
    (if l = 8 then min sym 144 else 0) + (if l = 9 then min (sym - 144) 112 else 0) +
    (if l = 7 then min (sym - 256) 24 else 0) + (if l = 8 then min (sym - 280) 8 else 0) := by
  simp only [fixedLLLengths, List.take_append, List.count_append, List.take_replicate, List.count_replicate, List.length_append,
    List.length_replicate, beq_iff_eq, eq_comm (b := l)]

/-- No fixed code has more bits than the alphabets allow. -/
theorem fixedLLLengths_le {l : Nat} (h : l ∈ fixedLLLengths) : 7 ≤ l ∧ l ≤ 9 := by
  obtain ⟨i, hi, rfl⟩ := List.getElem_of_mem h
  rw [fixedLLLengths_getElem]
  split_ifs <;> omega

theorem fixedLLLengths_le_maxBits : ∀ l ∈ fixedLLLengths, l ≤ Config.maxBits := fun _ hl =>
  (fixedLLLengths_le hl).2.trans (by decide)

theorem fixedLLLengths_count (l : Nat) : fixedLLLengths.count l =
    (if l = 8 then 144 else 0) + (if l = 9 then 112 else 0) + (if l = 7 then 24 else 0) + (if l = 8 then 8 else 0) := by
  have hcount := fixedLLLengths_count_take l 288
  rwa [List.take_of_length_le fixedLLLengths_length.le] at hcount

/-- The first codes of the three lengths (R155). -/
theorem fixedLLLengths_firstCode :
    firstCode fixedLLLengths 7 = 0 ∧ firstCode fixedLLLengths 8 = 0x30 ∧ firstCode fixedLLLengths 9 = 0x190 := by
  simp only [firstCode, count, fixedLLLengths_count]
  decide

theorem fixedDLengths_firstCode : firstCode (List.replicate 30 5) 5 = 0 := by
  decide

section
variable {tLL tD : Tree} (hLL : build fixedLLLengths = some tLL) (hD : build (List.replicate 30 5) = some tD)

include hLL in
/-- The code of a symbol counts the symbols of its length before it (R155). -/
theorem symBits_fixedLL {sym : Nat} (hsym : sym < 288) : symBits tLL sym =
    if sym ≤ 143 then codeBits 8 (0x30 + sym) else if sym ≤ 255 then codeBits 9 (0x190 + (sym - 144))
    else if sym ≤ 279 then codeBits 7 (sym - 256) else codeBits 8 (0xC0 + (sym - 280)) := by
  have hlt : sym < fixedLLLengths.length := fixedLLLengths_length ▸ hsym
  have hmem := fixedLLLengths_le (List.getElem_mem hlt)
  obtain ⟨h7, h8, h9⟩ := fixedLLLengths_firstCode
  rw [symBits_eq hLL fixedLLLengths_le_maxBits hlt (by omega), fixedLLLengths_count_take,
    fixedLLLengths_getElem]
  split_ifs <;> simp only [h7, h8, h9] <;> refine congrArg (codeBits _) ?_ <;> omega

include hLL in
theorem nsym_fixedLL : nsym tLL ≠ 1 := by
  obtain ⟨c, hc, hsym, -⟩ := exists_mem_of_length hLL fixedLLLengths_le_maxBits (sym := 0)
    (by rw [fixedLLLengths_length]; omega) (by rw [fixedLLLengths_getElem]; decide)
  obtain ⟨c', hc', hsym', -⟩ := exists_mem_of_length hLL fixedLLLengths_le_maxBits (sym := 1)
    (by rw [fixedLLLengths_length]; omega) (by rw [fixedLLLengths_getElem]; decide)
  exact two_le_nsym hc hc' (by rintro rfl; omega)

include hD in
theorem mem_fixedD_iff (c : Code) : c ∈ tD.codes ↔ c.sym < 30 ∧ c.len = 5 ∧ c.code = c.sym := by
  have hl : ∀ l ∈ List.replicate 30 5, l ≤ Config.maxBits := by decide
  rw [mem_build hD hl]
  simp only [List.length_replicate, List.getElem_replicate, List.take_replicate, fixedDLengths_firstCode, List.count_replicate,
    beq_self_eq_true, if_true, Nat.zero_add]
  constructor
  · rintro ⟨k, hk, rfl, hlen, -, hcode⟩
    exact ⟨hk, hlen, by omega⟩
  · rintro ⟨hk, hlen, hcode⟩
    exact ⟨c.sym, hk, rfl, hlen, by decide, by omega⟩

end

/-- Settles O4: the codes are the places of each length; the literal/length codes of 9 bits end at `2^9`, and the distance codes of
5 bits at 30. -/
theorem fixedCodes : Obligations.FixedCodes := by
  intro tLL tD (hLL : build fixedLLLengths = some tLL) hD
  have hl : ∀ l ∈ List.replicate 30 5, l ≤ Config.maxBits := by decide
  have hsymD (s : Nat) (hs : s ≤ 29) : (⟨5, s, s⟩ : Code) ∈ tD.codes := (mem_fixedD_iff hD _).mpr ⟨Nat.lt_succ_of_le hs, rfl, rfl⟩
  refine ⟨fun s hs => ?_, fun s hlo hs => ?_, fun s hlo hs => ?_, fun s hlo hs => ?_, fun s hs => ?_, fun bits hbits => ?_,
    fun b rest => ?_⟩
  · rw [symBits_fixedLL hLL (by omega), if_pos hs]
  · rw [symBits_fixedLL hLL (by omega), if_neg (by omega), if_pos hs]
  · rw [symBits_fixedLL hLL (by omega), if_neg (by omega), if_neg (by omega), if_pos hs]
  · rw [symBits_fixedLL hLL (by omega), if_neg (by omega), if_neg (by omega), if_neg (by omega)]
  · exact symBits_of_mem hD hl (hsymD s hs)
  · have hcomplete : firstCode fixedLLLengths 9 + count fixedLLLengths 9 = 2 ^ 9 := by
      rw [fixedLLLengths_firstCode.2.2, count, fixedLLLengths_count]
      decide
    obtain ⟨c, hc, hlen, hdecode⟩ := decode_of_complete (n := 9) hLL fixedLLLengths_le_maxBits (nsym_fixedLL hLL) hcomplete hbits
    have hsym := sym_lt_of_mem hLL fixedLLLengths_le_maxBits hc
    rw [fixedLLLengths_length] at hsym
    exact ⟨c.sym, c.len, hdecode, by omega, hlen⟩
  · rw [Option.eq_none_iff_forall_ne_some]
    rintro ⟨sym, n⟩ hdecode
    have hregular := two_le_nsym (hsymD 0 (by omega)) (hsymD 1 (by omega)) (by decide)
    obtain ⟨c, hc, -, -, hpre⟩ := (decode_eq_some_iff hD hl hregular _ _ _).mp hdecode
    obtain ⟨hsym, hlen, hcode⟩ := (mem_fixedD_iff hD c).mp hc
    have hgap : ∀ v < 30, (codeBits 5 v).take 4 ≠ [true, true, true, true] := by decide
    refine hgap c.code (by omega) ?_
    rw [hlen] at hpre
    simpa [codeBits] using List.IsPrefix.take hpre 4

/-! ## The empty tree (R227) -/

theorem assign_replicate_zero (next : List Nat) (s n : Nat) : assign next s (List.replicate n 0) = [] := by
  induction n generalizing s with
  | zero => rfl
  | succ n ih => exact ih (s + 1)

theorem build_replicate_zero (n : Nat) : build (List.replicate n 0) = some ⟨[]⟩ := by
  have hcount (l : Nat) : count (List.replicate n 0) l = 0 := by
    unfold count
    split
    next => rfl
    next h0 => exact List.count_eq_zero_of_not_mem fun hmem => h0 (List.eq_of_mem_replicate hmem)
  have hfirst (l : Nat) : firstCode (List.replicate n 0) l = 0 := by
    induction l with
    | zero => rfl
    | succ l ih => rw [firstCode, ih, hcount]
  obtain ⟨t, ht⟩ : ∃ t, build (List.replicate n 0) = some t := by
    rw [← Option.isSome_iff_exists, build_isSome_iff]
    intro l _ _
    rw [hfirst, hcount]
    exact Nat.zero_le _
  rw [ht, (build_eq_some ht).2, assign_replicate_zero]

theorem walk_empty (fuel len v : Nat) (bits : Bits) : walk ⟨[]⟩ fuel len v bits = none := by
  induction fuel generalizing len v bits with
  | zero => rfl
  | succ fuel ih =>
    cases bits with
    | nil => rfl
    | cons b bits => exact ih (len + 1) (2 * v + b.toNat) bits

theorem decode_empty (bits : Bits) : decode ⟨[]⟩ bits = none := walk_empty _ 0 0 bits

/-- Settles O9: no symbol has a length, so no code is assigned, and the walk finds none. -/
theorem emptyTreeNeverDecodes : Obligations.EmptyTreeNeverDecodes := by
  intro n s k hs
  refine ⟨build_replicate_zero n, ?_⟩
  have hbits : s.hasBits 15 ↔ s.bitpos.toNat + 15 ≤ 8 * s.inLen.toNat := and_iff_left hs.2
  have hwf : (⟨[]⟩ : Tree).wf := List.forall_mem_nil _
  rw [Machine.huff_of_none hwf hs (decode_empty _)]
  simp only [hbits, apply_ite Host.Outcome.next]

end Sys2Proof.Huffman
end

section
/-! The encoder and the decoder (30_encoding.md): each undoes the other, format by format. -/

namespace Sys2Proof

/-! ## Fields (R107) -/

@[simp] theorem drop_fieldBits_append {w : Nat} (v : BitVec w) (rest : Bits) : (fieldBits v ++ rest).drop w = rest :=
  List.drop_left' (fieldBits_length v)

/-- A field that is there is the bits it is read from. -/
theorem fieldBits_getField_append_drop {w : Nat} {bits : Bits} (h : w ≤ bits.length) :
    fieldBits (getField w bits) ++ bits.drop w = bits := by
  have hfield : fieldBits (getField w bits) = bits.take w := by
    refine List.ext_getElem (by simpa using h) fun i hi hi' => ?_
    rw [fieldBits_length] at hi
    simp only [fieldBits, List.getElem_map, List.getElem_range, getField, BitVec.getLsbD_ofNat, bitsValue_testBit, hi,
      decide_true, Bool.true_and, List.getD_eq_getElem _ _ hi']
  rw [hfield, List.take_append_drop]

theorem flatMap_fieldBits_length (lens : List (BitVec 3)) : (lens.flatMap fieldBits).length = 3 * lens.length := by
  simp [List.length_flatMap, Nat.mul_comm]

theorem getFields3_flatMap_append (lens : List (BitVec 3)) (rest : Bits) :
    getFields3 lens.length (lens.flatMap fieldBits ++ rest) = lens := by
  induction lens with
  | nil => rfl
  | cons l lens ih =>
    rw [List.length_cons, getFields3, List.flatMap_cons, List.append_assoc, getField_fieldBits, drop_fieldBits_append, ih]

theorem flatMap_getFields3_append_drop {n : Nat} {bits : Bits} (h : 3 * n ≤ bits.length) :
    (getFields3 n bits).flatMap fieldBits ++ bits.drop (3 * n) = bits := by
  induction n generalizing bits with
  | zero => rfl
  | succ n ih =>
    have hrest : 3 * n ≤ (bits.drop 3).length := by rw [List.length_drop]; omega
    rw [getFields3, List.flatMap_cons, List.append_assoc, show 3 * (n + 1) = 3 + 3 * n by omega, ← List.drop_drop, ih hrest,
      fieldBits_getField_append_drop (by omega)]

/-! ## The decoder's answer -/

/-- The decoder answers an element whose bits are all there (R160). -/
theorem decode_eq_ok_iff {f : Format} {i : Instr} {bits rest : Bits} :
    decode f bits = .ok (i, rest) ↔ ∃ n, decodeRaw f bits = some (i, n) ∧ n ≤ bits.length ∧ bits.drop n = rest := by
  unfold decode
  rcases decodeRaw f bits with _ | ⟨i', n'⟩
  · simp only [reduceCtorEq, false_and, exists_false, iff_false]
    split_ifs <;> nofun
  · by_cases hn : n' ≤ bits.length <;> simp only [hn, if_true, if_false, Except.ok.injEq, Prod.mk.injEq, Option.some.injEq]
    · constructor
      · rintro ⟨rfl, rfl⟩
        exact ⟨n', ⟨rfl, rfl⟩, hn, rfl⟩
      · rintro ⟨n, ⟨rfl, rfl⟩, -, rfl⟩
        exact ⟨rfl, rfl⟩
    · simp only [reduceCtorEq, false_iff, not_exists]
      rintro n ⟨⟨-, rfl⟩, hn', -⟩
      exact hn hn'

/-- No code is missed but in a symbol format, with fifteen bits there (R456). -/
theorem of_decode_eq_noCode {f : Format} {bits : Bits} (h : decode f bits = .error .noCode) :
    decodeRaw f bits = none ∧ 15 ≤ bits.length := by
  unfold decode at h
  rcases hraw : decodeRaw f bits with _ | ⟨i, n⟩
  · by_cases hlen : bits.length < Config.maxBits <;> simp only [hraw, hlen, if_true, if_false, Except.error.injEq, reduceCtorEq] at h
    exact ⟨rfl, Nat.not_lt.mp hlen⟩
  · by_cases hn : n ≤ bits.length <;> simp [hraw, hn] at h

/-- The bits end inside a code, or inside the element that they begin with (R452). -/
theorem of_decode_eq_truncated {f : Format} {bits : Bits} (h : decode f bits = .error .truncated) :
    (decodeRaw f bits = none ∧ bits.length < 15) ∨ ∃ i n, decodeRaw f bits = some (i, n) ∧ bits.length < n := by
  unfold decode at h
  rcases hraw : decodeRaw f bits with _ | ⟨i, n⟩
  · by_cases hlen : bits.length < Config.maxBits <;> simp only [hraw, hlen, if_true, if_false, Except.error.injEq, reduceCtorEq] at h
    exact .inl ⟨rfl, hlen⟩
  · by_cases hn : n ≤ bits.length <;> simp only [hraw, hn, if_true, if_false, reduceCtorEq] at h
    exact .inr ⟨i, n, rfl, Nat.not_le.mp hn⟩

/-- An element that takes exactly the bits in front leaves the bits behind them. -/
theorem decode_append_eq_ok {f : Format} {i : Instr} {bits rest : Bits}
    (h : decodeRaw f (bits ++ rest) = some (i, bits.length)) : decode f (bits ++ rest) = .ok (i, rest) :=
  decode_eq_ok_iff.mpr ⟨_, h, by simp, List.drop_left⟩

/-! ## Rows of the symbol formats (R152–R154) -/

namespace Laws.Rows

/-- The family's laws, for any element. -/
theorem statement_of_instr : ∀ i, Statement i
  | .stored b => stored b | .fixed b => fixed b | .dynamic b => dynamic b | .reserved b => reserved b
  | .storedHdr len nlen => storedHdr len nlen | .storedByte b => storedByte b
  | .dynHdr hlit hdist hclen lens => dynHdr hlit hdist hclen lens | .clLen v => clLen v | .clRep16 e => clRep16 e
  | .clZero17 e => clZero17 e | .clZero18 e => clZero18 e | .lit b => lit b | .eob => eob | .len257 => len257
  | .len258 => len258 | .len259 => len259 | .len260 => len260 | .len261 => len261 | .len262 => len262 | .len263 => len263
  | .len264 => len264 | .len265 e => len265 e | .len266 e => len266 e | .len267 e => len267 e | .len268 e => len268 e
  | .len269 e => len269 e | .len270 e => len270 e | .len271 e => len271 e | .len272 e => len272 e | .len273 e => len273 e
  | .len274 e => len274 e | .len275 e => len275 e | .len276 e => len276 e | .len277 e => len277 e | .len278 e => len278 e
  | .len279 e => len279 e | .len280 e => len280 e | .len281 e => len281 e | .len282 e => len282 e | .len283 e => len283 e
  | .len284 e => len284 e | .len285 => len285 | .llInvalid286 => llInvalid286 | .llInvalid287 => llInvalid287
  | .dist0 => dist0 | .dist1 => dist1 | .dist2 => dist2 | .dist3 => dist3 | .dist4 e => dist4 e | .dist5 e => dist5 e
  | .dist6 e => dist6 e | .dist7 e => dist7 e | .dist8 e => dist8 e | .dist9 e => dist9 e | .dist10 e => dist10 e
  | .dist11 e => dist11 e | .dist12 e => dist12 e | .dist13 e => dist13 e | .dist14 e => dist14 e | .dist15 e => dist15 e
  | .dist16 e => dist16 e | .dist17 e => dist17 e | .dist18 e => dist18 e | .dist19 e => dist19 e | .dist20 e => dist20 e
  | .dist21 e => dist21 e | .dist22 e => dist22 e | .dist23 e => dist23 e | .dist24 e => dist24 e | .dist25 e => dist25 e
  | .dist26 e => dist26 e | .dist27 e => dist27 e | .dist28 e => dist28 e | .dist29 e => dist29 e | .dInvalid30 => dInvalid30
  | .dInvalid31 => dInvalid31

end Laws.Rows

theorem encode_of_symbol {i : Instr} {sym : Nat} (h : i.symbol = some sym) (f : Format) :
    encode f i = Huffman.symBits f.tree sym ++ i.extraBits := by
  cases i
  case stored | fixed | dynamic | reserved | storedHdr | storedByte | dynHdr => cases h
  all_goals simp only [encode, h]

/-- An element of a symbol format has a symbol (R164). -/
theorem exists_symbol {i : Instr} (h : i.kind = .clSymbol ∨ i.kind = .llSymbol ∨ i.kind = .dSymbol) :
    ∃ sym, i.symbol = some sym := by
  cases i
  case stored | fixed | dynamic | reserved | storedHdr | storedByte | dynHdr => simp [Instr.kind] at h
  all_goals exact ⟨_, rfl⟩

/-! ## Decoding what was encoded (R160) -/

/-- The code of a symbol, with any bits behind it, decodes to that symbol (R225, R226). -/
theorem decode_symBits_append {ls : List Nat} {t : Tree} (h : Huffman.build ls = some t) (hl : ∀ l ∈ ls, l ≤ Config.maxBits)
    {sym : Nat} (hsym : sym < ls.length) (h0 : ls[sym] ≠ 0) (rest : Bits) :
    Huffman.decode t (Huffman.symBits t sym ++ rest) = some (sym, (Huffman.symBits t sym).length) := by
  obtain ⟨c, hc, rfl, -⟩ := Huffman.exists_mem_of_length h hl hsym h0
  rw [Huffman.symBits_of_mem h hl hc, Huffman.codeBits_length]
  by_cases hone : Huffman.nsym t = 1
  · obtain ⟨d, hd⟩ := List.length_eq_one_iff.mp hone
    obtain rfl : c = d := by rwa [hd, List.mem_singleton] at hc
    exact Huffman.decode_degenerate hd (by simp)
  · exact (Huffman.decode_eq_some_iff h hl hone _ _ _).mpr ⟨c, hc, rfl, rfl, List.prefix_append _ _⟩

/-- A symbol's element is its code and then its extra field. -/
theorem decodeSymbol_append {t : Tree} {row : Nat → Bits → Instr} {i : Instr} {sym : Nat} {code rest : Bits}
    (hcode : ∀ more, Huffman.decode t (code ++ more) = some (sym, code.length))
    (hrow : row sym (i.extraBits ++ rest) = i) :
    decodeSymbol t row (code ++ i.extraBits ++ rest) = some (i, (code ++ i.extraBits).length) := by
  rw [decodeSymbol, List.append_assoc, hcode]
  simp only [List.drop_left, hrow, List.length_append]

/-- The four rows of a block header by their key (R151). -/
theorem exists_blockRow {i : Instr} (h : i.kind = .blockHdr) :
    ∃ btype final, i = blockRow btype final ∧ ∀ f, encode f i = final :: fieldBits btype := by
  cases i
  case stored b => exact ⟨0#2, b, rfl, fun _ => rfl⟩
  case fixed b => exact ⟨1#2, b, rfl, fun _ => rfl⟩
  case dynamic b => exact ⟨2#2, b, rfl, fun _ => rfl⟩
  case reserved b => exact ⟨3#2, b, rfl, fun _ => rfl⟩
  all_goals cases h

theorem decodeRaw_storedHdr_append (p : Bits) (len nlen : BitVec 16) (rest : Bits) :
    decodeRaw (.storedHdr p.length) (p ++ fieldBits len ++ fieldBits nlen ++ rest) =
      some (.storedHdr len nlen, (p ++ fieldBits len ++ fieldBits nlen).length) := by
  simp only [decodeRaw, storedHdrElem, ← List.drop_drop, List.append_assoc, List.drop_left, drop_fieldBits_append,
    getField_fieldBits, List.length_append, fieldBits_length]

theorem decodeRaw_dynHdr_append {hlit hdist : BitVec 5} {hclen : BitVec 4} {lens : List (BitVec 3)}
    (h : lens.length = hclen.toNat + 4) (rest : Bits) :
    decodeRaw .dynHdr (fieldBits hlit ++ fieldBits hdist ++ fieldBits hclen ++ lens.flatMap fieldBits ++ rest) =
      some (.dynHdr hlit hdist hclen lens,
        (fieldBits hlit ++ fieldBits hdist ++ fieldBits hclen ++ lens.flatMap fieldBits).length) := by
  set bits := fieldBits hlit ++ fieldBits hdist ++ fieldBits hclen ++ lens.flatMap fieldBits ++ rest with hbits
  have h5 : bits.drop 5 = fieldBits hdist ++ fieldBits hclen ++ lens.flatMap fieldBits ++ rest := by
    simp only [hbits, List.append_assoc, drop_fieldBits_append]
  have h10 : bits.drop 10 = fieldBits hclen ++ lens.flatMap fieldBits ++ rest := by
    rw [show bits.drop 10 = (bits.drop 5).drop 5 by rw [List.drop_drop], h5]
    simp only [List.append_assoc, drop_fieldBits_append]
  have h14 : bits.drop 14 = lens.flatMap fieldBits ++ rest := by
    rw [show bits.drop 14 = (bits.drop 10).drop 4 by rw [List.drop_drop], h10]
    simp only [List.append_assoc, drop_fieldBits_append]
  have hcount : clCount bits = lens.length := by
    rw [clCount, h10, List.append_assoc, getField_fieldBits, h]
  rw [decodeRaw, dynHdrElem, hcount, h5, h10, h14, getFields3_flatMap_append]
  simp only [hbits, List.append_assoc, getField_fieldBits, List.length_append, fieldBits_length, flatMap_fieldBits_length]
  congr 2
  omega

/-- The pad is not looked at (R142, R159). -/
theorem decode_storedHdr_append (p rest : Bits) :
    decode (.storedHdr p.length) (p ++ rest) = if 32 ≤ rest.length then
      .ok (storedHdrElem 0 rest, rest.drop 32) else .error .truncated := by
  simp only [decode, decodeRaw, storedHdrElem, ← List.drop_drop, List.drop_left, List.length_append,
    Nat.add_le_add_iff_left]
  rfl

/-- Settles O2: each format's fields are read where they were written; a symbol's code is found since no code begins another. -/
theorem decodeOfEncode : Obligations.DecodeOfEncode := by
  refine ⟨fun f i rest hwf hkind hcode => ?_, fun p p' rest hlen => by
    rw [decode_storedHdr_append, decode_storedHdr_append]⟩
  have hrow := Laws.Rows.statement_of_instr i
  have hsymbol (t : Tree) (ht : f.tree = t) (hk : i.kind = .clSymbol ∨ i.kind = .llSymbol ∨ i.kind = .dSymbol)
      (row : Nat → Bits → Instr) (hrow : ∀ rest, row (i.symbol.getD 0) (i.extraBits ++ rest) = i) :
      decodeSymbol t row (encode f i ++ rest) = some (i, (encode f i).length) := by
    obtain ⟨sym, hsym⟩ := exists_symbol hk
    obtain ⟨ls, hbuild, hl, hlt, h0⟩ := hcode sym hsym
    rw [encode_of_symbol hsym, ht]
    rw [hsym] at hrow
    exact decodeSymbol_append (decode_symBits_append (ht ▸ hbuild) hl hlt h0) (hrow rest)
  refine decode_append_eq_ok ?_
  cases f
  case blockHdr =>
    obtain ⟨btype, final, rfl, hencode⟩ := exists_blockRow hkind.symm
    rw [hencode]
    simp [decodeRaw, blockHdrElem]
  case storedHdr pad =>
    cases i
    case storedHdr len nlen =>
      have hraw := decodeRaw_storedHdr_append (List.replicate pad false) len nlen rest
      rwa [List.length_replicate] at hraw
    all_goals cases hkind
  case storedByte =>
    cases i
    case storedByte b => simp [decodeRaw, encode, storedByteElem]
    all_goals cases hkind
  case dynHdr =>
    cases i
    case dynHdr hlit hdist hclen lens => exact decodeRaw_dynHdr_append (by simpa [Instr.wellFormed] using hwf) rest
    all_goals cases hkind
  case clSymbol t =>
    rw [Laws.Rows.Statement, ← hkind] at hrow
    exact hsymbol t rfl (.inl hkind.symm) clRow hrow
  case llSymbol t =>
    rw [Laws.Rows.Statement, ← hkind] at hrow
    exact hsymbol t rfl (.inr (.inl hkind.symm)) llRow hrow
  case dSymbol t =>
    rw [Laws.Rows.Statement, ← hkind] at hrow
    exact hsymbol t rfl (.inr (.inr hkind.symm)) dRow hrow

/-! ## Encoding what was decoded -/

/-- The row `i` is that of the symbol `sym` in the format `k`, and its extra field is read from the front of `ops`. -/
structure IsRow (k : Kind) (sym : Nat) (ops : Bits) (i : Instr) : Prop where
  kind : i.kind = k
  symbol : i.symbol = some sym
  wellFormed : i.wellFormed = true
  extraBits : i.extraBits.length ≤ ops.length → i.extraBits ++ ops.drop i.extraBits.length = ops

namespace IsRow
variable {k : Kind} {sym : Nat} {ops : Bits} {i : Instr}

theorem ofNoExtra (hextra : i.extraBits = []) (hkind : i.kind = k) (hsym : i.symbol = some sym) (hwf : i.wellFormed = true) :
    IsRow k sym ops i := ⟨hkind, hsym, hwf, fun _ => by rw [hextra]; rfl⟩

theorem ofField {w : Nat} (hextra : i.extraBits = fieldBits (getField w ops)) (hkind : i.kind = k) (hsym : i.symbol = some sym)
    (hwf : i.wellFormed = true) : IsRow k sym ops i :=
  ⟨hkind, hsym, hwf, fun h => by
    rw [hextra, fieldBits_length] at h ⊢
    exact fieldBits_getField_append_drop h⟩

end IsRow

theorem isRow_clRow {sym : Nat} (h : sym < 19) (ops : Bits) : IsRow .clSymbol sym ops (clRow sym ops) := by
  by_cases h15 : sym ≤ 15
  · rw [clRow, if_pos h15]
    exact .ofNoExtra rfl rfl (congrArg some (by rw [BitVec.toNat_ofNat]; omega)) rfl
  · interval_cases sym
    all_goals exact .ofField rfl rfl rfl rfl

theorem llRow_of_lt {sym : Nat} (h : sym < 256) (ops : Bits) : llRow sym ops = .lit (BitVec.ofNat 8 sym) := if_pos h

theorem isRow_llRow {sym : Nat} (h : sym < 288) (ops : Bits) : IsRow .llSymbol sym ops (llRow sym ops) := by
  by_cases hlit : sym < 256
  · rw [llRow_of_lt hlit]
    exact .ofNoExtra rfl rfl (congrArg some (by rw [BitVec.toNat_ofNat]; omega)) rfl
  by_cases hextra : 265 ≤ sym ∧ sym < 285
  · obtain ⟨hlo, hhi⟩ := hextra
    interval_cases sym
    all_goals exact .ofField rfl rfl rfl rfl
  · rcases (by omega : sym < 265 ∨ 285 ≤ sym) with hsym | hsym
    all_goals
      interval_cases sym
      all_goals exact .ofNoExtra rfl rfl rfl rfl

theorem isRow_dRow {sym : Nat} (h : sym < 32) (ops : Bits) : IsRow .dSymbol sym ops (dRow sym ops) := by
  by_cases hextra : 4 ≤ sym ∧ sym < 30
  · obtain ⟨hlo, hhi⟩ := hextra
    interval_cases sym
    all_goals exact .ofField rfl rfl rfl rfl
  · rcases (by omega : sym < 4 ∨ 30 ≤ sym) with hsym | hsym
    all_goals
      interval_cases sym
      all_goals exact .ofNoExtra rfl rfl rfl rfl

/-- In a regular tree the code that is found is the one the encoder writes (R225). -/
theorem symBits_append_drop {ls : List Nat} {t : Tree} (h : Huffman.build ls = some t) (hl : ∀ l ∈ ls, l ≤ Config.maxBits)
    (ht : Huffman.nsym t ≠ 1) {bits : Bits} {sym n : Nat} (hd : Huffman.decode t bits = some (sym, n)) :
    sym < ls.length ∧ Huffman.symBits t sym ++ bits.drop n = bits := by
  obtain ⟨c, hc, rfl, rfl, more, rfl⟩ := (Huffman.decode_eq_some_iff h hl ht _ _ _).mp hd
  rw [Huffman.symBits_of_mem h hl hc, List.drop_left' (Huffman.codeBits_length _ _)]
  exact ⟨Huffman.sym_lt_of_mem h hl hc, rfl⟩

theorem encode_of_decodeSymbol {f : Format} {k : Kind} {row : Nat → Bits → Instr} {i : Instr} {bits : Bits} {n bound : Nat}
    {ls : List Nat} (hrow : ∀ sym < bound, ∀ ops, IsRow k sym ops (row sym ops)) (h : Huffman.build ls = some f.tree)
    (hl : ∀ l ∈ ls, l ≤ Config.maxBits) (ht : Huffman.nsym f.tree ≠ 1) (hbound : ls.length ≤ bound)
    (hd : decodeSymbol f.tree row bits = some (i, n)) (hn : n ≤ bits.length) :
    i.wellFormed = true ∧ i.kind = k ∧ encode f i ++ bits.drop n = bits := by
  unfold decodeSymbol at hd
  rcases hcode : Huffman.decode f.tree bits with _ | ⟨sym, m⟩
  · simp only [hcode, reduceCtorEq] at hd
  simp only [hcode, Option.some.injEq, Prod.mk.injEq] at hd
  obtain ⟨rfl, rfl⟩ := hd
  obtain ⟨hsym, hbits⟩ := symBits_append_drop h hl ht hcode
  obtain ⟨hkind, hsymbol, hwf, hextra⟩ := hrow sym (hsym.trans_le hbound) (bits.drop m)
  refine ⟨hwf, hkind, ?_⟩
  rw [encode_of_symbol hsymbol, List.append_assoc, ← List.drop_drop, hextra (by rw [List.length_drop]; omega), hbits]

theorem blockRow_spec (btype : BitVec 2) (final : Bool) :
    (blockRow btype final).wellFormed = true ∧ (blockRow btype final).kind = .blockHdr ∧
      ∀ f, encode f (blockRow btype final) = final :: fieldBits btype := by
  obtain rfl | rfl | rfl | rfl : btype = 0#2 ∨ btype = 1#2 ∨ btype = 2#2 ∨ btype = 3#2 := by
    revert btype
    decide
  all_goals exact ⟨rfl, rfl, fun _ => rfl⟩

/-- Settles O3: a field that is there is the bits it was read from, and so is the code that a regular tree finds. -/
theorem encodeOfDecode : Obligations.EncodeOfDecode := by
  intro f i bits rest hdecode htree
  obtain ⟨n, hraw, hn, rfl⟩ := decode_eq_ok_iff.mp hdecode
  cases f
  case blockHdr =>
    obtain ⟨rfl, rfl⟩ : blockHdrElem bits = i ∧ 3 = n := by simpa [decodeRaw] using hraw
    obtain ⟨b, tail, rfl⟩ := List.exists_cons_of_length_pos (by omega : 0 < bits.length)
    obtain ⟨hwf, hkind, hencode⟩ := blockRow_spec (getField 2 tail) b
    refine ⟨hwf, hkind, (congrArg (· ++ tail.drop 2) (hencode _)).trans ?_⟩
    exact congrArg (b :: ·) (fieldBits_getField_append_drop (by simpa using hn))
  case storedHdr pad =>
    obtain ⟨rfl, rfl⟩ : storedHdrElem pad bits = i ∧ pad + 32 = n := by simpa [decodeRaw] using hraw
    have h16 : bits.drop (pad + 16) = (bits.drop pad).drop 16 := by rw [List.drop_drop]
    have h32 : bits.drop (pad + 32) = ((bits.drop pad).drop 16).drop 16 := by rw [List.drop_drop, List.drop_drop]
    refine ⟨rfl, rfl, ?_⟩
    rw [storedHdrElem, encode, h16, h32, List.append_assoc, List.append_assoc,
      fieldBits_getField_append_drop (by simp; omega), fieldBits_getField_append_drop (by simp; omega)]
    rfl
  case storedByte =>
    obtain ⟨rfl, rfl⟩ : storedByteElem bits = i ∧ 8 = n := by simpa [decodeRaw] using hraw
    exact ⟨rfl, rfl, fieldBits_getField_append_drop hn⟩
  case dynHdr =>
    obtain ⟨rfl, rfl⟩ : dynHdrElem bits = i ∧ 14 + 3 * clCount bits = n := by simpa [decodeRaw] using hraw
    have h10 : bits.drop 10 = (bits.drop 5).drop 5 := by rw [List.drop_drop]
    have h14 : bits.drop 14 = (bits.drop 10).drop 4 := by rw [List.drop_drop]
    have hlens := flatMap_getFields3_append_drop (n := clCount bits) (bits := bits.drop 14) (by simp; omega)
    have hhclen := fieldBits_getField_append_drop (w := 4) (bits := bits.drop 10) (by simp; omega)
    have hhdist := fieldBits_getField_append_drop (w := 5) (bits := bits.drop 5) (by simp; omega)
    refine ⟨?_, rfl, ?_⟩
    · rw [dynHdrElem, Instr.wellFormed, beq_iff_eq, Machine.getFields3_length, clCount]
    · rw [dynHdrElem, encode, List.append_assoc, List.append_assoc, List.append_assoc, ← List.drop_drop, hlens, h14, hhclen, h10,
        hhdist]
      exact fieldBits_getField_append_drop (by omega)
  case clSymbol t =>
    obtain ⟨ls, hbuild, hl, hregular, hlen⟩ := htree (.inl rfl)
    exact encode_of_decodeSymbol (fun _ h => isRow_clRow h) hbuild hl (by omega) hlen hraw hn
  case llSymbol t =>
    obtain ⟨ls, hbuild, hl, hregular, hlen⟩ := htree (.inr (.inl rfl))
    exact encode_of_decodeSymbol (fun _ h => isRow_llRow h) hbuild hl (by omega) hlen hraw hn
  case dSymbol t =>
    obtain ⟨ls, hbuild, hl, hregular, hlen⟩ := htree (.inr (.inr rfl))
    exact encode_of_decodeSymbol (fun _ h => isRow_dRow h) hbuild hl (by omega) hlen hraw hn

/-- Settles O1: each of the words is written out, and the decoder computes. -/
theorem decodesWordsOfTheSpec : Obligations.DecodesWordsOfTheSpec := by
  unfold Obligations.DecodesWordsOfTheSpec
  decide

end Sys2Proof
end

section
/-! The host's registers and buffers (10_state.md §6, R58–R70, R500), and the numbers of the errors (R451). -/

namespace Sys2Proof.Machine

/-- Settles O39: the codes are listed in the order of the table. -/
theorem errorNumbers : Obligations.ErrorNumbers := by
  unfold Obligations.ErrorNumbers
  decide

/-- Settles O44: `STATUS` is a function of `PHASE`. -/
theorem statusOfPhase : Obligations.StatusOfPhase := by
  have hle : ∀ p : Phase, p.status.code.toNat ≤ 4 := by
    intro p
    cases p <;> decide
  refine ⟨fun s => hle s.phase, fun s => ?_⟩
  unfold statusWord
  cases s.phase <;> rfl

/-! ## Register accesses (R105) -/

section
variable {s : State} {q : List HostEvent} {off : Nat} {v : Word} (halign : off % 4 = 0) (hoff : off < 64)
include halign hoff

theorem registerAccess_of_aligned : registerAccess off 4 = true := by simp [registerAccess, halign, hoff]

/-- An aligned read takes the step and answers in the model's own field (R58, R69). -/
theorem step_of_readReg (hq : s.hostQueue = .readReg off 4 :: q) :
    step s = .next { s with hostQueue := q, hostData := readRegister off s } := by
  rw [step_of_event hq nofun, hostStep, if_pos (registerAccess_of_aligned halign hoff)]
  rfl

/-- An aligned write takes the step (R58). -/
theorem step_of_writeReg (hq : s.hostQueue = .writeReg off 4 v :: q) :
    step s = writeRegister off v { s with hostQueue := q } := by
  rw [step_of_event hq nofun, hostStep, if_pos (registerAccess_of_aligned halign hoff)]

end

/-- The register map (R58), reserved offsets last. -/
theorem readRegister_eq (off : Nat) (s : State) : readRegister off s =
    if off = 0x00 then (if s.blockStep then 0x100 else 0) else if off = 0x04 then statusWord s
    else if off = 0x08 then s.errCode.setWidth 32 else if off = 0x0C then s.errBitpos else if off = 0x10 then s.errBlock
    else if off = 0x14 then s.inLen else if off = 0x18 then s.outCap else if off = 0x1C then s.outLen
    else if off = 0x20 then s.bitpos else if off = 0x24 then s.blockIdx else 0 := by
  unfold readRegister
  split
  any_goals rfl
  next h0 h4 h8 hC h10 h14 h18 h1C h20 h24 =>
    rw [if_neg h0, if_neg h4, if_neg h8, if_neg hC, if_neg h10, if_neg h14, if_neg h18, if_neg h1C, if_neg h20, if_neg h24]

/-- Settles O45: the access answers the register map. -/
theorem registerReads : Obligations.RegisterReads := by
  intro s q off hq halign hoff
  rw [step_of_readReg halign hoff hq, readRegister_eq]

theorem writeRegister_of_ignored {off : Nat} (h0 : off ≠ 0x00) (h14 : off ≠ 0x14) (h18 : off ≠ 0x18) (v : Word) (s : State) :
    writeRegister off v s = .next s := by
  unfold writeRegister
  split
  · exact absurd rfl h0
  · exact absurd rfl h14
  · exact absurd rfl h18
  · rfl

/-- Settles O46: three offsets write a register, and a write of `CTRL` looks at three bits. -/
theorem readOnlyWritesIgnored : Obligations.ReadOnlyWritesIgnored := by
  refine ⟨fun s q off v hq halign hoff h0 h14 h18 => ?_, fun s v => ?_⟩
  · rw [step_of_writeReg halign hoff hq, writeRegister_of_ignored h0 h14 h18]
  · have hbit (i : Nat) (hi : (0x103 : Word).getLsbD i = true) : (v &&& 0x103).getLsbD i = v.getLsbD i := by
      rw [BitVec.getLsbD_and, hi, Bool.and_true]
    simp only [writeCtrl, hbit 0 rfl, hbit 1 rfl, hbit 8 rfl]

/-! ## The registers of a session (R425) -/

section
variable {s : State} {v : Word}

theorem writeInLen_of_inSession (h : s.phase.inSession = true) : writeInLen v s = .next s := if_pos h

theorem writeInLen_of_fitting (h : s.phase.inSession = false) (hv : v.toNat ≤ Config.inLenMax) :
    writeInLen v s = .next { s with inLen := v } := by
  rw [writeInLen, if_neg (by simp [h]), if_neg (Nat.not_lt.mpr hv)]

theorem writeOutCap_of_inSession (h : s.phase.inSession = true) : writeOutCap v s = s := if_pos h

theorem writeOutCap_of_not_inSession (h : s.phase.inSession = false) : writeOutCap v s = { s with outCap := v } :=
  if_neg (by simp [h])

@[simp] theorem start_blockStep (s : State) : (start s).blockStep = s.blockStep := by
  unfold start
  split <;> rfl

@[simp] theorem resume_blockStep (s : State) : (resume s).blockStep = s.blockStep := by
  unfold resume
  split <;> rfl

/-- A write of `CTRL` stores `BLOCK_STEP`, whatever its commands do (R59, R424). -/
theorem writeCtrl_blockStep : (writeCtrl v s).blockStep = v.getLsbD 8 := by
  unfold writeCtrl
  simp only [apply_ite State.blockStep, start_blockStep, resume_blockStep, ite_self]

end

/-! ## The buffers (R500) -/

/-- Settles O51: each access is one event, and reading after a write of a byte space. -/
theorem hostBufferAccess : Obligations.HostBufferAccess := by
  refine fun s q a b hin hout => ⟨fun hsession hq => ⟨Memory.write a.toNat b s.inMem, ?_, Memory.read_write _ hin _ b⟩,
    fun hsession hq => ⟨Memory.write a.toNat b s.outMem, ?_, Memory.read_write _ hout _ b⟩, fun hsession hq => ?_,
    fun hq => step_of_event hq nofun⟩
  · rw [step_of_event hq nofun]
    exact if_neg (by simp [hsession])
  · rw [step_of_event hq nofun]
    exact if_neg (by simp [hsession])
  · rcases hq with hq | hq
    all_goals
      rw [step_of_event hq nofun]
      exact if_pos hsession

end Sys2Proof.Machine
end

section
/-! Which element a step runs (30_encoding.md §4–5): the one that the bits at the cursor decode to. -/

namespace Sys2Proof.Machine

/-! ## What the look-ahead shows is what the rest of the input holds (log 7) -/

/-- A field is the same read ahead and read from the rest of the input, wherever it stands in the window. -/
theorem getField_drop_window (s : State) {off w : Nat} (h : off + w ≤ 73) :
    getField w ((window s).drop off) = getField w ((remaining s).drop off) := by
  rw [getField_drop_congr off w (window_take s h) (Nat.le_refl _), List.drop_append, List.drop_replicate, getField, getField,
    List.take_append, List.take_replicate, bitsValue_append_zeros]

theorem getFields3_eq_of_fields {n off : Nat} {bits bits' : Bits}
    (h : ∀ k < n, getField 3 (bits.drop (off + 3 * k)) = getField 3 (bits'.drop (off + 3 * k))) :
    getFields3 n (bits.drop off) = getFields3 n (bits'.drop off) := by
  induction n generalizing off with
  | zero => rfl
  | succ n ih =>
    have hrest : getFields3 n (bits.drop (off + 3)) = getFields3 n (bits'.drop (off + 3)) :=
      ih fun k hk => by simpa only [Nat.mul_succ, Nat.add_assoc, Nat.add_comm 3] using h (k + 1) (by omega)
    have hhead : getField 3 (bits.drop off) = getField 3 (bits'.drop off) := h 0 (Nat.succ_pos n)
    rw [getFields3, getFields3, List.drop_drop, List.drop_drop, hrest, hhead]

theorem blockHdrElem_window (s : State) : blockHdrElem (window s) = blockHdrElem (remaining s) := by
  have hhead : (window s).headD false = (remaining s).headD false := by
    have htake := congrArg (·.headD false) (window_take s (show 1 ≤ 73 by omega))
    rcases hrem : remaining s with _ | ⟨b, bits⟩
    all_goals simpa [hrem, List.headD_eq_head?_getD, List.head?_take] using htake
  rw [blockHdrElem, getField_drop_window s (by omega), hhead, blockHdrElem]

theorem storedHdrElem_window (s : State) : storedHdrElem (padBits s) (window s) = storedHdrElem (padBits s) (remaining s) := by
  have hpad : padBits s < 8 := Nat.mod_lt _ (by omega)
  rw [storedHdrElem, getField_drop_window s (by omega), getField_drop_window s (by omega), storedHdrElem]

theorem storedByteElem_window (s : State) : storedByteElem (window s) = storedByteElem (remaining s) := by
  rw [storedByteElem, getField_window s (by omega), storedByteElem]

theorem dynHdrElem_window (s : State) : dynHdrElem (window s) = dynHdrElem (remaining s) := by
  have hhclen : getField 4 ((window s).drop 10) = getField 4 ((remaining s).drop 10) := getField_drop_window s (by omega)
  have hcount : clCount (window s) = clCount (remaining s) := by rw [clCount, hhclen, clCount]
  have hle := clCount_le (remaining s)
  have hlens : getFields3 (clCount (remaining s)) ((window s).drop 14) = getFields3 (clCount (remaining s)) ((remaining s).drop 14) :=
    getFields3_eq_of_fields fun k hk => getField_drop_window s (by omega)
  rw [dynHdrElem, hcount, hlens, hhclen, getField_drop_window s (by omega), getField_window s (by omega), dynHdrElem]

theorem clRow_window (sym : Nat) (s : State) : clRow sym (window s) = clRow sym (remaining s) := by
  simp (disch := omega) only [clRow, getField_window]

theorem llRow_window (sym : Nat) (s : State) : llRow sym (window s) = llRow sym (remaining s) := by
  simp (disch := omega) only [llRow, getField_window]

theorem dRow_window (sym : Nat) (s : State) : dRow sym (window s) = dRow sym (remaining s) := by
  simp (disch := omega) only [dRow, getField_window]

/-! ## The symbol formats -/

/-- The format `f` decodes a symbol of its tree and selects the row `row` (R164). -/
structure SymbolFormat (f : Format) (row : Nat → Bits → Instr) : Prop where
  raw : ∀ bits, decodeRaw f bits = decodeSymbol f.tree row bits
  width : ∀ bits, codeWidth f bits = ((Huffman.decode f.tree bits).map (·.2)).getD 0
  window : ∀ sym s, row sym (window s) = row sym (remaining s)

theorem symbolFormat_clSymbol (t : Tree) : SymbolFormat (.clSymbol t) clRow := ⟨fun _ => rfl, fun _ => rfl, clRow_window⟩
theorem symbolFormat_llSymbol (t : Tree) : SymbolFormat (.llSymbol t) llRow := ⟨fun _ => rfl, fun _ => rfl, llRow_window⟩
theorem symbolFormat_dSymbol (t : Tree) : SymbolFormat (.dSymbol t) dRow := ⟨fun _ => rfl, fun _ => rfl, dRow_window⟩

/-- Decode a symbol of the format's tree and run its row, as a step and `DISTANCE` do (R287, R360). -/
def runRow (t : Tree) (row : Nat → Bits → Instr) (s : State) : Result := huff t s fun sym s => exec (row sym (window s)) s

theorem decodeRaw_of_decode {f : Format} {row : Nat → Bits → Instr} (hf : SymbolFormat f row) {bits : Bits} {sym n : Nat}
    (h : Huffman.decode f.tree bits = some (sym, n)) :
    decodeRaw f bits = some (row sym (bits.drop n), n + (row sym (bits.drop n)).extraBits.length) := by
  rw [hf.raw, decodeSymbol, h]

theorem decodeRaw_of_decode_none {f : Format} {row : Nat → Bits → Instr} (hf : SymbolFormat f row) {bits : Bits}
    (h : Huffman.decode f.tree bits = none) : decodeRaw f bits = none := by
  rw [hf.raw, decodeSymbol, h]

section
variable {f : Format} {row : Nat → Bits → Instr} (hf : SymbolFormat f row) {s : State} (hs : s.cursorOk) (ht : f.tree.wf)
include hf hs ht

/-- Behind a code that stands in the input, the symbol's row runs (R164). -/
theorem runRow_of_decode {sym n : Nat} (h : Huffman.decode f.tree (remaining s) = some (sym, n)) :
    runRow f.tree row s = exec (row sym ((remaining s).drop n)) (s.skip n) := by
  obtain ⟨-, -, hle⟩ := Huffman.decode_bounds ht h
  rw [remaining_length] at hle
  have hbits : s.hasBits n := ⟨by have := hs.1; omega, hs.2⟩
  rw [runRow, huff_of_decode ht hs h, hf.window, remaining_skip hbits]

theorem runRow_of_ok {i : Instr} {rest : Bits} (h : decode f (remaining s) = .ok (i, rest)) :
    runRow f.tree row s = exec i (s.skip (codeWidth f (remaining s))) := by
  obtain ⟨m, hraw, -, -⟩ := decode_eq_ok_iff.mp h
  rcases hd : Huffman.decode f.tree (remaining s) with _ | ⟨sym, n⟩
  · rw [decodeRaw_of_decode_none hf hd] at hraw
    cases hraw
  · rw [decodeRaw_of_decode hf hd, Option.some.injEq, Prod.mk.injEq] at hraw
    obtain ⟨rfl, -⟩ := hraw
    rw [runRow_of_decode hf hs ht hd, hf.width, hd]
    rfl

theorem runRow_of_noCode (h : decode f (remaining s) = .error .noCode) :
    runRow f.tree row s = .next (raise .invalidHuffmanCode (s.skip 15)) := by
  obtain ⟨hraw, hlen⟩ := of_decode_eq_noCode h
  rw [remaining_length] at hlen
  rcases hd : Huffman.decode f.tree (remaining s) with _ | ⟨sym, n⟩
  · rw [runRow, huff_of_none ht hs hd, if_pos (by have := hs.1; omega)]
  · rw [decodeRaw_of_decode hf hd] at hraw
    cases hraw

end

theorem distance_eq_runRow {s : State} {t : Tree} (h : s.tD = some t) : distance s = runRow t dRow s := by
  simp only [distance, h]
  exact congrArg (huff t s) (funext fun sym => funext fun s => distanceSymbol_eq sym s)

/-! ## One step -/

/-- A step decodes an element of a fixed format, or a symbol (R161, R164). -/
theorem engineStep_of_format {s : State} {f : Format} (h : s.format = some f) :
    (∃ i n, decodeRaw f (remaining s) = some (i, n) ∧ engineStep s = exec i s ∧ codeWidth f (remaining s) = 0) ∨
    ∃ row, SymbolFormat f row ∧ engineStep s = runRow f.tree row s := by
  unfold State.format at h
  split at h
  case h_1 hphase =>
    obtain rfl := Option.some.inj h
    exact .inl ⟨_, _, rfl, by rw [engineStep, hphase, blockHdrElem_window], rfl⟩
  case h_2 hphase =>
    obtain rfl := Option.some.inj h
    exact .inl ⟨_, _, rfl, by rw [engineStep, hphase, storedHdrElem_window], rfl⟩
  case h_3 hphase =>
    obtain rfl := Option.some.inj h
    exact .inl ⟨_, _, rfl, by rw [engineStep, hphase, storedByteElem_window], rfl⟩
  case h_4 hphase =>
    obtain rfl := Option.some.inj h
    exact .inl ⟨_, _, rfl, by rw [engineStep, hphase, dynHdrElem_window], rfl⟩
  case h_5 hphase =>
    obtain ⟨t, ht, rfl⟩ := Option.map_eq_some_iff.mp h
    exact .inr ⟨clRow, symbolFormat_clSymbol t, by rw [engineStep, hphase, ht]; rfl⟩
  case h_6 hphase =>
    obtain ⟨t, ht, rfl⟩ := Option.map_eq_some_iff.mp h
    exact .inr ⟨llRow, symbolFormat_llSymbol t, by rw [engineStep, hphase, ht]; rfl⟩
  all_goals cases h

/-- Settles O14: in the fixed formats the look-ahead shows the element itself; a symbol's row runs behind its code. -/
theorem stepRunsDecodedElement : Obligations.StepRunsDecodedElement := by
  refine ⟨fun s f i rest hq hs hformat ht h => ?_, fun s t i rest hs htree ht h => ?_⟩
  · rw [step_of_empty hq]
    rcases engineStep_of_format hformat with ⟨i', n, hraw, hstep, hwidth⟩ | ⟨row, hf, hstep⟩
    · obtain ⟨m, hraw', -, -⟩ := decode_eq_ok_iff.mp h
      rw [hraw, Option.some.injEq, Prod.mk.injEq] at hraw'
      rw [hstep, hwidth, skip_zero, hraw'.1]
    · rw [hstep, runRow_of_ok hf hs ht h]
  · rw [distance_eq_runRow htree]
    exact runRow_of_ok (symbolFormat_dSymbol t) hs ht h

/-- Settles O15: the decoder misses a code only in a symbol format, with fifteen bits there. -/
theorem noMatchingCodeRaises : Obligations.NoMatchingCodeRaises := by
  refine ⟨fun s f hq hs hformat ht h => ?_, fun s t hs htree ht h => ?_⟩
  · rw [step_of_empty hq]
    rcases engineStep_of_format hformat with ⟨i, n, hraw, -, -⟩ | ⟨row, hf, hstep⟩
    · rw [(of_decode_eq_noCode h).1] at hraw
      cases hraw
    · rw [hstep, runRow_of_noCode hf hs ht h]
  · rw [distance_eq_runRow htree]
    exact runRow_of_noCode (symbolFormat_dSymbol t) hs ht h

end Sys2Proof.Machine
end

section
/-! Truncated headers (R280), single code lengths (R254) and back-references (R320, R360). -/

namespace Sys2Proof.Machine

/-- With fewer than three bits left, `BFINAL` is written where its bit is there (R280). -/
theorem blockHdr_of_short {s : State} (hs : s.cursorOk) (h : ¬ s.hasBits 3) (final : Bool) (btype : BitVec 2) (k : State → Result) :
    blockHdr final btype s k = .next (raise .unexpectedEndOfStream
      { s.atEnd with bfinal := if s.hasBits 1 then final else s.bfinal }) := by
  rw [blockHdr]
  by_cases h1 : s.hasBits 1
  · have hrest : ¬ (s.skip 1).hasBits 2 := not_hasBits_skip h1 h
    rw [field_of_hasBits h1.1, if_pos h1]
    exact field_of_not_hasBits (s := { s.skip 1 with bfinal := final }) (hasBits_skip (n := 0) h1) hrest _
  · rw [field_of_not_hasBits hs h1, if_neg h1]
    rfl

/-- Settles O20: the four rows share the header's three bits. -/
theorem truncatedHeader : Obligations.TruncatedHeader := by
  intro s final hs h i hi
  obtain rfl | rfl | rfl | rfl : i = .stored final ∨ i = .fixed final ∨ i = .dynamic final ∨ i = .reserved final := by
    simpa using hi
  · exact blockHdr_of_short hs h final 0#2 fun s => .next { s with phase := .storedHdr }
  · exact blockHdr_of_short hs h final 1#2 fun s =>
      buildTrees (tableLengths (setFixedTables s).llLen 288) (tableLengths (setFixedTables s).dLen 30) (setFixedTables s)
  · exact blockHdr_of_short hs h final 2#2 fun s => .next { s with phase := .dynHdr }
  · exact blockHdr_of_short hs h final 3#2 fun s => .next (raise .invalidBlockType s)

/-- Settles O25: one entry is set, and the end of the sequence decides. -/
theorem codeLengthValue : Obligations.CodeLengthValue := by
  intro s v hidx htotal
  have hnext : (s.seqIdx + 1).toNat = s.seqIdx.toNat + 1 := seqIdx_add_toNat (r := 1) hidx
  refine ⟨tableSet s.seq s.seqIdx.toNat v, fun j _ => ?_, fun hmore => ?_, fun hlast => ?_⟩
  · rw [tableGet_tableSet]
    simp only [hidx.trans_le htotal, and_true]
  · exact clFinish_of_incomplete fun heq => hmore (hnext.symm.trans (congrArg BitVec.toNat heq))
  · have heq : s.seqIdx + 1 = s.seqTotal := BitVec.eq_of_toNat_eq (hnext.trans hlast)
    rw [exec_clLen, execClLen, heq, clFinish_of_complete rfl]

/-- A length row is its extra field, then `DISTANCE` with the row's length (R320). -/
theorem exec_length_eq_field {i : Instr} {len w : Nat} (h : lengthOperand i = some (len, w)) (s : State) :
    exec i s = field w s fun s => distance { s with matchLen := BitVec.ofNat 9 len } := by
  obtain ⟨base, e, rfl, hexec⟩ := exec_length h
  exact hexec s

/-- Settles O33: a length row is a field and then `DISTANCE`, which is a symbol of `T_D`. -/
theorem lengthRunsDistance : Obligations.LengthRunsDistance := by
  intro s i t len w hi htree ht hs
  rw [exec_length_eq_field hi]
  have hnone (hbits : s.hasBits w) (hd : Huffman.decode t (remaining (s.skip w)) = none) :=
    huff_of_none ht (s := { s.skip w with matchLen := BitVec.ofNat 9 len }) (hasBits_skip (n := 0) hbits) hd distanceSymbol
  have hrow (hbits : s.hasBits w) : field w s (fun s => distance { s with matchLen := BitVec.ofNat 9 len }) =
      huff t { s.skip w with matchLen := BitVec.ofNat 9 len } distanceSymbol := by
    rw [field_of_hasBits hbits.1]
    simp only [distance, skip_tD, htree]
  refine ⟨fun hbits => field_of_hasBits hbits.1 _, fun hbits => field_of_not_hasBits hs hbits _, fun hbits hd hshort => ?_,
    fun hlong hd => ?_⟩
  · have hrest := not_hasBits_skip hbits hshort
    rw [hrow hbits, hnone hbits hd, if_neg fun hle => hrest ⟨hle, hs.2⟩]
    rfl
  · have hbits : s.hasBits w := ⟨by have := hlong.1; omega, hs.2⟩
    rw [hrow hbits, hnone hbits hd, if_pos (hasBits_skip hlong).1, ← skip_skip]
    rfl

/-- `DISTANCE` with a distance within the output: the code and the extra field are consumed and the copy begins (R360, R403). -/
theorem distance_of_within {s : State} {t : Tree} {sym n dist w : Nat} (htree : s.tD = some t) (ht : t.wf)
    (hbits : s.hasBits (n + w)) (hd : Huffman.decode t (remaining s) = some (sym, n))
    (hdist : distanceOperand (dRow sym (remaining (s.skip n))) = some (dist, w)) (hle : dist ≤ s.outLen.toNat) :
    distance s = .next { s.skip (n + w) with matchDist := BitVec.ofNat 16 dist, copyRem := s.matchLen, phase := .copy } := by
  have hn : s.hasBits n := ⟨by have := hbits.1; omega, hbits.2⟩
  have hs : s.cursorOk := ⟨by have := hbits.1; omega, hbits.2⟩
  obtain ⟨hcopy, -⟩ := distanceStartsTheCopy (s.skip n) _ dist w hdist (hasBits_skip (n := 0) hn)
  rw [distance_eq_runRow htree]
  refine (runRow_of_decode (symbolFormat_dSymbol t) hs ht hd).trans ?_
  rw [← remaining_skip hn, hcopy (hasBits_skip hbits) hle, skip_skip]
  rfl

/-- Settles O32: the fields of the two rows and the distance's code stand one behind the other, and `CopyStart` accepts. -/
theorem backReferenceCompletes : Obligations.BackReferenceCompletes := by
  intro s i d t len w sym n dist wd hi htree ht hbits hd hdrow hdist hle
  subst hdrow
  rw [← skip_skip] at hdist
  rw [Nat.add_assoc] at hbits ⊢
  have hw : s.bitpos.toNat + w ≤ 8 * s.inLen.toNat := by have := hbits.1; omega
  rw [exec_length_eq_field hi, field_of_hasBits hw, ← skip_skip]
  exact distance_of_within (s := { s.skip w with matchLen := BitVec.ofNat 9 len }) htree ht (hasBits_skip hbits) hd hdist hle

end Sys2Proof.Machine
end

section
/-! What a meaning leaves unchanged, where it leaves the cursor, and when it writes the error registers: a calculus over the ways
a meaning is built (R43, R204, R460 and 'State written' of each rule). -/

namespace Sys2Proof.Machine

/-! ## The statement about one meaning -/

/-- From `s` to `t` the view `π` of the state is kept, the cursor stays in the input (R204), and the error registers are written
by an error only (R460), with the end of the input as the place of `UnexpectedEndOfStream` (R452). -/
structure Kept {α : Type} (π : State → α) (s t : State) : Prop where
  view : π t = π s
  inLen : t.inLen = s.inLen
  cursor : s.cursorOk → t.cursorOk
  errors : t.phase ≠ .error → t.errCode = s.errCode ∧ t.errBitpos = s.errBitpos ∧ t.errBlock = s.errBlock
  atEnd : s.cursorOk → s.phase ≠ .error → t.phase = .error → t.errCode = 2 → t.errBitpos.toNat = 8 * s.inLen.toNat

/-- Every next state that the meaning `f` answers is `Kept`. -/
def Keeps {α : Type} (π : State → α) (f : State → Result) : Prop := ∀ s t, f s = .next t → Kept π s t

/-- An update of registers that `π` does not show. -/
structure Unseen {α : Type} (π : State → α) (g : State → State) : Prop where
  view : ∀ s, π (g s) = π s := by intros; rfl
  inLen : ∀ s, (g s).inLen = s.inLen := by intros; rfl
  cursor : ∀ s, s.cursorOk → (g s).cursorOk := by exact fun _ h => h
  phase : ∀ s, s.phase ≠ .error → (g s).phase ≠ .error := by simp
  errCode : ∀ s, (g s).errCode = s.errCode := by intros; rfl
  errBitpos : ∀ s, (g s).errBitpos = s.errBitpos := by intros; rfl
  errBlock : ∀ s, (g s).errBlock = s.errBlock := by intros; rfl

namespace Kept
variable {α : Type} {π : State → α} {s t : State}

theorem ofUpdate {g : State → State} (hg : Unseen π g) (h : Kept π (g s) t) : Kept π s t where
  view := h.view.trans (hg.view s)
  inLen := h.inLen.trans (hg.inLen s)
  cursor hs := h.cursor (hg.cursor s hs)
  errors hphase := by
    have herrors := h.errors hphase
    rwa [hg.errCode, hg.errBitpos, hg.errBlock] at herrors
  atEnd hs hphase ht hcode := hg.inLen s ▸ h.atEnd (hg.cursor s hs) (hg.phase s hphase) ht hcode

theorem refl (s : State) : Kept π s s where
  view := rfl
  inLen := rfl
  cursor := id
  errors _ := ⟨rfl, rfl, rfl⟩
  atEnd _ hphase ht := absurd ht hphase

/-- Any other error than the end of the input has another code (R451). -/
theorem ofRaise {e : Err} (he : e ≠ .unexpectedEndOfStream) (hraise : ∀ s, π (raise e s) = π s) (s : State) :
    Kept π s (raise e s) where
  view := hraise s
  inLen := rfl
  cursor := id
  errors hphase := absurd rfl hphase
  atEnd _ _ _ hcode := by
    cases e <;> simp [Err.code] at hcode he

theorem ofAtEnd (hend : ∀ s : State, π s.atEnd = π s) (hraise : ∀ s, π (raise .unexpectedEndOfStream s) = π s) (s : State) :
    Kept π s (raise .unexpectedEndOfStream s.atEnd) where
  view := (hraise _).trans (hend s)
  inLen := rfl
  cursor hs := ⟨(atEnd_bitpos_toNat hs.2).le, hs.2⟩
  errors hphase := absurd rfl hphase
  atEnd hs _ _ _ := atEnd_bitpos_toNat hs.2

theorem ofSkip {n : Nat} (hskip : ∀ s : State, π (s.skip n) = π s) (hn : s.bitpos.toNat + n ≤ 8 * s.inLen.toNat)
    (h : Kept π (s.skip n) t) : Kept π s t where
  view := h.view.trans (hskip s)
  inLen := h.inLen
  cursor hs := h.cursor (hasBits_skip (n := 0) ⟨hn, hs.2⟩)
  errors := h.errors
  atEnd hs := h.atEnd (hasBits_skip (n := 0) ⟨hn, hs.2⟩)

end Kept

/-! ## One rule per way a meaning is built -/

namespace Keeps
variable {α : Type} {π : State → α}

theorem map {β : Type} {f : State → Result} (φ : α → β) (h : Keeps π f) : Keeps (φ ∘ π) f := fun s t ht =>
  { h s t ht with view := congrArg φ (h s t ht).view }

theorem ofNext {g : State → State} (hg : Unseen π g) : Keeps π fun s => .next (g s) := by
  rintro s - ⟨⟩
  exact .ofUpdate hg (.refl (g s))

theorem ofRaise (e : Err) (he : e ≠ .unexpectedEndOfStream := by decide) (hraise : ∀ s, π (raise e s) = π s := by intros; rfl) :
    Keeps π fun s => .next (raise e s) := by
  rintro s - ⟨⟩
  exact .ofRaise he hraise s

theorem ofFault (r : Fault) : Keeps π fun _ => .fault r := by
  rintro s t ⟨⟩

theorem ofUpdate {f : State → Result} {g : State → State} (hg : Unseen π g) (hf : Keeps π f) : Keeps π fun s => f (g s) :=
  fun s t ht => .ofUpdate hg (hf (g s) t ht)

theorem ofIte {p : State → Prop} [∀ s, Decidable (p s)] {f g : State → Result} (hf : Keeps π f) (hg : Keeps π g) :
    Keeps π fun s => if p s then f s else g s := by
  intro s t ht
  by_cases h : p s
  · exact hf s t ((if_pos h).symm.trans ht)
  · exact hg s t ((if_neg h).symm.trans ht)

theorem ofField {n : Nat} {k : State → Result} (hk : Keeps π k)
    (hskip : ∀ (n : Nat) (s : State), π (s.skip n) = π s := by intros; rfl)
    (hend : ∀ s : State, π s.atEnd = π s := by intros; rfl)
    (hraise : ∀ s, π (raise .unexpectedEndOfStream s) = π s := by intros; rfl) : Keeps π fun s => field n s k := by
  intro s t ht
  rcases field_cases ht with ⟨hn, hnext⟩ | ⟨-, rfl⟩
  · exact .ofSkip (hskip n) hn (hk _ t hnext)
  · exact .ofAtEnd hend hraise s

theorem ofAppend {b : State → Byte} {k : State → Result} (hk : Keeps π k)
    (hb : Unseen π fun s => s.appended (b s) := by exact { phase := fun _ h => h })
    (hraise : ∀ s, π (raise .outputOverflow s) = π s := by intros; rfl) : Keeps π fun s => append (b s) s k :=
  ofIte (ofRaise .outputOverflow (hraise := hraise)) (ofUpdate hb hk)

theorem ofBuildThen {ls : State → List Nat} {g : State → State} {k : Tree → State → Result} (hk : ∀ tree, Keeps π (k tree))
    (hg : Unseen π g := by exact {}) (hraise : ∀ s, π (raise .invalidHuffmanTree s) = π s := by intros; rfl) :
    Keeps π fun s => buildThen (ls s) (g s) fun tree => k tree s := by
  intro s t ht
  rcases buildThen_cases ht with ⟨tree, -, hnext⟩ | ⟨-, rfl⟩
  · exact hk tree s t hnext
  · exact .ofUpdate hg (.ofRaise (by decide) hraise (g s))

theorem ofHuff {tree : Tree} {k : Nat → State → Result} (hk : ∀ sym, Keeps π (k sym))
    (hskip : ∀ (n : Nat) (s : State), π (s.skip n) = π s := by intros; rfl)
    (hend : ∀ s : State, π s.atEnd = π s := by intros; rfl)
    (hraise : ∀ e s, π (raise e s) = π s := by intros; rfl) : Keeps π fun s => huff tree s k := by
  intro s t ht
  rcases huff_cases ht with ⟨sym, n, -, hfield⟩ | ⟨-, hfield⟩
  · exact ofField (hk sym) hskip hend (hraise _) s t hfield
  · exact ofField (ofRaise .invalidHuffmanCode (hraise := hraise _)) hskip hend (hraise _) s t hfield

end Keeps

end Sys2Proof.Machine
end

section
/-! 'State written' of each element's rule (43_tree_descriptor.md – 46_output_window.md), and that no element writes more. -/

namespace Sys2Proof

open Machine

/-- The elements that end behind their code: they read no field. -/
def Instr.readsNothing : Instr → Bool
  | .clLen _ | .lit _ | .eob | .llInvalid286 | .llInvalid287 | .dInvalid30 | .dInvalid31 => true
  | _ => false

/-- The elements that append to the output (R401). -/
def Instr.appends : Instr → Bool
  | .storedByte _ | .lit _ => true
  | _ => false

/-- The elements that can end a block (R290). -/
def Instr.endsBlock : Instr → Bool
  | .storedHdr _ _ | .storedByte _ | .eob => true
  | _ => false

/-- The elements that write `STORED_REM` (R285, R286). -/
def Instr.countsStored : Instr → Bool
  | .storedHdr _ _ | .storedByte _ => true
  | _ => false

/-- The elements that can build the trees of a block (R282, R260). -/
def Instr.buildsTrees : Instr → Bool
  | .fixed _ | .clLen _ | .clRep16 _ | .clZero17 _ | .clZero18 _ => true
  | _ => false

/-- The rows that run `DISTANCE` or a distance row (R320, R360). -/
def Instr.startsCopy (i : Instr) : Bool := (lengthOperand i).isSome || (distanceOperand i).isSome

/-- The state with every register that the rule of `i` may write put aside: the rest is what `i` leaves unchanged. `PHASE` and the
error registers are put aside for every element. -/
def Instr.frame (i : Instr) (s : State) : State :=
  { s with
    phase := .idle
    errCode := 0
    errBitpos := 0
    errBlock := 0
    bitpos := bif i.readsNothing then s.bitpos else 0
    bfinal := bif i.kind == .blockHdr then false else s.bfinal
    btype := bif i.kind == .blockHdr then 0 else s.btype
    blockIdx := bif i.endsBlock then 0 else s.blockIdx
    llLen := bif i.buildsTrees then tableOf 4 288 fun _ => 0 else s.llLen
    dLen := bif i.buildsTrees then tableOf 4 32 fun _ => 0 else s.dLen
    tLL := bif i.buildsTrees then none else s.tLL
    tD := bif i.buildsTrees then none else s.tD
    clLen := bif i.kind == .dynHdr then tableOf 3 19 fun _ => 0 else s.clLen
    tCL := bif i.kind == .dynHdr then none else s.tCL
    hlit := bif i.kind == .dynHdr then 0 else s.hlit
    hdist := bif i.kind == .dynHdr then 0 else s.hdist
    hclen := bif i.kind == .dynHdr then 0 else s.hclen
    seqTotal := bif i.kind == .dynHdr then 0 else s.seqTotal
    seq := bif i.kind == .clSymbol then tableOf 4 320 fun _ => 0 else s.seq
    seqIdx := bif i.kind == .clSymbol || i.kind == .dynHdr then 0 else s.seqIdx
    storedLen := bif i.kind == .storedHdr then 0 else s.storedLen
    storedNlen := bif i.kind == .storedHdr then 0 else s.storedNlen
    storedRem := bif i.countsStored then 0 else s.storedRem
    matchLen := bif (lengthOperand i).isSome then 0 else s.matchLen
    matchDist := bif i.startsCopy then 0 else s.matchDist
    copyRem := bif i.startsCopy then 0 else s.copyRem
    outMem := bif i.appends then [] else s.outMem
    outLen := bif i.appends then 0 else s.outLen }

namespace Machine

open Keeps

/-! ## What the frame does not show -/

section
variable {i : Instr}

theorem frame_raise (e : Err) (s : State) : i.frame (raise e s) = i.frame s := rfl

theorem frame_skip (h : i.readsNothing = false) (n : Nat) (s : State) : i.frame (s.skip n) = i.frame s := by
  simp [Instr.frame, h]

theorem frame_atEnd (h : i.readsNothing = false) (s : State) : i.frame s.atEnd = i.frame s := by
  simp [Instr.frame, h]

theorem keeps_ofField (h : i.readsNothing = false) {n : Nat} {k : State → Result} (hk : Keeps i.frame k) :
    Keeps i.frame fun s => field n s k :=
  ofField hk (frame_skip h) (frame_atEnd h)

end

/-! ## Headers and stored blocks -/

theorem blockHdr_keeps {i : Instr} (hi : i.kind = .blockHdr) (hread : i.readsNothing = false) (final : Bool) (btype : BitVec 2)
    {k : State → Result} (hk : Keeps i.frame k) : Keeps i.frame fun s => blockHdr final btype s k :=
  keeps_ofField hread <| ofUpdate (f := fun s => field 2 s _) (g := fun s => { s with bfinal := final })
    { view := fun s => by simp [Instr.frame, hi] } <|
  keeps_ofField hread <| ofUpdate (g := fun s => { s with btype := btype }) { view := fun s => by simp [Instr.frame, hi] } hk

theorem buildTrees_keeps {i : Instr} (hi : i.buildsTrees = true) {ll d : State → List Nat} {g : State → State}
    (hg : Unseen i.frame g) : Keeps i.frame fun s => buildTrees (ll s) (d s) (g s) := by
  have hview (s : State) (tLL tD : Option Tree) (p : Phase) : i.frame { s with tLL := tLL, tD := tD, phase := p } = i.frame s := by
    simp [Instr.frame, hi]
  refine ofBuildThen (hg := hg) fun tLL =>
    ofBuildThen (g := fun s => { g s with tLL := some tLL }) (hg := ?_) fun tD =>
    ofNext (g := fun s => { g s with tLL := some tLL, tD := some tD, phase := .sym }) ?_
  · exact ⟨fun s => (hview (g s) _ _ _).trans (hg.view s), hg.inLen, hg.cursor, by simp, hg.errCode, hg.errBitpos, hg.errBlock⟩
  · exact ⟨fun s => (hview (g s) _ _ _).trans (hg.view s), hg.inLen, hg.cursor, hg.phase, hg.errCode, hg.errBitpos, hg.errBlock⟩

theorem unseen_setFixedTables (b : Bool) : Unseen (Instr.fixed b).frame setFixedTables where
  view s := by simp [setFixedTables_eq, Instr.frame, Instr.buildsTrees]
  inLen s := by rw [setFixedTables_eq]
  cursor s hs := by rwa [setFixedTables_eq]
  phase s hs := by rwa [setFixedTables_eq]
  errCode s := by rw [setFixedTables_eq]
  errBitpos s := by rw [setFixedTables_eq]
  errBlock s := by rw [setFixedTables_eq]

theorem execFixed_keeps (b : Bool) : Keeps (Instr.fixed b).frame (execFixed b) :=
  blockHdr_keeps rfl rfl b 1#2 <| buildTrees_keeps rfl (unseen_setFixedTables b)

theorem execStoredHdr_keeps (len nlen : BitVec 16) : Keeps (Instr.storedHdr len nlen).frame (execStoredHdr len nlen) :=
  ofUpdate (g := alignByte) { cursor := fun _ hs => alignByte_cursorOk hs } <|
  ofField <| ofUpdate (f := fun s => field 16 s _) (g := fun s => { s with storedLen := len }) {} <|
  ofField <| ofIte (ofUpdate (g := fun s => { s with storedNlen := nlen }) {} (ofRaise .storedBlockLengthMismatch)) <|
  ofIte (ofNext (g := fun s => blockEnd { s with storedNlen := nlen, storedRem := len }) {}) <|
  ofNext (g := fun s => { s with storedNlen := nlen, storedRem := len, phase := .storedData }) {}

theorem execStoredByte_keeps (data : Byte) : Keeps (Instr.storedByte data).frame (execStoredByte data) := by
  refine ofField <| ofAppend (b := fun _ => data) ?_
  have hcount : Keeps (Instr.storedByte data).frame fun s =>
      if s.storedRem - 1 = 0 then .next (blockEnd { s with storedRem := s.storedRem - 1 })
      else .next { s with storedRem := s.storedRem - 1 } :=
    ofIte (ofNext {}) (ofNext {})
  simpa only [apply_ite Host.Outcome.next] using hcount

/-! ## The descriptor -/

section
variable {hlit hdist : BitVec 5} {hclen : BitVec 4} {lens : List (BitVec 3)}

theorem clLengths_keeps (ils : List (Nat × BitVec 3)) {k : State → Result}
    (hk : Keeps (Instr.dynHdr hlit hdist hclen lens).frame k) :
    Keeps (Instr.dynHdr hlit hdist hclen lens).frame fun s => clLengths ils s k := by
  induction ils with
  | nil => exact hk
  | cons il rest ih =>
    exact ofField <| ofUpdate (f := fun s => clLengths rest s k)
      (g := fun s => { s with clLen := tableSet s.clLen il.1 il.2 }) {} ih

theorem execDynHdr_keeps : Keeps (Instr.dynHdr hlit hdist hclen lens).frame (execDynHdr hlit hdist hclen lens) :=
  ofField <| ofUpdate (f := fun s => field 5 s _) (g := fun s => { s with hlit := hlit }) {} <|
  ofField <| ofUpdate (f := fun s => field 4 s _) (g := fun s => { s with hdist := hdist }) {} <|
  ofField <| ofUpdate (f := fun s => clLengths (clOrder.zip lens) s _)
    (g := fun s => { s with hclen := hclen, clLen := tableOf 3 19 fun _ => 0 }) {} <|
  clLengths_keeps _ <| ofBuildThen fun tCL =>
    ofNext (g := fun s => { s with tCL := some tCL, seqTotal := seqTotalOf hlit hdist, seqIdx := 0, phase := .dynSeq }) {}

end

section
variable {i : Instr} (hi : i.kind = .clSymbol)
include hi

theorem clFinish_keeps : Keeps i.frame clFinish := by
  have hbuilds : i.buildsTrees = true := by
    cases i
    case clLen | clRep16 | clZero17 | clZero18 => rfl
    all_goals cases hi
  refine ofIte (buildTrees_keeps hbuilds { view := fun s => ?_ }) (ofNext {})
  simp [Instr.frame, hbuilds]

theorem clRun_keeps (r : Nat) (v : BitVec 4) : Keeps i.frame (clRun r v) :=
  ofIte (ofRaise .invalidTreeDescription) <| ofUpdate (f := clFinish)
    (g := fun s => { s with seq := tableFill s.seq s.seqIdx.toNat v r, seqIdx := s.seqIdx + BitVec.ofNat 9 r })
    { view := fun s => by simp [Instr.frame, hi] } (clFinish_keeps hi)

end

theorem execClLen_keeps (v : BitVec 4) : Keeps (Instr.clLen v).frame (execClLen v) :=
  ofUpdate (f := clFinish) (g := fun s => { s with seq := tableSet s.seq s.seqIdx.toNat v, seqIdx := s.seqIdx + 1 }) {}
    (clFinish_keeps rfl)

theorem execClRep16_keeps (extra : BitVec 2) : Keeps (Instr.clRep16 extra).frame (execClRep16 extra) :=
  ofIte (ofRaise .invalidTreeDescription) <| ofField fun s t ht => clRun_keeps rfl _ _ s t ht

/-! ## Lengths and distances -/

section
variable {i : Instr} (hi : i.startsCopy = true) (hread : i.readsNothing = false)
include hi

theorem copyStart_keeps : Keeps i.frame fun s => .next (copyStart s) := by
  rintro s - ⟨⟩
  rcases copyStart_cases s with ⟨-, h⟩ | ⟨-, -, h⟩
  · exact h ▸ .ofRaise (by decide) (frame_raise _) s
  · refine h ▸ .ofUpdate (g := fun s => { s with copyRem := s.matchLen, phase := .copy }) { view := fun s => ?_ } (.refl _)
    simp [Instr.frame, hi]

include hread

theorem exec_distance_keeps {d : Instr} {dist w : Nat} (h : distanceOperand d = some (dist, w)) : Keeps i.frame (exec d) := by
  rw [funext (exec_distance_eq_field h)]
  exact keeps_ofField hread <| ofUpdate (g := fun s => { s with matchDist := BitVec.ofNat 16 dist })
    { view := fun s => by simp [Instr.frame, hi] } (copyStart_keeps hi)

theorem exec_dRow_keeps (sym : Nat) (ops : Bits) : Keeps i.frame (exec (dRow sym ops)) := by
  by_cases hvalid : sym ≤ 29
  · obtain ⟨-, htable, -⟩ := matchTables
    exact exec_distance_keeps hi hread (htable sym ops hvalid)
  by_cases h30 : sym = 30
  · subst h30
    exact ofRaise .invalidSymbol
  · obtain ⟨k, rfl⟩ : ∃ k, sym = k + 31 := ⟨sym - 31, by omega⟩
    exact ofRaise .invalidSymbol

theorem distance_keeps : Keeps i.frame distance := by
  intro s t ht
  unfold distance at ht
  split at ht
  next tree _ =>
    refine ofHuff (fun sym s t ht => ?_) (frame_skip hread) (frame_atEnd hread) frame_raise s t ht
    rw [distanceSymbol_eq] at ht
    exact exec_dRow_keeps hi hread sym _ s t ht
  next => cases ht

end

theorem exec_length_keeps {i : Instr} {len w : Nat} (h : lengthOperand i = some (len, w)) : Keeps i.frame (exec i) := by
  have hread : i.readsNothing = false := by
    cases i <;> simp [lengthOperand, Instr.readsNothing] at h ⊢
  have hcopy : i.startsCopy = true := by simp [Instr.startsCopy, h]
  rw [funext (exec_length_eq_field h)]
  exact keeps_ofField hread <| ofUpdate (f := distance) (g := fun s => { s with matchLen := BitVec.ofNat 9 len })
    { view := fun s => by simp [Instr.frame, h] } (distance_keeps hcopy hread)

/-- No element writes more than its rule says, moves the cursor out of the input, or writes the error registers but by an error. -/
theorem exec_keeps (i : Instr) : Keeps i.frame (exec i) := by
  rcases hlength : lengthOperand i with _ | ⟨len, w⟩
  case some => exact exec_length_keeps hlength
  rcases hdistance : distanceOperand i with _ | ⟨dist, w⟩
  case some =>
    have hread : i.readsNothing = false := by
      cases i <;> simp [distanceOperand, Instr.readsNothing] at hdistance ⊢
    exact exec_distance_keeps (by simp [Instr.startsCopy, hdistance]) hread hdistance
  cases i
  case stored b => exact blockHdr_keeps rfl rfl _ _ (ofNext (g := fun s => { s with phase := .storedHdr }) {})
  case fixed b => exact execFixed_keeps b
  case dynamic b => exact blockHdr_keeps rfl rfl _ _ (ofNext (g := fun s => { s with phase := .dynHdr }) {})
  case reserved b => exact blockHdr_keeps rfl rfl _ _ (ofRaise .invalidBlockType)
  case storedHdr len nlen => exact execStoredHdr_keeps len nlen
  case storedByte data => exact execStoredByte_keeps data
  case dynHdr => exact execDynHdr_keeps
  case clLen v => exact execClLen_keeps v
  case clRep16 extra => exact execClRep16_keeps extra
  case clZero17 extra => exact ofField (clRun_keeps rfl _ _)
  case clZero18 extra => exact ofField (clRun_keeps rfl _ _)
  case lit b => exact ofAppend (b := fun _ => b) (ofNext (g := fun s => s) {})
  case eob => exact ofNext (g := blockEnd) {}
  case llInvalid286 | llInvalid287 | dInvalid30 | dInvalid31 => exact ofRaise .invalidSymbol
  all_goals simp only [lengthOperand, distanceOperand, reduceCtorEq] at hlength hdistance

end Machine
end Sys2Proof
end

section
/-! What an element has done when it took no error: one inversion per operation and per family of rows (R13). -/

namespace Sys2Proof.Machine

/-! ## Shared operations -/

section
variable {s t : State} (hok : t.phase ≠ .error)
include hok

theorem of_field_ok {n : Nat} {k : State → Result} (h : field n s k = .next t) :
    s.bitpos.toNat + n ≤ 8 * s.inLen.toNat ∧ k (s.skip n) = .next t := by
  rcases field_cases h with hnext | ⟨-, rfl⟩
  · exact hnext
  · exact absurd rfl hok

theorem of_append_ok {b : Byte} {k : State → Result} (h : append b s k = .next t) :
    s.outLen ≠ s.outCap ∧ k (s.appended b) = .next t := by
  rcases append_cases h with ⟨-, rfl⟩ | hnext
  · exact absurd rfl hok
  · exact hnext

theorem of_buildThen_ok {ls : List Nat} {u : State} {k : Tree → Result} (h : buildThen ls u k = .next t) :
    ∃ tree, Huffman.build ls = some tree ∧ k tree = .next t := by
  rcases buildThen_cases h with hnext | ⟨-, rfl⟩
  · exact hnext
  · exact absurd rfl hok

theorem of_buildTrees_ok {ll d : List Nat} (h : buildTrees ll d s = .next t) :
    ∃ tLL tD, Huffman.build ll = some tLL ∧ Huffman.build d = some tD ∧
      t = { s with tLL := some tLL, tD := some tD, phase := .sym } := by
  obtain ⟨tLL, hLL, h⟩ := of_buildThen_ok hok h
  obtain ⟨tD, hD, h⟩ := of_buildThen_ok hok h
  exact ⟨tLL, tD, hLL, hD, (Host.Outcome.next.inj h).symm⟩

theorem of_huff_ok {tree : Tree} {k : Nat → State → Result} (h : huff tree s k = .next t) :
    ∃ sym n, Huffman.decode tree (window s) = some (sym, n) ∧ s.bitpos.toNat + n ≤ 8 * s.inLen.toNat ∧
      k sym (s.skip n) = .next t := by
  rcases huff_cases h with ⟨sym, n, hd, hfield⟩ | ⟨-, hfield⟩
  · exact ⟨sym, n, hd, of_field_ok hok hfield⟩
  · obtain ⟨-, hraise⟩ := of_field_ok hok hfield
    obtain rfl := Host.Outcome.next.inj hraise
    exact absurd rfl hok

theorem of_copyStart_ok (h : copyStart s = t) :
    1 ≤ s.matchDist.toNat ∧ s.matchDist.toNat ≤ s.outLen.toNat ∧ t = { s with copyRem := s.matchLen, phase := .copy } := by
  rcases copyStart_cases s with ⟨-, hraise⟩ | ⟨hpos, hle, hcopy⟩
  · obtain rfl := hraise.symm.trans h
    exact absurd rfl hok
  · exact ⟨hpos, hle, h.symm.trans hcopy⟩

/-- The trees of the descriptor, as `Build` answers them (R259, R260). -/
theorem of_clFinish_ok (h : clFinish s = .next t) :
    (s.seqIdx ≠ s.seqTotal ∧ t = s) ∨
    (s.seqIdx = s.seqTotal ∧ ∃ tLL tD, tLL.wf ∧ tD.wf ∧
      t = { s with llLen := sliceLL s, dLen := sliceD s, tLL := some tLL, tD := some tD, phase := .sym }) := by
  by_cases hidx : s.seqIdx = s.seqTotal
  · rw [clFinish_of_complete hidx] at h
    obtain ⟨tLL, tD, hLL, hD, rfl⟩ := of_buildTrees_ok hok h
    exact .inr ⟨hidx, tLL, tD, Huffman.build_wf hLL (tableLengths_le _ _), Huffman.build_wf hD (tableLengths_le _ _), rfl⟩
  · rw [clFinish_of_incomplete hidx] at h
    exact .inl ⟨hidx, (Host.Outcome.next.inj h).symm⟩

end

/-! ## Rows -/

section
variable {s t : State} (hok : t.phase ≠ .error)
include hok

theorem of_execLit_ok {b : Byte} (h : execLit b s = .next t) : s.outLen ≠ s.outCap ∧ t = s.appended b := by
  obtain ⟨hroom, hnext⟩ := of_append_ok hok h
  exact ⟨hroom, (Host.Outcome.next.inj hnext).symm⟩

theorem of_execStoredByte_ok {b : Byte} (h : execStoredByte b s = .next t) :
    s.bitpos.toNat + 8 ≤ 8 * s.inLen.toNat ∧ s.outLen ≠ s.outCap ∧
      ((s.storedRem = 1 ∧ t = blockEnd { (s.skip 8).appended b with storedRem := 0 }) ∨
        (s.storedRem ≠ 1 ∧ t = { (s.skip 8).appended b with storedRem := s.storedRem - 1 })) := by
  obtain ⟨hbits, h⟩ := of_field_ok hok h
  obtain ⟨hroom, h⟩ := of_append_ok hok h
  refine ⟨hbits, hroom, ?_⟩
  by_cases hrem : s.storedRem = 1
  · refine .inl ⟨hrem, (Host.Outcome.next.inj h).symm.trans ((if_pos ?_).trans ?_)⟩
    · exact sub_eq_zero.mpr hrem
    · simp [State.appended, hrem]
  · exact .inr ⟨hrem, (Host.Outcome.next.inj h).symm.trans (if_neg (mt sub_eq_zero.mp hrem))⟩

/-- A run extends the sequence by at least one entry and not past `SEQ_TOTAL` (R258). -/
theorem of_exec_isRun_ok {i : Instr} {w r : Nat} {v : BitVec 4} (hrun : IsRun s i w r v) (h : exec i s = .next t) :
    0 < r ∧ s.bitpos.toNat + w ≤ 8 * s.inLen.toNat ∧ s.seqIdx.toNat + r ≤ s.seqTotal.toNat ∧
      clFinish { s.skip w with seq := tableFill s.seq s.seqIdx.toNat v r, seqIdx := s.seqIdx + BitVec.ofNat 9 r } = .next t := by
  rw [exec_of_isRun hrun] at h
  obtain ⟨hbits, h⟩ := of_field_ok hok h
  have hr : 0 < r := by
    rcases hrun with ⟨e, -, -, rfl, -⟩ | ⟨e, -, -, rfl, -⟩ | ⟨e, -, -, rfl, -⟩
    all_goals omega
  by_cases hpast : s.seqTotal.toNat < s.seqIdx.toNat + r
  · rw [clRun_of_past (s := s.skip w) hpast] at h
    obtain rfl := Host.Outcome.next.inj h
    exact absurd rfl hok
  · rw [clRun_of_within (s := s.skip w) (Nat.not_lt.mp hpast)] at h
    exact ⟨hr, hbits, Nat.not_lt.mp hpast, h⟩

/-- A code-length symbol extends the sequence, and the end of the sequence decides (R254–R258). -/
theorem of_exec_clSymbol_ok {i : Instr} (hi : i.kind = .clSymbol) (h : exec i s = .next t) :
    ∃ w q idx, (s.cursorOk → s.hasBits w) ∧
      (s.seqIdx.toNat < s.seqTotal.toNat → s.seqIdx.toNat < idx.toNat ∧ idx.toNat ≤ s.seqTotal.toNat) ∧
      clFinish { s.skip w with seq := q, seqIdx := idx } = .next t := by
  have hofRun {w r : Nat} {v : BitVec 4} (hrun : IsRun s i w r v) : ∃ w q idx, (s.cursorOk → s.hasBits w) ∧
      (s.seqIdx.toNat < s.seqTotal.toNat → s.seqIdx.toNat < idx.toNat ∧ idx.toNat ≤ s.seqTotal.toNat) ∧
      clFinish { s.skip w with seq := q, seqIdx := idx } = .next t := by
    obtain ⟨hr, hbits, hle, hnext⟩ := of_exec_isRun_ok hok hrun h
    have hidx := seqIdx_add_toNat hle
    exact ⟨w, _, _, fun hs => ⟨hbits, hs.2⟩, fun _ => ⟨by omega, by omega⟩, hnext⟩
  cases i
  case clLen v =>
    refine ⟨0, tableSet s.seq s.seqIdx.toNat v, s.seqIdx + 1, id, fun hlt => ?_, by rw [skip_zero]; exact h⟩
    have hidx : (s.seqIdx + 1).toNat = s.seqIdx.toNat + 1 := seqIdx_add_toNat (r := 1) hlt
    exact ⟨by omega, by omega⟩
  case clRep16 e =>
    by_cases hidx : s.seqIdx = 0
    · rw [execClRep16_of_first hidx] at h
      obtain rfl := Host.Outcome.next.inj h
      exact absurd rfl hok
    · exact hofRun (.inl ⟨e, rfl, rfl, rfl, hidx, rfl⟩)
  case clZero17 e => exact hofRun (.inr (.inl ⟨e, rfl, rfl, rfl, rfl⟩))
  case clZero18 e => exact hofRun (.inr (.inr ⟨e, rfl, rfl, rfl, rfl⟩))
  all_goals cases hi

end

end Sys2Proof.Machine
end

section
/-! The frames of the elements (R13): registers and memory. -/

namespace Sys2Proof.Machine

/-! ## The families of rows as the statements name them -/

section
variable {i : Instr}

theorem kind_beq_storedHdr_eq_false (h : ∀ l n, i ≠ .storedHdr l n) : (i.kind == .storedHdr) = false := by
  cases i
  case storedHdr l n => exact absurd rfl (h l n)
  all_goals rfl

theorem countsStored_eq_false (h : ∀ l n b, i ≠ .storedHdr l n ∧ i ≠ .storedByte b) : i.countsStored = false := by
  cases i
  case storedHdr l n => exact absurd rfl (h l n 0).1
  case storedByte b => exact absurd rfl (h 0 0 b).2
  all_goals rfl

theorem endsBlock_eq_false (heob : i ≠ .eob) (h : ∀ l n b, i ≠ .storedHdr l n ∧ i ≠ .storedByte b) : i.endsBlock = false := by
  cases i
  case eob => exact absurd rfl heob
  case storedHdr l n => exact absurd rfl (h l n 0).1
  case storedByte b => exact absurd rfl (h 0 0 b).2
  all_goals rfl

theorem buildsTrees_eq_false (hcl : i.kind ≠ .clSymbol) (hfixed : ∀ f, i ≠ .fixed f) : i.buildsTrees = false := by
  cases i
  case fixed b => exact absurd rfl (hfixed b)
  case clLen | clRep16 | clZero17 | clZero18 => exact absurd rfl hcl
  all_goals rfl

theorem readsNothing_eq_true (h : i = .eob ∨ i = .llInvalid286 ∨ i = .llInvalid287 ∨ i = .dInvalid30 ∨ i = .dInvalid31 ∨
    (∃ b, i = .lit b) ∨ ∃ v, i = .clLen v) : i.readsNothing = true := by
  obtain rfl | rfl | rfl | rfl | rfl | ⟨b, rfl⟩ | ⟨v, rfl⟩ := h
  all_goals rfl

theorem appends_eq_false (h : ∀ b, i ≠ .lit b ∧ i ≠ .storedByte b) : i.appends = false := by
  cases i
  case lit b => exact absurd rfl (h b).1
  case storedByte b => exact absurd rfl (h b).2
  all_goals rfl

end

/-! ## Registers -/

/-- `PHASE` stays as it was behind a code-length symbol that does not complete the sequence (R253). -/
theorem exec_clSymbol_phase {i : Instr} {s t : State} (hi : i.kind = .clSymbol) (h : exec i s = .next t) (hok : t.phase ≠ .error)
    (hmore : t.seqIdx ≠ t.seqTotal) : t.phase = s.phase := by
  obtain ⟨w, q, idx, -, -, hfinish⟩ := of_exec_clSymbol_ok hok hi h
  rcases of_clFinish_ok hok hfinish with ⟨-, rfl⟩ | ⟨hidx, tLL, tD, -, -, rfl⟩
  · rfl
  · exact absurd hidx hmore

/-- Settles O38: a register that the rule of an element does not write stands in its frame. -/
theorem registerFrame : Obligations.RegisterFrame := by
  intro i s t h
  obtain ⟨hview, -, -, herrors, -⟩ := exec_keeps i s t h
  simp only [Instr.frame, State.mk.injEq] at hview
  obtain ⟨-, hbitpos, hbfinal, hbtype, hblockIdx, hllLen, hdLen, hclLen, htLL, htD, htCL, hhlit, hhdist, hhclen, hseq, hseqIdx,
    hseqTotal, hstoredLen, hstoredNlen, hstoredRem, hmatchLen, hmatchDist, hcopyRem, -, hinLen, -, houtLen, houtCap,
    hblockStep, -⟩ := hview
  refine ⟨herrors, fun hi => ?_, fun hi => ?_, fun hi => ?_, fun heob hi => ?_, fun hi => ?_, fun hi => ?_, fun hcl hdyn => ?_,
    fun hcl hfixed => ?_, fun hi => ?_, fun hlen hdist => ?_, fun hi => ?_, fun hok hi => ?_, fun hi => ?_, hinLen, houtCap,
    hblockStep⟩
  · rw [beq_eq_false_iff_ne.mpr hi] at hbfinal hbtype
    exact ⟨hbfinal, hbtype⟩
  · rw [kind_beq_storedHdr_eq_false hi] at hstoredLen hstoredNlen
    exact ⟨hstoredLen, hstoredNlen⟩
  · rw [countsStored_eq_false hi] at hstoredRem
    exact hstoredRem
  · rw [endsBlock_eq_false heob hi] at hblockIdx
    exact hblockIdx
  · rw [beq_eq_false_iff_ne.mpr hi] at hhlit hhdist hhclen hclLen htCL hseqTotal
    exact ⟨hhlit, hhdist, hhclen, hclLen, htCL, hseqTotal⟩
  · rw [beq_eq_false_iff_ne.mpr hi] at hseq
    exact hseq
  · rw [beq_eq_false_iff_ne.mpr hcl, beq_eq_false_iff_ne.mpr hdyn] at hseqIdx
    exact hseqIdx
  · rw [buildsTrees_eq_false hcl hfixed] at hllLen hdLen htLL htD
    exact ⟨hllLen, hdLen, htLL, htD⟩
  · rw [hi] at hmatchLen
    exact hmatchLen
  · rw [Instr.startsCopy, hlen, hdist] at hmatchDist hcopyRem
    exact ⟨hmatchDist, hcopyRem⟩
  · rw [readsNothing_eq_true hi] at hbitpos
    exact hbitpos
  · rcases hi with ⟨b, rfl⟩ | ⟨hcl, hmore⟩ | ⟨⟨b, rfl⟩, hrem⟩
    · obtain ⟨-, rfl⟩ := of_execLit_ok hok h
      rfl
    · exact exec_clSymbol_phase hcl h hok hmore
    · obtain ⟨-, -, ⟨hlast, -⟩ | ⟨-, rfl⟩⟩ := of_execStoredByte_ok hok h
      · exact absurd hlast hrem
      · rfl
  · rw [appends_eq_false hi] at houtLen
    exact houtLen

/-! ## Memory -/

/-- From `s` to `t` the byte `b` was stored at `OUT_LEN` and counted, or an error was taken and nothing stored; no other byte of the
output changed (R401, R406). -/
def Stores (b : Byte) (s t : State) : Prop :=
  (∀ a, a ≠ s.outLen.toNat → Memory.read t.outMem a = Memory.read s.outMem a) ∧
    (t.outLen = s.outLen + 1 ∧ Memory.read t.outMem s.outLen.toNat = b ∨
      t.phase = .error ∧ t.outLen = s.outLen ∧ t.outMem = s.outMem)

theorem stores_raise (b : Byte) (e : Err) (s : State) : Stores b s (raise e s) := ⟨fun _ _ => rfl, .inr ⟨rfl, rfl, rfl⟩⟩

theorem append_stores {b : Byte} {s t : State} {k : State → Result} (hs : Memory.wf s.outMem)
    (hk : ∀ u, k u = .next t → t.outLen = u.outLen ∧ t.outMem = u.outMem) (h : append b s k = .next t) : Stores b s t := by
  rcases append_cases h with ⟨-, rfl⟩ | ⟨-, hnext⟩
  · exact stores_raise b _ s
  · obtain ⟨hlen, hmem⟩ := hk (s.appended b) hnext
    refine ⟨fun a ha => ?_, .inl ⟨hlen, ?_⟩⟩
    · rw [hmem]
      exact Memory.read_write_other _ hs _ b a ha
    · rw [hmem]
      exact Memory.read_write_same _ hs _ b

theorem execStoredByte_stores {b : Byte} {s t : State} (hs : Memory.wf s.outMem) (h : execStoredByte b s = .next t) :
    Stores b s t := by
  rcases field_cases h with ⟨-, h⟩ | ⟨-, rfl⟩
  · refine append_stores (s := s.skip 8) hs (fun u hu => ?_) h
    obtain rfl := Host.Outcome.next.inj hu
    split <;> exact ⟨rfl, rfl⟩
  · exact stores_raise b _ s.atEnd

/-- Settles O37: all other elements have the whole memory in their frame. -/
theorem memoryFrame : Obligations.MemoryFrame := by
  intro i s t h hs
  obtain ⟨hview, -⟩ := exec_keeps i s t h
  simp only [Instr.frame, State.mk.injEq] at hview
  obtain ⟨-, -, -, -, -, -, -, -, -, -, -, -, -, -, -, -, -, -, -, -, -, -, -, hinMem, hinLen, houtMem, houtLen, houtCap,
    hblockStep, -, -, -, hqueue, hdata⟩ := hview
  refine ⟨fun a => by rw [hinMem], hinMem, hinLen, houtCap, hblockStep, hqueue, hdata, fun hi => ?_, fun b hi => ?_⟩
  · rw [appends_eq_false hi] at houtLen houtMem
    have hmem : t.outMem = s.outMem := houtMem
    exact ⟨houtLen, hmem, fun a => by rw [hmem]⟩
  · rcases hi with rfl | rfl
    · refine append_stores hs (fun u hu => ?_) h
      obtain rfl := Host.Outcome.next.inj hu
      exact ⟨rfl, rfl⟩
    · exact execStoredByte_stores hs h

end Sys2Proof.Machine
end

section
/-! Every element has a meaning in every state (60_exceptions.md §4): a meaning that decodes with no tree of its own answers a next
state. -/

namespace Sys2Proof.Machine

/-- The meaning `f` answers a next state, from every state. -/
def Runs (f : State → Result) : Prop := ∀ s, ∃ t, f s = .next t

namespace Runs

theorem ofNext (g : State → State) : Runs fun s => .next (g s) := fun s => ⟨g s, rfl⟩

theorem ofUpdate {f : State → Result} (g : State → State) (hf : Runs f) : Runs fun s => f (g s) := fun s => hf (g s)

theorem ofIte {p : State → Prop} [∀ s, Decidable (p s)] {f g : State → Result} (hf : Runs f) (hg : Runs g) :
    Runs fun s => if p s then f s else g s := by
  intro s
  by_cases h : p s
  · simpa only [h, if_true] using hf s
  · simpa only [h, if_false] using hg s

theorem ofField {n : Nat} {k : State → Result} (hk : Runs k) : Runs fun s => field n s k :=
  ofIte (ofUpdate (State.skip n) hk) (ofNext fun s => raise .unexpectedEndOfStream s.atEnd)

theorem ofAppend {b : State → Byte} {k : State → Result} (hk : Runs k) : Runs fun s => append (b s) s k :=
  ofIte (ofNext _) (ofUpdate (fun s => s.appended (b s)) hk)

theorem ofBuildThen {ls : State → List Nat} {g : State → State} {k : Tree → State → Result} (hk : ∀ tree, Runs (k tree)) :
    Runs fun s => buildThen (ls s) (g s) fun tree => k tree s := by
  intro s
  rcases h : Huffman.build (ls s) with _ | tree
  · exact ⟨_, buildThen_none h _ _⟩
  · simpa only [buildThen_some h] using hk tree s

theorem ofHuff {tree : Tree} {k : Nat → State → Result} (hk : ∀ sym, Runs (k sym)) : Runs fun s => huff tree s k := by
  intro s
  rcases h : Huffman.decode tree (window s) with _ | ⟨sym, n⟩
  · simpa only [huff, h] using ofField (ofNext (raise .invalidHuffmanCode)) s
  · simpa only [huff, h] using ofField (hk sym) s

end Runs

open Runs

theorem blockHdr_runs (final : Bool) (btype : BitVec 2) {k : State → Result} (hk : Runs k) :
    Runs fun s => blockHdr final btype s k :=
  ofField <| ofUpdate (f := fun s => field 2 s _) (fun s => { s with bfinal := final }) <|
  ofField <| ofUpdate (fun s => { s with btype := btype }) hk

theorem buildTrees_runs {ll d : State → List Nat} {g : State → State} : Runs fun s => buildTrees (ll s) (d s) (g s) :=
  ofBuildThen fun tLL => ofBuildThen (g := fun s => { g s with tLL := some tLL }) fun _ => ofNext _

theorem execFixed_runs (final : Bool) : Runs (execFixed final) := blockHdr_runs final 1#2 buildTrees_runs

theorem execStoredHdr_runs (len nlen : BitVec 16) : Runs (execStoredHdr len nlen) :=
  ofUpdate (f := fun s => field 16 s _) alignByte <|
  ofField <| ofUpdate (f := fun s => field 16 s _) (fun s => { s with storedLen := len }) <|
  ofField <| ofIte (ofNext _) (ofIte (ofNext _) (ofNext _))

theorem clLengths_runs (ils : List (Nat × BitVec 3)) {k : State → Result} (hk : Runs k) : Runs fun s => clLengths ils s k := by
  induction ils with
  | nil => exact hk
  | cons il rest ih =>
    exact ofField <| ofUpdate (f := fun s => clLengths rest s k) (fun s => { s with clLen := tableSet s.clLen il.1 il.2 }) ih

theorem execDynHdr_runs (hlit hdist : BitVec 5) (hclen : BitVec 4) (lens : List (BitVec 3)) :
    Runs (execDynHdr hlit hdist hclen lens) :=
  ofField <| ofUpdate (f := fun s => field 5 s _) (fun s => { s with hlit := hlit }) <|
  ofField <| ofUpdate (f := fun s => field 4 s _) (fun s => { s with hdist := hdist }) <|
  ofField <| ofUpdate (f := fun s => clLengths (clOrder.zip lens) s _)
    (fun s => { s with hclen := hclen, clLen := tableOf 3 19 fun _ => 0 }) <|
  clLengths_runs _ <| ofBuildThen fun _ => ofNext _

theorem clFinish_runs : Runs clFinish := ofIte buildTrees_runs (ofNext _)

theorem clRun_runs (r : Nat) (v : BitVec 4) : Runs (clRun r v) :=
  ofIte (ofNext _) (ofUpdate (f := clFinish) _ clFinish_runs)

theorem exec_distance_runs {d : Instr} {dist w : Nat} (h : distanceOperand d = some (dist, w)) : Runs (exec d) := by
  rw [funext (exec_distance_eq_field h)]
  exact ofField (ofNext _)

theorem exec_dRow_runs (sym : Nat) (ops : Bits) : Runs (exec (dRow sym ops)) := by
  by_cases hvalid : sym ≤ 29
  · obtain ⟨-, htable, -⟩ := matchTables
    exact exec_distance_runs (htable sym ops hvalid)
  by_cases h30 : sym = 30
  · subst h30
    exact ofNext _
  · obtain ⟨k, rfl⟩ : ∃ k, sym = k + 31 := ⟨sym - 31, by omega⟩
    exact ofNext _

/-- A built `T_D` lets `DISTANCE` run. -/
theorem distance_runs {s : State} {tree : Tree} (h : s.tD = some tree) : ∃ t, distance s = .next t := by
  rw [distance_eq_runRow h]
  exact ofHuff (fun sym s => exec_dRow_runs sym (window s) s) s

/-- A length row runs, or it met no distance tree (log 9). -/
theorem exec_length_runs {i : Instr} {len w : Nat} (h : lengthOperand i = some (len, w)) (s : State) :
    (∃ t, exec i s = .next t) ∨ (exec i s = .fault .treeAbsent ∧ s.tD = none) := by
  rw [exec_length_eq_field h]
  by_cases hbits : s.bitpos.toNat + w ≤ 8 * s.inLen.toNat
  · rw [field_of_hasBits hbits]
    rcases htree : s.tD with _ | tree
    · exact .inr ⟨by simp only [distance, skip_tD, htree], rfl⟩
    · exact .inl (distance_runs (s := { s.skip w with matchLen := BitVec.ofNat 9 len }) htree)
  · exact .inl ⟨_, field_of_short (Nat.not_le.mp hbits) _⟩

theorem exec_runs {i : Instr} (h : lengthOperand i = none) : Runs (exec i) := by
  rcases hdistance : distanceOperand i with _ | ⟨dist, w⟩
  case some => exact exec_distance_runs hdistance
  cases i
  case stored => exact blockHdr_runs _ _ (ofNext fun s => { s with phase := .storedHdr })
  case fixed b => exact execFixed_runs b
  case dynamic => exact blockHdr_runs _ _ (ofNext fun s => { s with phase := .dynHdr })
  case reserved => exact blockHdr_runs _ _ (ofNext (raise .invalidBlockType))
  case storedHdr => exact execStoredHdr_runs _ _
  case storedByte b => exact ofField (ofAppend (b := fun _ => b) (ofNext _))
  case dynHdr => exact execDynHdr_runs _ _ _ _
  case clLen => exact ofUpdate (f := clFinish) _ clFinish_runs
  case clRep16 => exact ofIte (ofNext _) (ofField fun s => clRun_runs _ _ s)
  case clZero17 | clZero18 => exact ofField (clRun_runs _ _)
  case lit b => exact ofAppend (b := fun _ => b) (ofNext _)
  case eob | llInvalid286 | llInvalid287 | dInvalid30 | dInvalid31 => exact ofNext _
  all_goals simp only [lengthOperand, distanceOperand, reduceCtorEq] at h hdistance

/-- Settles O55: only a length row decodes with a tree register, `T_D`. -/
theorem everyElementRuns : Obligations.EveryElementRuns := by
  intro i s
  rcases h : lengthOperand i with _ | ⟨len, w⟩
  · exact .inl (exec_runs h s)
  · rcases exec_length_runs h s with hruns | ⟨hfault, htree⟩
    · exact .inl hruns
    · exact .inr ⟨hfault, rfl, htree⟩

end Sys2Proof.Machine
end

section
/-! One step of the machine by cases: what the engine keeps for the host, and what each event of the host does (R15, R420–R425). -/

namespace Sys2Proof.Machine

/-! ## The engine's step -/

/-- What belongs to the host: the input, the bounds of both buffers, `BLOCK_STEP` and the model's own fields. -/
def State.hostView (s : State) : List Host.Cell × Word × Word × Bool × List HostEvent × Word :=
  (s.inMem, s.inLen, s.outCap, s.blockStep, s.hostQueue, s.hostData)

theorem exec_keeps_hostView (i : Instr) : Keeps State.hostView (exec i) := (exec_keeps i).map State.hostView

theorem huff_keeps_hostView (tree : Tree) (row : Nat → Bits → Instr) :
    Keeps State.hostView fun s => huff tree s fun sym s => exec (row sym (window s)) s :=
  Keeps.ofHuff fun _ s t ht => exec_keeps_hostView _ s t ht

/-- A copy step reads no bit of the input (R402). -/
theorem copyStep_keeps : Keeps (fun s => (s.hostView, s.bitpos)) copyStep := by
  refine Keeps.ofIte (Keeps.ofFault .copySourceAbsent) (Keeps.ofAppend (Keeps.ofNext
    (g := fun s => { s with copyRem := s.copyRem - 1, phase := if s.copyRem = 1 then .sym else s.phase }) ?_))
  refine { phase := fun s hs => ?_ }
  show (if s.copyRem = 1 then Phase.sym else s.phase) ≠ .error
  split
  · exact nofun
  · exact hs

/-- The engine leaves the host's registers and the input alone, and the cursor in the input (R204, R425). -/
theorem engineStep_keeps_hostView : Keeps State.hostView engineStep := by
  intro s t ht
  have hsymbol (tree : Option Tree) (row : Nat → Bits → Instr) (ht : runSymbol tree row s = .next t) :
      Kept State.hostView s t := by
    rcases tree with _ | tree
    · cases ht
    · exact huff_keeps_hostView tree row s t ht
  rcases hphase : s.phase
  all_goals simp only [engineStep, hphase] at ht
  case hdr | storedHdr | storedData | dynHdr => exact exec_keeps_hostView _ s t ht
  case dynSeq | sym => exact hsymbol _ _ ht
  case copy => exact (copyStep_keeps.map Prod.fst) s t ht
  case idle | paused | done | error =>
    obtain rfl := Host.Outcome.next.inj ht
    exact .refl s

/-! ## The host's step -/

/-- What an event of the host does, where it is not refused. -/
inductive HostStep (s : State) : HostEvent → State → Prop where
  /-- The platform's reset (R490). -/
  | reset : HostStep s .reset (platformReset s)
  /-- `START` outside `BUSY` (R421). -/
  | start (v : Word) (h0 : v.getLsbD 0 = true) (hbusy : s.phase.status ≠ .busy) : HostStep s (.writeReg 0 4 v)
      { s with blockStep := v.getLsbD 8, bitpos := 0, outLen := 0, blockIdx := 0, bfinal := false, errCode := 0, errBitpos := 0,
               errBlock := 0, phase := .hdr }
  /-- `RESUME` in `PAUSED` (R422). -/
  | resume (v : Word) (hpaused : s.phase = .paused) : HostStep s (.writeReg 0 4 v)
      { s with blockStep := v.getLsbD 8, phase := .hdr }
  /-- Any other write of `CTRL` (R424). -/
  | ctrl (v : Word) : HostStep s (.writeReg 0 4 v) { s with blockStep := v.getLsbD 8 }
  /-- A write of `IN_LEN` outside a session (R61). -/
  | inLen (v : Word) (hs : s.phase.inSession = false) (hv : v.toNat ≤ Config.inLenMax) :
      HostStep s (.writeReg 0x14 4 v) { s with inLen := v }
  /-- A write of `OUT_CAP` outside a session (R62). -/
  | outCap (v : Word) (hs : s.phase.inSession = false) : HostStep s (.writeReg 0x18 4 v) { s with outCap := v }
  /-- A byte for the input (R437). -/
  | fillIn (a : Word) (b : Byte) (hs : s.phase.inSession = false) :
      HostStep s (.fillIn a b) { s with inMem := Memory.write a.toNat b s.inMem }
  /-- A byte for the output (R408). -/
  | writeOut (a : Word) (b : Byte) (hs : s.phase.inSession = false) :
      HostStep s (.writeOut a b) { s with outMem := Memory.write a.toNat b s.outMem }
  /-- A read, or a write that is ignored: at most the model's own answer changes (log 3). -/
  | answer (e : HostEvent) (d : Word) : HostStep s e { s with hostData := d }

theorem writeCtrl_hostStep (v : Word) (s : State) : HostStep s (.writeReg 0 4 v) (writeCtrl v s) := by
  by_cases hbusy : s.phase.status = .busy
  · rw [writeCtrl_of_busy hbusy]
    exact .ctrl v
  cases h0 : v.getLsbD 0
  case true =>
    rw [writeCtrl_start h0, start_of_not_busy (s := { s with blockStep := v.getLsbD 8 }) hbusy]
    exact .start v h0 hbusy
  by_cases hpaused : s.phase = .paused
  · cases h1 : v.getLsbD 1
    · rw [writeCtrl_neither h0 h1]
      exact .ctrl v
    · rw [writeCtrl_resume h0 h1, resume_of_paused (s := { s with blockStep := v.getLsbD 8 }) hpaused]
      exact .resume v hpaused
  · rw [writeCtrl_of_not_paused h0 hpaused]
    exact .ctrl v

theorem writeRegister_hostStep {off : Nat} {v : Word} {s t : State} (h : writeRegister off v s = .next t) :
    HostStep s (.writeReg off 4 v) t := by
  unfold writeRegister at h
  split at h
  · obtain rfl := Host.Outcome.next.inj h
    exact writeCtrl_hostStep v s
  · unfold writeInLen at h
    split_ifs at h with hsession hlarge
    · obtain rfl := Host.Outcome.next.inj h
      exact .answer _ _
    · obtain rfl := Host.Outcome.next.inj h
      exact .inLen v (Bool.eq_false_iff.mpr hsession) (Nat.not_lt.mp hlarge)
  · obtain rfl := Host.Outcome.next.inj h
    by_cases hsession : s.phase.inSession = true
    · rw [writeOutCap_of_inSession hsession]
      exact .answer _ _
    · rw [writeOutCap_of_not_inSession (Bool.eq_false_iff.mpr hsession)]
      exact .outCap v (Bool.eq_false_iff.mpr hsession)
  · obtain rfl := Host.Outcome.next.inj h
    exact .answer _ _

/-- Each event that is not refused does one of these things (R15). -/
theorem hostStep_cases {e : HostEvent} {s t : State} (h : hostStep e s = .next t) : HostStep s e t := by
  cases e
  case writeReg off bytes v =>
    rw [hostStep] at h
    split at h
    next haccess =>
      obtain ⟨rfl, -, -⟩ : bytes = 4 ∧ off % 4 = 0 ∧ off < 64 := by simpa [registerAccess] using haccess
      exact writeRegister_hostStep h
    next => cases h
  case fillIn a b =>
    rw [hostStep] at h
    split_ifs at h with hsession
    obtain rfl := Host.Outcome.next.inj h
    exact .fillIn a b (Bool.eq_false_iff.mpr hsession)
  case writeOut a b =>
    rw [hostStep] at h
    split_ifs at h with hsession
    obtain rfl := Host.Outcome.next.inj h
    exact .writeOut a b (Bool.eq_false_iff.mpr hsession)
  case readReg =>
    rw [hostStep] at h
    split_ifs at h
    obtain rfl := Host.Outcome.next.inj h
    exact .answer _ _
  case quiet | readOut =>
    obtain rfl := Host.Outcome.next.inj h
    exact .answer _ _
  case reset =>
    obtain rfl := Host.Outcome.next.inj h
    exact .reset

/-- A step is the engine's, in the same state but for the queue, or that of an event (R15). -/
theorem step_eq (s : State) :
    (∃ q, step s = engineStep { s with hostQueue := q }) ∨
      ∃ e q, s.hostQueue = e :: q ∧ step s = hostStep e { s with hostQueue := q } := by
  rcases hq : s.hostQueue with _ | ⟨e, q⟩
  · exact .inl ⟨s.hostQueue, step_of_empty hq⟩
  · by_cases he : e = .quiet
    · subst he
      exact .inl ⟨q, step_of_quiet hq⟩
    · exact .inr ⟨e, q, rfl, step_of_event hq he⟩

theorem step_cases {s t : State} (h : step s = .next t) :
    (∃ q, engineStep { s with hostQueue := q } = .next t) ∨
      ∃ e q, s.hostQueue = e :: q ∧ HostStep { s with hostQueue := q } e t := by
  rcases step_eq s with ⟨q, hstep⟩ | ⟨e, q, hq, hstep⟩
  · exact .inl ⟨q, hstep.symm.trans h⟩
  · exact .inr ⟨e, q, hq, hostStep_cases (hstep.symm.trans h)⟩

/-! ## The registers of a session (R425) -/

/-- Settles O50: in a session the writes of both registers are ignored, and neither the engine nor another event writes them. -/
theorem sessionRegisters : Obligations.SessionRegisters := by
  refine ⟨fun s q v hsession hq => ?_, fun s t hsession ht hreset => ?_, fun s q v hsession hq => ?_,
    fun s q v hsession hq hv => ?_, fun s q v hq => ⟨_, step_of_writeCtrl hq, writeCtrl_blockStep⟩⟩
  · rcases hq with hq | hq
    · rw [step_of_writeReg (by decide) (by decide) hq]
      exact writeInLen_of_inSession (s := { s with hostQueue := q }) hsession
    · rw [step_of_writeReg (by decide) (by decide) hq]
      exact congrArg Host.Outcome.next (writeOutCap_of_inSession (s := { s with hostQueue := q }) hsession)
  · rcases step_cases ht with ⟨q, hengine⟩ | ⟨e, q, hq, hhost⟩
    · have hview := (engineStep_keeps_hostView _ t hengine).view
      simp only [State.hostView, Prod.mk.injEq] at hview
      obtain ⟨hinMem, hinLen, houtCap, -⟩ := hview
      exact ⟨hinLen, houtCap, hinMem⟩
    · cases hhost
      case reset => exact absurd hq (hreset q)
      case start | resume | ctrl | answer => exact ⟨rfl, rfl, rfl⟩
      case inLen hs _ | outCap hs | fillIn hs | writeOut hs => exact absurd hsession (Bool.eq_false_iff.mp hs)
  · rw [step_of_writeReg (by decide) (by decide) hq]
    exact congrArg Host.Outcome.next (writeOutCap_of_not_inSession (s := { s with hostQueue := q }) hsession)
  · rw [step_of_writeReg (by decide) (by decide) hq]
    exact writeInLen_of_fitting (s := { s with hostQueue := q }) hsession hv

end Sys2Proof.Machine
end

section
/-! A whole copy in closed form (R404), by induction on the bytes left. -/

namespace Sys2Proof.Machine

/-- A run goes on from the next state of its first step (R15). -/
theorem run_succ {s t : core.State} (n : Nat) (h : core.step s = .next t) :
    Host.Core.run core (n + 1) s = Host.Core.run core n t := by
  rw [Host.Core.run, h]

/-- Behind one byte of a copy the source of byte `j` is that of byte `j + 1` before it, or the byte just copied (R404). -/
theorem succ_mod_cases {d : Nat} (hd : 1 ≤ d) (j : Nat) :
    (j % d + 1 = d ∧ (j + 1) % d = 0) ∨ (j % d + 1 < d ∧ (j + 1) % d = j % d + 1) := by
  have hlt : j % d < d := Nat.mod_lt j hd
  rw [← Nat.mod_add_mod]
  by_cases hlast : j % d + 1 = d
  · exact .inl ⟨hlast, by rw [hlast, Nat.mod_self]⟩
  · exact .inr ⟨by omega, Nat.mod_eq_of_lt (by omega)⟩

/-- One byte of a copy that has room, and where it leads (R402). -/
theorem step_of_copy {s : State} (hphase : s.phase = .copy) (hq : s.hostQueue = []) (hsrc : s.matchDist.toNat ≤ s.outLen.toNat)
    (hroom : s.outLen ≠ s.outCap) :
    ∃ t, step s = .next t ∧ t = { s.appended (Memory.read s.outMem (s.outLen.toNat - s.matchDist.toNat)) with
      copyRem := s.copyRem - 1, phase := if s.copyRem = 1 then .sym else .copy } := by
  obtain ⟨hmore, hlast, -⟩ := copyStep_holds s hphase hsrc
  rw [step_of_empty hq]
  by_cases hrem : s.copyRem = 1
  · refine ⟨_, hlast hroom hrem, ?_⟩
    simp only [State.appended, hrem, if_true]
    rfl
  · refine ⟨_, hmore hroom hrem, ?_⟩
    simp only [State.appended, hrem, if_false, hphase]

/-- Settles O36: the byte `j + 1` of the copy is byte `j` of the copy that is left behind the first byte. -/
theorem overlappingCopy : Obligations.OverlappingCopy := by
  intro s p d n
  induction n generalizing s p with
  | zero =>
    intro _ _ _ _ _ _ _ _ hn
    exact absurd hn (by decide)
  | succ n ih =>
    intro hphase hq hmem hp hd hrem hpos hle _ hcap
    have hroom : s.outLen ≠ s.outCap := fun h => by rw [h] at hp; omega
    have hlen : (s.outLen + 1).toNat = p + 1 := by
      rw [← hp]
      exact (outLen_add_one (by omega) hroom).1
    obtain ⟨u, hstep, hu⟩ := step_of_copy hphase hq (by omega) hroom
    have hread (x : Nat) : Memory.read u.outMem x = if x = p then Memory.read s.outMem (p - d) else Memory.read s.outMem x := by
      rw [hu, ← hp, ← hd]
      exact Memory.read_write _ hmem _ _ _
    by_cases hlast : n = 0
    · subst hlast
      have hone : s.copyRem = 1 := BitVec.eq_of_toNat_eq hrem
      refine ⟨u, (run_succ 0 hstep).trans rfl, ?_, ?_, ?_, fun k hk => ?_, fun a ha => ?_⟩
      · rw [hu, if_pos hone]
      · rw [hu]
        exact hlen
      · rw [hu]
        rfl
      · obtain rfl : k = 0 := by omega
        rw [hread, if_pos (by omega), Nat.zero_mod, Nat.add_zero]
      · rw [hread, if_neg (by omega)]
    · have hmore : s.copyRem ≠ 1 := fun h => hlast (by rw [h] at hrem; exact (Nat.succ.inj hrem).symm)
      have hrem' : (s.copyRem - 1).toNat = n := by
        have hlt := s.copyRem.isLt
        bv_omega
      obtain ⟨t, hrun, hsym, hout, hpc, hcopied, hframe⟩ := ih u (p + 1) (by rw [hu, if_neg hmore]) (by rw [hu]; exact hq)
        (by rw [hu]; exact Memory.wf_write _ hmem _ _) (by rw [hu]; exact hlen) (by rw [hu]; exact hd)
        (by rw [hu]; exact hrem') hpos (by omega) (by omega) (by rw [hu]; show _ ≤ s.outCap.toNat; omega)
      refine ⟨t, (run_succ n hstep).trans hrun, hsym, by omega, hpc.trans (by rw [hu]; rfl), fun k hk => ?_, fun a ha => ?_⟩
      · rcases k with _ | j
        · rw [hframe _ (by omega), hread, if_pos (by omega), Nat.zero_mod, Nat.add_zero]
        · rw [show p + (j + 1) = p + 1 + j by omega]
          refine (hcopied j (by omega)).trans ?_
          rw [hread]
          rcases succ_mod_cases hpos j with ⟨hwrap, hmod⟩ | ⟨hwithin, hmod⟩
          · rw [if_pos (by omega), hmod, Nat.add_zero]
          · rw [if_neg (by omega), hmod]
            congr 1
            omega
      · rw [hframe a (by omega), hread, if_neg (by omega)]

end Sys2Proof.Machine
end

section
/-! How the cursor moves, and that it stays in the input (R43, R44, R204). -/

namespace Sys2Proof.Machine

/-- What `START` establishes (R421). -/
theorem cursorOk_of_start {s : State} (h : 8 * s.inLen.toNat < 2 ^ 32) (hpos : s.bitpos = 0) : s.cursorOk :=
  ⟨by rw [hpos]; exact Nat.zero_le _, h⟩

theorem reset_cursorOk (s : State) : (platformReset s).cursorOk :=
  cursorOk_of_start (s := platformReset s) (by show 8 * (0 : Word).toNat < 2 ^ 32; decide) rfl

/-- An `IN_LEN` that the engine accepts lets the cursor's register hold its end (R7). -/
theorem bits_lt_of_le_inLenMax {n : Nat} (h : n ≤ Config.inLenMax) : 8 * n < 2 ^ 32 := by
  have hmax : Config.inLenMax < 536870912 := Config.inLenMaxParam.isLt
  omega

/-- The engine never moves the cursor back (R43). -/
theorem engineStep_bitpos_le {s t : State} (hs : s.cursorOk) (h : engineStep s = .next t) : s.bitpos.toNat ≤ t.bitpos.toNat := by
  obtain ⟨⟨-, -, hreach⟩, -⟩ := engineStep_noLookAhead s hs t h
  have hbound := hs.1
  omega

theorem engineStep_inLen {s t : State} (h : engineStep s = .next t) : t.inLen = s.inLen :=
  (engineStep_keeps_hostView s t h).inLen

/-- A copy step leaves the cursor (R402). -/
theorem engineStep_bitpos_of_copy {s t : State} (hphase : s.phase = .copy) (h : engineStep s = .next t) : t.bitpos = s.bitpos := by
  rw [engineStep_of_copy hphase] at h
  exact ((copyStep_keeps.map Prod.snd) s t h).view

/-- Of the host's events only reset and `START` write the cursor (R43). -/
theorem hostStep_bitpos {s t : State} {e : HostEvent} (h : HostStep s e t) (hmoved : t.bitpos ≠ s.bitpos) :
    e = .reset ∨ ∃ v, e = .writeReg 0 4 v ∧ v.getLsbD 0 = true ∧ s.phase.status ≠ .busy ∧ t.bitpos = 0 := by
  cases h
  case reset => exact .inl rfl
  case start v h0 hbusy => exact .inr ⟨v, rfl, h0, hbusy, rfl⟩
  all_goals exact absurd rfl hmoved

/-- An event of the host keeps the cursor in the input, but for a write of `IN_LEN` below it (R61, log 8). -/
theorem hostStep_cursorOk {s t : State} {e : HostEvent} (hs : s.cursorOk) (h : HostStep s e t)
    (hinLen : ∀ v, e = .writeReg 0x14 4 v → s.phase.inSession = true ∨ s.bitpos.toNat ≤ 8 * v.toNat) : t.cursorOk := by
  cases h
  case reset => exact reset_cursorOk s
  case start => exact cursorOk_of_start hs.2 rfl
  case inLen v hout hv =>
    rcases hinLen v rfl with hin | hle
    · exact absurd hin (Bool.eq_false_iff.mp hout)
    · exact ⟨hle, bits_lt_of_le_inLenMax hv⟩
  all_goals exact hs

theorem step_cursorOk {s t : State} (hs : s.cursorOk) (h : step s = .next t)
    (hinLen : ∀ v q, s.hostQueue = .writeReg 0x14 4 v :: q → s.phase.inSession = true ∨ s.bitpos.toNat ≤ 8 * v.toNat) :
    t.cursorOk := by
  rcases step_cases h with ⟨q, hengine⟩ | ⟨e, q, hq, hhost⟩
  · exact (engineStep_keeps_hostView _ t hengine).cursor hs
  · exact hostStep_cursorOk (s := { s with hostQueue := q }) hs hhost fun v he => hinLen v q (he ▸ hq)

/-- Settles O56: the reader consumes bits that are there, and the host moves the cursor to 0 only. -/
theorem cursorNeverMovesBack : Obligations.CursorNeverMovesBack := by
  refine ⟨fun s t hs ht => ⟨engineStep_bitpos_le hs ht, ?_, fun hphase => engineStep_bitpos_of_copy hphase ht⟩,
    fun s t e ht => hostStep_bitpos (hostStep_cases ht), cursorOk_of_start (by decide) rfl, fun s t hs ht hinLen => ?_,
    fun s q hlen => ⟨fun hq => ?_, fun v hq h0 hbusy => ?_⟩⟩
  · rw [← engineStep_inLen ht]
    exact ((engineStep_keeps_hostView s t ht).cursor hs).1
  · have hok := step_cursorOk hs ht hinLen
    refine ⟨hok, fun hbyte => ?_⟩
    have hbound := hok.1
    omega
  · exact ⟨_, step_of_reset hq, rfl, reset_cursorOk _⟩
  · refine ⟨_, step_of_writeCtrl hq, ?_⟩
    rw [writeCtrl_start h0, start_of_not_busy (s := { s with hostQueue := q, blockStep := v.getLsbD 8 }) hbusy]
    exact ⟨rfl, cursorOk_of_start hlen rfl⟩

end Sys2Proof.Machine
end

section
/-! What a step of the engine that raises nothing does, phase by phase (R280–R290, R250–R260, R320, R402): the state behind it. -/

namespace Sys2Proof.Machine

/-- The steps of the engine that raise nothing: the bits they read and the state they lead to. -/
inductive Advance (s : State) : State → Prop where
  /-- `STORED` and `DYNAMIC` (R281, R283). -/
  | header {final : Bool} {btype : BitVec 2} {p : Phase} (hphase : s.phase = .hdr) (hbits : s.hasBits 3)
      (hp : p = .storedHdr ∨ p = .dynHdr) : Advance s { s.skip 3 with bfinal := final, btype := btype, phase := p }
  /-- `FIXED` (R282). -/
  | fixed {final : Bool} {llLen : Vector (BitVec 4) 288} {dLen : Vector (BitVec 4) 32} {tLL tD : Tree}
      (hphase : s.phase = .hdr) (hbits : s.hasBits 3) (hLL : tLL.wf) (hD : tD.wf) : Advance s { s.skip 3 with
        bfinal := final, btype := 1, llLen := llLen, dLen := dLen, tLL := some tLL, tD := some tD, phase := .sym }
  /-- A stored header with data behind it (R285). -/
  | storedHdr {len nlen : BitVec 16} (hphase : s.phase = .storedHdr) (hbits : (alignByte s).hasBits 32) (hlen : len ≠ 0) :
      Advance s { (alignByte s).skip 32 with storedLen := len, storedNlen := nlen, storedRem := len, phase := .storedData }
  /-- A stored header of an empty block (R285). -/
  | storedEmpty {nlen : BitVec 16} (hphase : s.phase = .storedHdr) (hbits : (alignByte s).hasBits 32) :
      Advance s (blockEnd { (alignByte s).skip 32 with storedLen := 0, storedNlen := nlen, storedRem := 0 })
  /-- A stored byte with more behind it (R286). -/
  | storedByte {b : Byte} (hphase : s.phase = .storedData) (hbits : s.hasBits 8) (hrem : s.storedRem ≠ 1) :
      Advance s { (s.skip 8).appended b with storedRem := s.storedRem - 1 }
  /-- The last stored byte (R286). -/
  | storedLast {b : Byte} (hphase : s.phase = .storedData) (hbits : s.hasBits 8) :
      Advance s (blockEnd { (s.skip 8).appended b with storedRem := 0 })
  /-- The dynamic header (R250). -/
  | dynHdr {n : Nat} {hlit hdist : BitVec 5} {hclen : BitVec 4} {clLen : Vector (BitVec 3) 19} {tCL : Tree}
      (hphase : s.phase = .dynHdr) (hn : 1 ≤ n) (hbits : s.hasBits n) (hCL : tCL.wf) : Advance s { s.skip n with
        hlit := hlit, hdist := hdist, hclen := hclen, clLen := clLen, tCL := some tCL, seqTotal := seqTotalOf hlit hdist,
        seqIdx := 0, phase := .dynSeq }
  /-- A code-length symbol that does not complete the sequence (R253–R257). -/
  | clSymbol {n : Nat} {seq : Vector (BitVec 4) 320} {idx : BitVec 9} (hphase : s.phase = .dynSeq) (hn : 1 ≤ n)
      (hbits : s.hasBits n) (hidx : idx.toNat < s.seqTotal.toNat) : Advance s { s.skip n with seq := seq, seqIdx := idx }
  /-- The code-length symbol that completes the sequence (R260). -/
  | clLast {n : Nat} {seq : Vector (BitVec 4) 320} {idx : BitVec 9} {llLen : Vector (BitVec 4) 288} {dLen : Vector (BitVec 4) 32}
      {tLL tD : Tree} (hphase : s.phase = .dynSeq) (hn : 1 ≤ n) (hbits : s.hasBits n) (hLL : tLL.wf) (hD : tD.wf) :
      Advance s { s.skip n with
        seq := seq, seqIdx := idx, llLen := llLen, dLen := dLen, tLL := some tLL, tD := some tD, phase := .sym }
  /-- A literal (R288). -/
  | lit {n : Nat} {b : Byte} (hphase : s.phase = .sym) (hn : 1 ≤ n) (hbits : s.hasBits n) : Advance s ((s.skip n).appended b)
  /-- The end of a block (R289). -/
  | eob {n : Nat} (hphase : s.phase = .sym) (hn : 1 ≤ n) (hbits : s.hasBits n) : Advance s (blockEnd (s.skip n))
  /-- A length and a distance (R320, R360, R403). -/
  | copyStart {n : Nat} {len : BitVec 9} {dist : BitVec 16} (hphase : s.phase = .sym) (hn : 1 ≤ n) (hbits : s.hasBits n)
      (hlen : len ≠ 0) (hdist : 1 ≤ dist.toNat) (hle : dist.toNat ≤ s.outLen.toNat) : Advance s { s.skip n with
        matchLen := len, matchDist := dist, copyRem := len, phase := .copy }
  /-- A byte of a match (R402). -/
  | copyByte {b : Byte} (hphase : s.phase = .copy) (hroom : s.outLen ≠ s.outCap) : Advance s { s.appended b with
      copyRem := s.copyRem - 1, phase := if s.copyRem = 1 then .sym else .copy }

/-! ## The bits a meaning reads -/

/-- Bits behind bits. -/
theorem hasBits_add {m n : Nat} {s : State} (h : s.hasBits m) (hrest : (s.skip m).bitpos.toNat + n ≤ 8 * s.inLen.toNat) :
    s.hasBits (m + n) := by
  rw [skip_bitpos_toNat h] at hrest
  exact ⟨by omega, h.2⟩

theorem btype_cases (btype : BitVec 2) : btype = 0#2 ∨ btype = 1#2 ∨ btype = 2#2 ∨ btype = 3#2 := by
  revert btype
  decide

theorem clRow_kind (sym : Nat) (ops : Bits) : (clRow sym ops).kind = .clSymbol := by
  unfold clRow
  split_ifs <;> rfl

/-- A length row starts a copy of at least three bytes (R352). -/
theorem lengthOperand_ne_zero {i : Instr} {len w : Nat} (h : lengthOperand i = some (len, w)) : BitVec.ofNat 9 len ≠ 0 := by
  obtain ⟨hmin, hmax⟩ := lengthOperand_range h
  intro hzero
  have hnat : len % 2 ^ 9 = 0 := (BitVec.toNat_ofNat ..).symm.trans (congrArg BitVec.toNat hzero)
  omega

section
variable {s t : State} (hs : s.cursorOk) (hok : t.phase ≠ .error)
include hs hok

/-- A meaning that reads `w` bits and raises nothing had them. -/
theorem Reads.of_ok {w : Nat} {f r : State → Result} (h : Reads w f r) (hf : f s = .next t) :
    s.hasBits w ∧ r (s.skip w) = .next t := by
  by_cases hbits : s.hasBits w
  · exact ⟨hbits, (h.full s hbits).symm.trans hf⟩
  · obtain ⟨u, hshort, -⟩ := h.short s hs hbits
    obtain rfl := Host.Outcome.next.inj (hshort.symm.trans hf)
    exact absurd rfl hok

/-! ## The headers -/

theorem execFixed_advance {final : Bool} (hphase : s.phase = .hdr) (h : execFixed final s = .next t) : Advance s t := by
  obtain ⟨hbits, h⟩ := (blockHdr_reads final 1#2 _).of_ok hs hok h
  obtain ⟨tLL, tD, hLL, hD, rfl⟩ := of_buildTrees_ok hok h
  exact .fixed hphase hbits (Huffman.build_wf hLL (tableLengths_le _ _)) (Huffman.build_wf hD (tableLengths_le _ _))

theorem blockHdr_advance {btype : BitVec 2} {final : Bool} (hphase : s.phase = .hdr)
    (h : exec (blockRow btype final) s = .next t) : Advance s t := by
  obtain rfl | rfl | rfl | rfl := btype_cases btype
  · obtain ⟨hbits, h⟩ := (blockHdr_reads final 0#2 fun s => .next { s with phase := .storedHdr }).of_ok hs hok h
    obtain rfl := Host.Outcome.next.inj h
    exact .header hphase hbits (.inl rfl)
  · exact execFixed_advance hs hok hphase h
  · obtain ⟨hbits, h⟩ := (blockHdr_reads final 2#2 fun s => .next { s with phase := .dynHdr }).of_ok hs hok h
    obtain rfl := Host.Outcome.next.inj h
    exact .header hphase hbits (.inr rfl)
  · obtain ⟨-, h⟩ := (blockHdr_reads final 3#2 fun s => .next (raise .invalidBlockType s)).of_ok hs hok h
    obtain rfl := Host.Outcome.next.inj h
    exact absurd rfl hok

theorem storedHdr_advance {len nlen : BitVec 16} (hphase : s.phase = .storedHdr) (h : execStoredHdr len nlen s = .next t) :
    Advance s t := by
  have halign := alignByte_cursorOk hs
  obtain ⟨h16, hrest⟩ := of_field_ok hok h
  obtain ⟨h32, -⟩ := of_field_ok hok hrest
  have hbits : (alignByte s).hasBits 32 := hasBits_add (m := 16) (n := 16) ⟨h16, halign.2⟩ h32
  rw [execStoredHdr_of_hasBits hbits, finishStoredHdr] at h
  split_ifs at h with hcompl hlen
  · obtain rfl := Host.Outcome.next.inj h
    exact absurd rfl hok
  · obtain rfl := Host.Outcome.next.inj h
    subst hlen
    exact .storedEmpty hphase hbits
  · obtain rfl := Host.Outcome.next.inj h
    exact .storedHdr hphase hbits hlen

theorem storedByte_advance {b : Byte} (hphase : s.phase = .storedData) (h : execStoredByte b s = .next t) : Advance s t := by
  obtain ⟨hbits, -, ⟨-, rfl⟩ | ⟨hrem, rfl⟩⟩ := of_execStoredByte_ok hok h
  · exact .storedLast hphase ⟨hbits, hs.2⟩
  · exact .storedByte hphase ⟨hbits, hs.2⟩ hrem

theorem dynHdr_advance {hlit hdist : BitVec 5} {hclen : BitVec 4} {lens : List (BitVec 3)} (hphase : s.phase = .dynHdr)
    (h : execDynHdr hlit hdist hclen lens s = .next t) : Advance s t := by
  obtain ⟨hbits, h⟩ := (execDynHdr_reads hlit hdist hclen lens).of_ok hs hok h
  obtain ⟨tCL, hCL, h⟩ := of_buildThen_ok hok h
  obtain rfl := Host.Outcome.next.inj h
  exact .dynHdr hphase (by omega) hbits
    (Huffman.build_wf hCL fun l hl => (tableLengths_le7 _ _ l hl).trans (by decide))

/-! ## Code-length symbols -/

theorem clSymbol_advance {tree : Tree} (htree : tree.wf) (hphase : s.phase = .dynSeq)
    (hlt : s.seqIdx.toNat < s.seqTotal.toNat) (h : runRow tree clRow s = .next t) : Advance s t := by
  obtain ⟨sym, n, hdecode, hle, h⟩ := of_huff_ok hok h
  obtain ⟨hn, -⟩ := Huffman.decode_bounds htree hdecode
  have hbits : s.hasBits n := ⟨hle, hs.2⟩
  obtain ⟨w, q, idx, hw, hidx, hfinish⟩ := of_exec_clSymbol_ok hok (clRow_kind _ _) h
  have hall : s.hasBits (n + w) := hasBits_add hbits (hw (hasBits_skip (n := 0) hbits)).1
  obtain ⟨-, hidx⟩ := hidx hlt
  rw [skip_skip] at hfinish
  rcases of_clFinish_ok hok hfinish with ⟨hne, rfl⟩ | ⟨-, tLL, tD, hLL, hD, rfl⟩
  · exact .clSymbol hphase (by omega) hall (lt_of_le_of_ne hidx fun heq => hne (BitVec.eq_of_toNat_eq heq))
  · exact .clLast hphase (by omega) hall hLL hD

/-! ## Literals, lengths and distances -/

/-- `DISTANCE` that raises nothing starts a copy within the output (R360, R403). -/
theorem of_distance_ok {tree : Tree} (htree : s.tD = some tree) (h : distance s = .next t) :
    ∃ n dist, s.hasBits n ∧ 1 ≤ dist.toNat ∧ dist.toNat ≤ s.outLen.toNat ∧
      t = { s.skip n with matchDist := dist, copyRem := s.matchLen, phase := .copy } := by
  rw [distance_eq_runRow htree] at h
  obtain ⟨sym, n, -, hle, h⟩ := of_huff_ok hok h
  have hbits : s.hasBits n := ⟨hle, hs.2⟩
  by_cases hvalid : sym ≤ 29
  · obtain ⟨-, htable, -⟩ := matchTables
    rw [exec_distance_eq_field (htable sym _ hvalid)] at h
    obtain ⟨hw, h⟩ := of_field_ok hok h
    obtain ⟨hpos, hsrc, rfl⟩ := of_copyStart_ok hok (Host.Outcome.next.inj h)
    refine ⟨_, _, hasBits_add hbits hw, hpos, hsrc, ?_⟩
    rw [← skip_skip]
    rfl
  · have hraise : exec (dRow sym (window (s.skip n))) (s.skip n) = .next (raise .invalidSymbol (s.skip n)) := by
      refine invalidSymbolsRaise _ _ ?_
      obtain ⟨k, rfl⟩ : ∃ k, sym = k + 30 := ⟨sym - 30, by omega⟩
      rcases k with _ | k <;> simp [dRow]
    obtain rfl := Host.Outcome.next.inj (hraise.symm.trans h)
    exact absurd rfl hok

/-- A length row that raises nothing starts a copy within the output (R320). -/
theorem of_length_ok {i : Instr} {operand w : Nat} {tree : Tree} (hi : lengthOperand i = some (operand, w))
    (htree : s.tD = some tree) (h : exec i s = .next t) :
    ∃ n len dist, s.hasBits n ∧ len ≠ 0 ∧ 1 ≤ dist.toNat ∧ dist.toNat ≤ s.outLen.toNat ∧
      t = { s.skip n with matchLen := len, matchDist := dist, copyRem := len, phase := .copy } := by
  rw [exec_length_eq_field hi] at h
  obtain ⟨hw, h⟩ := of_field_ok hok h
  have hbits : s.hasBits w := ⟨hw, hs.2⟩
  obtain ⟨n, dist, hn, hpos, hsrc, rfl⟩ := of_distance_ok (s := { s.skip w with matchLen := BitVec.ofNat 9 operand })
    (hasBits_skip (n := 0) hbits) hok htree h
  refine ⟨w + n, _, dist, hasBits_add hbits hn.1, lengthOperand_ne_zero hi, hpos, hsrc, ?_⟩
  rw [← skip_skip]
  rfl

theorem llSymbol_advance {tree tD : Tree} (htree : tree.wf) (htD : s.tD = some tD) (hphase : s.phase = .sym)
    (h : runRow tree llRow s = .next t) : Advance s t := by
  obtain ⟨sym, n, hdecode, hle, h⟩ := of_huff_ok hok h
  obtain ⟨hn, -⟩ := Huffman.decode_bounds htree hdecode
  have hbits : s.hasBits n := ⟨hle, hs.2⟩
  by_cases hlit : sym < 256
  · rw [llRow_of_lt hlit] at h
    obtain ⟨-, rfl⟩ := of_execLit_ok hok h
    exact .lit hphase hn hbits
  by_cases heob : sym = 256
  · subst heob
    obtain rfl := Host.Outcome.next.inj h
    exact .eob hphase hn hbits
  by_cases hvalid : sym ≤ 285
  · obtain ⟨htable, -⟩ := matchTables
    obtain ⟨m, len, dist, hm, hlen, hpos, hsrc, rfl⟩ :=
      of_length_ok (hasBits_skip (n := 0) hbits) hok (htable sym _ (by omega) hvalid) htD h
    rw [skip_skip]
    exact .copyStart hphase (by omega) (hasBits_add hbits hm.1) hlen hpos hsrc
  · have hraise := invalidSymbolsRaise (s.skip n) (llRow sym (window (s.skip n))) (by
      obtain ⟨k, rfl⟩ : ∃ k, sym = k + 286 := ⟨sym - 286, by omega⟩
      rcases k with _ | k <;> simp [llRow])
    obtain rfl := Host.Outcome.next.inj (hraise.symm.trans h)
    exact absurd rfl hok

omit hs in
theorem copyStep_advance (hphase : s.phase = .copy) (h : copyStep s = .next t) : Advance s t := by
  unfold copyStep at h
  split_ifs at h
  obtain ⟨hroom, h⟩ := of_append_ok hok h
  obtain rfl := Host.Outcome.next.inj h
  have hadvance := Advance.copyByte (b := Memory.read s.outMem (s.outLen.toNat - s.matchDist.toNat)) hphase hroom
  rwa [← hphase] at hadvance

/-! ## The engine's step -/

/-- What a step of the engine in a running session does, unless it ends in an error (R15). -/
theorem engineStep_advance (hinv : s.Inv) (hbusy : s.phase.status = .busy) (h : engineStep s = .next t) : Advance s t := by
  rcases hphase : s.phase
  all_goals simp only [engineStep, hphase] at h
  case hdr => exact blockHdr_advance hs hok hphase h
  case storedHdr => exact storedHdr_advance hs hok hphase h
  case storedData => exact storedByte_advance hs hok hphase h
  case dynHdr => exact dynHdr_advance hs hok hphase h
  case dynSeq =>
    obtain ⟨hready, hlt, -⟩ := hinv.sequence hphase
    rcases htree : s.tCL with _ | tree
    all_goals rw [htree] at h hready
    · exact hready.elim
    · exact clSymbol_advance hs hok hready hphase hlt h
  case sym =>
    obtain ⟨hreadyLL, hreadyD⟩ := hinv.trees (.inl hphase)
    rcases htree : s.tLL with _ | tree
    all_goals rw [htree] at h hreadyLL
    · exact hreadyLL.elim
    rcases htD : s.tD with _ | tD
    all_goals rw [htD] at hreadyD
    · exact hreadyD.elim
    · exact llSymbol_advance hs hok hreadyLL htD hphase h
  case copy => exact copyStep_advance hok hphase h
  case idle | paused | done | error =>
    rw [hphase] at hbusy
    cases hbusy

end

end Sys2Proof.Machine
end

section
/-! The invariant of every run (log 8): it holds at reset, each step keeps it, and a running session makes progress (R427). -/

namespace Sys2Proof.Machine

/-! ## What each advance keeps -/

/-- The part of the invariant that speaks of the block the engine is in. -/
structure State.BlockOk (s : State) : Prop where
  started : s.phase ≠ .idle
  blocks : 3 * s.blockIdx.toNat ≤ s.bitpos.toNat
  header : s.phase.inBlock = true → 3 * (s.blockIdx.toNat + 1) ≤ s.bitpos.toNat
  storedData : s.phase = .storedData → s.bitpos.toNat % 8 = 0 ∧ s.storedRem ≠ 0
  sequence : s.phase = .dynSeq →
    treeReady s.tCL ∧ s.seqIdx.toNat < s.seqTotal.toNat ∧ s.seqTotal = seqTotalOf s.hlit s.hdist
  trees : s.phase = .sym ∨ s.phase = .copy → treeReady s.tLL ∧ treeReady s.tD
  copy : s.phase = .copy → 1 ≤ s.matchDist.toNat ∧ s.matchDist.toNat ≤ s.outLen.toNat ∧ s.copyRem ≠ 0

namespace State.BlockOk
variable {t : State}

/-- Between blocks only the bits of the blocks that ended count (R48). -/
theorem ofOutside (hstarted : t.phase ≠ .idle) (hout : t.phase.inBlock = false) (hblocks : 3 * t.blockIdx.toNat ≤ t.bitpos.toNat) :
    t.BlockOk := by
  have hnot {p : Phase} (hp : p.inBlock = true) (h : t.phase = p) : False := Bool.eq_false_iff.mp hout (h ▸ hp)
  exact {
    started := hstarted
    blocks := hblocks
    header := fun h => absurd h (Bool.eq_false_iff.mp hout)
    storedData := fun h => (hnot rfl h).elim
    sequence := fun h => (hnot rfl h).elim
    trees := fun h => (h.elim (hnot rfl) (hnot rfl)).elim
    copy := fun h => (hnot rfl h).elim }

/-- Inside a block its three header bits count too, and the phase says what else it needs. -/
theorem ofInside {p : Phase} (hp : t.phase = p) (hin : p.inBlock = true) (hheader : 3 * (t.blockIdx.toNat + 1) ≤ t.bitpos.toNat)
    (hstored : p = .storedData → t.bitpos.toNat % 8 = 0 ∧ t.storedRem ≠ 0 := by simp)
    (hsequence : p = .dynSeq →
      treeReady t.tCL ∧ t.seqIdx.toNat < t.seqTotal.toNat ∧ t.seqTotal = seqTotalOf t.hlit t.hdist := by simp)
    (htrees : p = .sym ∨ p = .copy → treeReady t.tLL ∧ treeReady t.tD := by simp)
    (hcopy : p = .copy → 1 ≤ t.matchDist.toNat ∧ t.matchDist.toNat ≤ t.outLen.toNat ∧ t.copyRem ≠ 0 := by simp) :
    t.BlockOk := by
  subst hp
  refine ⟨fun h => ?_, by omega, fun _ => hheader, hstored, hsequence, htrees, hcopy⟩
  rw [h] at hin
  cases hin

end State.BlockOk

theorem phaseAfterBlock_outside (bfinal blockStep : Bool) :
    phaseAfterBlock bfinal blockStep ≠ .idle ∧ (phaseAfterBlock bfinal blockStep).inBlock = false := by
  cases bfinal <;> cases blockStep <;> decide

/-- `BLOCK_IDX` does not wrap where a block ends (R48, R290). -/
theorem blockEnd_blockOk {s : State} (hheader : 3 * (s.blockIdx.toNat + 1) ≤ s.bitpos.toNat) : (blockEnd s).BlockOk := by
  obtain ⟨hstarted, hout⟩ := phaseAfterBlock_outside s.bfinal s.blockStep
  refine .ofOutside hstarted hout ?_
  show 3 * (s.blockIdx + 1).toNat ≤ s.bitpos.toNat
  bv_omega

section
variable {s t : State}

theorem header_of_hdr (hblocks : 3 * s.blockIdx.toNat ≤ s.bitpos.toNat) (hbits : s.hasBits 3) :
    3 * (s.blockIdx.toNat + 1) ≤ (s.skip 3).bitpos.toNat := by
  have hpos := skip_bitpos_toNat hbits
  omega

theorem header_of_inBlock {n : Nat} (hheader : 3 * (s.blockIdx.toNat + 1) ≤ s.bitpos.toNat) (hbits : s.hasBits n) :
    3 * (s.blockIdx.toNat + 1) ≤ (s.skip n).bitpos.toNat := by
  have hpos := skip_bitpos_toNat hbits
  omega

/-- Behind a stored header the cursor stands at a byte boundary (R111, R285). -/
theorem storedHdr_bitpos (hs : s.cursorOk) (hbits : (alignByte s).hasBits 32) :
    s.bitpos.toNat < ((alignByte s).skip 32).bitpos.toNat ∧ ((alignByte s).skip 32).bitpos.toNat % 8 = 0 := by
  have halign := alignByte_bitpos_toNat hs
  have hpos := skip_bitpos_toNat hbits
  omega

/-- `SEQ_TOTAL` of a header is at least 258 (R253). -/
theorem seqTotalOf_toNat (hlit hdist : BitVec 5) : (seqTotalOf hlit hdist).toNat = hlit.toNat + 257 + hdist.toNat + 1 := by
  have hlitLt := hlit.isLt
  have hdistLt := hdist.isLt
  rw [seqTotalOf, BitVec.toNat_ofNat]
  omega

/-- An advance keeps what the block needs. -/
theorem advance_blockOk (hinv : s.Inv) (hs : s.cursorOk) (hbusy : s.phase.inSession = true) (h : Advance s t) : t.BlockOk := by
  have hblocks := hinv.blocks hbusy
  have hheader {p : Phase} (hphase : s.phase = p) (hin : p.inBlock = true) := hinv.header (hphase ▸ hin)
  cases h
  case header hphase hbits hp =>
    rcases hp with rfl | rfl
    all_goals exact .ofInside rfl rfl (header_of_hdr hblocks hbits)
  case fixed hphase hbits hLL hD =>
    exact .ofInside rfl rfl (header_of_hdr hblocks hbits) (htrees := fun _ => ⟨hLL, hD⟩)
  case storedHdr hphase hbits hlen =>
    obtain ⟨hpos, hbyte⟩ := storedHdr_bitpos hs hbits
    exact .ofInside rfl rfl ((hheader hphase rfl).trans hpos.le) (hstored := fun _ => ⟨hbyte, hlen⟩)
  case storedEmpty hphase hbits =>
    obtain ⟨hpos, -⟩ := storedHdr_bitpos hs hbits
    exact blockEnd_blockOk ((hheader hphase rfl).trans hpos.le)
  case storedByte hphase hbits hrem =>
    obtain ⟨hbyte, -⟩ := hinv.storedData hphase
    have hpos := skip_bitpos_toNat hbits
    have hbyte' : (s.skip 8).bitpos.toNat % 8 = 0 := by omega
    exact .ofInside hphase rfl (header_of_inBlock (hheader hphase rfl) hbits)
      (hstored := fun _ => ⟨hbyte', sub_ne_zero.mpr hrem⟩)
  case storedLast hphase hbits => exact blockEnd_blockOk (header_of_inBlock (hheader hphase rfl) hbits)
  case dynHdr hlit hdist _ _ _ hphase hn hbits hCL =>
    have htotal : (0 : BitVec 9).toNat < (seqTotalOf hlit hdist).toNat := by
      rw [seqTotalOf_toNat]
      exact Nat.succ_pos _
    exact .ofInside rfl rfl (header_of_inBlock (hheader hphase rfl) hbits) (hsequence := fun _ => ⟨hCL, htotal, rfl⟩)
  case clSymbol hphase hn hbits hidx =>
    obtain ⟨hready, -, htotal⟩ := hinv.sequence hphase
    exact .ofInside hphase rfl (header_of_inBlock (hheader hphase rfl) hbits) (hsequence := fun _ => ⟨hready, hidx, htotal⟩)
  case clLast hphase hn hbits hLL hD =>
    exact .ofInside rfl rfl (header_of_inBlock (hheader hphase rfl) hbits) (htrees := fun _ => ⟨hLL, hD⟩)
  case lit hphase hn hbits =>
    exact .ofInside hphase rfl (header_of_inBlock (hheader hphase rfl) hbits) (htrees := fun _ => hinv.trees (.inl hphase))
  case eob hphase hn hbits => exact blockEnd_blockOk (header_of_inBlock (hheader hphase rfl) hbits)
  case copyStart hphase hn hbits hlen hdist hle =>
    exact .ofInside rfl rfl (header_of_inBlock (hheader hphase rfl) hbits) (htrees := fun _ => hinv.trees (.inl hphase))
      (hcopy := fun _ => ⟨hdist, hle, hlen⟩)
  case copyByte b hphase hroom =>
    have htrees := hinv.trees (.inr hphase)
    by_cases hrem : s.copyRem = 1
    · exact .ofInside (p := .sym) (if_pos hrem) rfl (hheader hphase rfl) (htrees := fun _ => htrees)
    · obtain ⟨hdist, hle, -⟩ := hinv.copy hphase
      obtain ⟨hlen, -⟩ := outLen_add_one (hinv.room hbusy) hroom
      have hsrc : s.matchDist.toNat ≤ (s.outLen + 1).toNat := by omega
      exact .ofInside (p := .copy) (if_neg hrem) rfl (hheader hphase rfl) (htrees := fun _ => htrees)
        (hcopy := fun _ => ⟨hdist, hsrc, sub_ne_zero.mpr hrem⟩)

/-- An advance moves the cursor forward, or is a copy step that appends a byte (R427). -/
theorem advance_progress (hs : s.cursorOk) (hroom : s.outLen.toNat ≤ s.outCap.toNat) (h : Advance s t) :
    s.bitpos.toNat < t.bitpos.toNat ∨ (s.phase = .copy ∧ t.outLen.toNat = s.outLen.toNat + 1) := by
  have hmoved {n : Nat} (hn : 1 ≤ n) (hbits : s.hasBits n) : s.bitpos.toNat < (s.skip n).bitpos.toNat := by
    rw [skip_bitpos_toNat hbits]
    omega
  cases h
  case header _ hbits _ | fixed _ hbits _ _ => exact .inl (hmoved (by decide) hbits)
  case storedHdr _ hbits _ | storedEmpty _ hbits => exact .inl (storedHdr_bitpos hs hbits).1
  case storedByte _ hbits _ | storedLast _ hbits => exact .inl (hmoved (by decide) hbits)
  case dynHdr _ hn hbits _ | clSymbol _ hn hbits _ | clLast _ hn hbits _ _ => exact .inl (hmoved hn hbits)
  case lit _ hn hbits | eob _ hn hbits | copyStart _ hn hbits _ _ _ => exact .inl (hmoved hn hbits)
  case copyByte hphase hfull => exact .inr ⟨hphase, (outLen_add_one hroom hfull).1⟩

end

end Sys2Proof.Machine
end

section
/-! The invariant holds at reset and at every step, and a running session makes progress (log 8, R427). -/

namespace Sys2Proof.Machine

/-! ## The engine's step -/

section
variable {s t : State}

theorem State.Inv.withQueue (h : s.Inv) (q : List HostEvent) : State.Inv { s with hostQueue := q } := { h with }

theorem inSession_of_busy {p : Phase} (h : p.status = .busy) : p.inSession = true := decide_eq_true (.inl h)

theorem State.Inv.cursorOk (h : s.Inv) (hsession : s.phase.inSession = true) : s.cursorOk := ⟨h.cursor hsession, h.inLen⟩

theorem ne_error_of_inSession {p : Phase} (h : p.inSession = true) : p ≠ .error := by
  rintro rfl
  cases h

/-- Settles O58: an advance reads a bit, or is a copy step. -/
theorem everyStepProgresses : Obligations.EveryStepProgresses := by
  intro s t hinv hbusy ht
  have hsession := inSession_of_busy hbusy
  have hs := hinv.cursorOk hsession
  by_cases herror : t.phase = .error
  · exact .inl herror
  · exact .inr (.inr (advance_progress hs (hinv.room hsession) (engineStep_advance hs herror hinv hbusy ht)))

/-- What every step of a session keeps, whatever it answers: the buffers and their bounds. -/
structure State.BuffersOk (s : State) : Prop where
  inMem : Memory.wf s.inMem
  outMem : Memory.wf s.outMem
  inLen : 8 * s.inLen.toNat < 2 ^ 32
  cursor : s.bitpos.toNat ≤ 8 * s.inLen.toNat
  room : s.outLen.toNat ≤ s.outCap.toNat

theorem engineStep_buffersOk (hinv : s.Inv) (hsession : s.phase.inSession = true) (h : engineStep s = .next t) : t.BuffersOk := by
  obtain ⟨hview, hlen, hcursor, -⟩ := engineStep_keeps_hostView s t h
  simp only [State.hostView, Prod.mk.injEq] at hview
  obtain ⟨hinMem, -, houtCap, -⟩ := hview
  obtain ⟨bs, -, happ⟩ := engineStep_appends hinv hsession h
  obtain ⟨hbound, hfit⟩ := hcursor (hinv.cursorOk hsession)
  refine ⟨by rw [hinMem]; exact hinv.inMem, ?_, hfit, hbound, by rw [houtCap]; exact happ.room⟩
  rw [happ.outMem hinv.outMem h]
  exact Memory.wf_writeBytes bs _ hinv.outMem _

/-- A session that ended in an error keeps the buffers, and the code is one of the engine's (R462). -/
theorem State.Inv.ofError (hbuffers : t.BuffersOk) (herror : t.phase = .error) (hcode : engineCode t.errCode) : t.Inv where
  inMem := hbuffers.inMem
  outMem := hbuffers.outMem
  inLen := hbuffers.inLen
  cursor _ := hbuffers.cursor
  room _ := hbuffers.room
  blocks h := absurd herror (ne_error_of_inSession h)
  header h := by
    rw [herror] at h
    cases h
  storedData h := by
    rw [herror] at h
    cases h
  sequence h := by
    rw [herror] at h
    cases h
  trees h := by
    rw [herror] at h
    rcases h with h | h <;> cases h
  copy h := by
    rw [herror] at h
    cases h
  error := by rwa [if_pos herror]
  idle h := by
    rw [herror] at h
    cases h

theorem State.Inv.ofBlockOk (hbuffers : t.BuffersOk) (hblock : t.BlockOk) (herror : t.phase ≠ .error) (hcode : t.errCode = 0) :
    t.Inv where
  inMem := hbuffers.inMem
  outMem := hbuffers.outMem
  inLen := hbuffers.inLen
  cursor _ := hbuffers.cursor
  room _ := hbuffers.room
  blocks _ := hblock.blocks
  header := hblock.header
  storedData := hblock.storedData
  sequence := hblock.sequence
  trees := hblock.trees
  copy := hblock.copy
  error := by rwa [if_neg herror]
  idle h := absurd h hblock.started

theorem State.Inv.errCode (h : s.Inv) (hphase : s.phase ≠ .error) : s.errCode = 0 := by
  have herror := h.error
  rwa [if_neg hphase] at herror

/-- A step of the engine keeps the invariant, whether it takes an error or not. -/
theorem engineStep_inv (hinv : s.Inv) (h : engineStep s = .next t) : t.Inv := by
  by_cases hbusy : s.phase.status = .busy
  · have hsession := inSession_of_busy hbusy
    have hrunning := ne_error_of_inSession hsession
    have hbuffers := engineStep_buffersOk hinv hsession h
    obtain ⟨htrap, hquiet⟩ := trapEntry s t hrunning h
    by_cases herror : t.phase = .error
    · exact .ofError hbuffers herror (htrap herror).1
    · have hs := hinv.cursorOk hsession
      exact .ofBlockOk hbuffers (advance_blockOk hinv hs hsession (engineStep_advance hs herror hinv hbusy h)) herror
        ((hquiet herror).1.trans (hinv.errCode hrunning))
  · rw [engineStep_of_stopped (by_contra fun hstopped => hbusy ((status_eq_busy_iff _).mpr hstopped))] at h
    obtain rfl := Host.Outcome.next.inj h
    exact hinv

/-! ## The host's step -/

/-- After reset there is no session (R490). -/
theorem inv_platformReset (hin : Memory.wf s.inMem) (hout : Memory.wf s.outMem) : (platformReset s).Inv where
  inMem := hin
  outMem := hout
  inLen := show 8 * (0 : Word).toNat < 2 ^ 32 by decide
  cursor h := by cases h
  room h := by cases h
  blocks h := by cases h
  header h := by cases h
  storedData h := by cases h
  sequence h := by cases h
  trees h := by rcases h with h | h <;> cases h
  copy h := by cases h
  error := rfl
  idle _ := ⟨rfl, rfl⟩

/-- Settles O52: `State.reset` is where the platform's reset leads. -/
theorem invAtReset : Obligations.InvAtReset := inv_platformReset (s := .reset) Memory.wf_nil Memory.wf_nil

/-- An event of the host keeps the invariant: it begins or resumes a session between blocks, or writes outside a session. -/
theorem hostStep_inv {e : HostEvent} (hinv : s.Inv) (h : HostStep s e t) : t.Inv := by
  have houtside {P : Prop} (hs : s.phase.inSession = false) (h : s.phase.inSession = true) : P :=
    absurd h (Bool.eq_false_iff.mp hs)
  cases h
  case reset => exact inv_platformReset hinv.inMem hinv.outMem
  case start v h0 hbusy =>
    exact .ofBlockOk ⟨hinv.inMem, hinv.outMem, hinv.inLen, Nat.zero_le _, Nat.zero_le _⟩
      (.ofOutside nofun rfl (Nat.le_refl _)) nofun rfl
  case resume v hpaused =>
    have hsession : s.phase.inSession = true := by
      rw [hpaused]
      rfl
    exact .ofBlockOk ⟨hinv.inMem, hinv.outMem, hinv.inLen, hinv.cursor hsession, hinv.room hsession⟩
      (.ofOutside nofun rfl (hinv.blocks hsession)) nofun (hinv.errCode (ne_error_of_inSession hsession))
  case ctrl | answer => exact { hinv with }
  case inLen v hs hv => exact { hinv with inLen := bits_lt_of_le_inLenMax hv, cursor := houtside hs }
  case outCap v hs => exact { hinv with room := houtside hs }
  case fillIn a b hs => exact { hinv with inMem := Memory.wf_write _ hinv.inMem _ _ }
  case writeOut a b hs => exact { hinv with outMem := Memory.wf_write _ hinv.outMem _ _ }

/-- Settles O53: a step is the engine's or an event of the host. -/
theorem stepKeepsInv : Obligations.StepKeepsInv := by
  intro s t hinv h
  rcases step_cases h with ⟨q, hengine⟩ | ⟨e, q, -, hhost⟩
  · exact engineStep_inv (hinv.withQueue q) hengine
  · exact hostStep_inv (hinv.withQueue q) hhost

end

end Sys2Proof.Machine
end

section
/-! No input stops the machine (R450): where the engine has no meaning for a step the invariant is broken, and where the host has
none its program is outside the spec (R105, R500, R502). -/

namespace Sys2Proof.Machine

/-! ## The engine -/

/-- A meaning answers a next state, or it faults for the reason `P`; it refuses nothing. -/
def Answers (P : Prop) (r : Result) : Prop := (∃ t, r = .next t) ∨ (∃ f, r = .fault f) ∧ P

theorem Answers.ofNext {P : Prop} {r : Result} (h : ∃ t, r = .next t) : Answers P r := .inl h

theorem huff_answers {P : Prop} {tree : Tree} {k : Nat → State → Result} {s : State}
    (hk : ∀ sym n, Answers P (k sym (s.skip n))) : Answers P (huff tree s k) := by
  have hfield (n : Nat) (k : State → Result) (h : Answers P (k (s.skip n))) : Answers P (field n s k) := by
    by_cases hbits : s.bitpos.toNat + n ≤ 8 * s.inLen.toNat
    · rwa [field_of_hasBits hbits]
    · exact .ofNext ⟨_, field_of_short (Nat.not_le.mp hbits) k⟩
  rcases h : Huffman.decode tree (window s) with _ | ⟨sym, n⟩
  · simpa only [huff, h] using hfield _ (fun s => .next (raise .invalidHuffmanCode s)) (.ofNext ⟨_, rfl⟩)
  · simpa only [huff, h] using hfield _ _ (hk sym n)

theorem clRow_lengthOperand (sym : Nat) (ops : Bits) : lengthOperand (clRow sym ops) = none := by
  unfold clRow
  split_ifs <;> rfl

theorem blockRow_lengthOperand (btype : BitVec 2) (final : Bool) : lengthOperand (blockRow btype final) = none := by
  obtain rfl | rfl | rfl | rfl := btype_cases btype
  all_goals rfl

theorem exec_answers (i : Instr) (s : State) : Answers (s.tD = none) (exec i s) := by
  rcases everyElementRuns i s with hruns | ⟨hfault, -, htree⟩
  · exact .inl hruns
  · exact .inr ⟨⟨_, hfault⟩, htree⟩

/-- What is missing where the engine's step has no meaning (log 9, log 10). -/
def State.Stuck (s : State) : Prop :=
  s.phase = .dynSeq ∧ s.tCL = none ∨ s.phase = .sym ∧ (s.tLL = none ∨ s.tD = none) ∨
    s.phase = .copy ∧ s.outLen.toNat < s.matchDist.toNat

/-- The engine answers in every state; it faults only where a tree or the source of a match is missing. -/
theorem engineStep_answers (s : State) : Answers s.Stuck (engineStep s) := by
  rcases hphase : s.phase
  all_goals simp only [engineStep, hphase]
  case hdr => exact .ofNext (exec_runs (blockRow_lengthOperand _ _) s)
  case storedHdr | storedData | dynHdr => exact .ofNext (exec_runs rfl s)
  case dynSeq =>
    rcases htree : s.tCL with _ | tree
    · exact .inr ⟨⟨_, rfl⟩, .inl ⟨hphase, htree⟩⟩
    · exact huff_answers fun sym n => .ofNext (exec_runs (clRow_lengthOperand _ _) _)
  case sym =>
    rcases htree : s.tLL with _ | tree
    · exact .inr ⟨⟨_, rfl⟩, .inr (.inl ⟨hphase, .inl htree⟩)⟩
    · refine huff_answers fun sym n => ?_
      rcases exec_answers (llRow sym (window (s.skip n))) (s.skip n) with hruns | ⟨hfault, htD⟩
      · exact .inl hruns
      · exact .inr ⟨hfault, .inr (.inl ⟨hphase, .inr htD⟩)⟩
  case copy =>
    by_cases hsrc : s.outLen.toNat < s.matchDist.toNat
    · exact .inr ⟨⟨_, if_pos hsrc⟩, .inr (.inr ⟨hphase, hsrc⟩)⟩
    · rw [copyStep, if_neg hsrc]
      exact .ofNext (Runs.ofAppend (b := fun _ => Memory.read s.outMem _) (Runs.ofNext _) s)
  case idle | paused | done | error => exact .ofNext ⟨s, rfl⟩

/-- The invariant holds the trees and the source that a step needs (R52, R402). -/
theorem State.Inv.not_stuck {s : State} (h : s.Inv) : ¬ s.Stuck := by
  rintro (⟨hphase, htree⟩ | ⟨hphase, htree⟩ | ⟨hphase, hsrc⟩)
  · have hready := (h.sequence hphase).1
    rw [htree] at hready
    exact hready
  · obtain ⟨hLL, hD⟩ := h.trees (.inl hphase)
    rcases htree with htree | htree
    · rw [htree] at hLL
      exact hLL
    · rw [htree] at hD
      exact hD
  · obtain ⟨-, hle, -⟩ := h.copy hphase
    omega

theorem engineStep_runs {s : State} (h : s.Inv) : ∃ t, engineStep s = .next t :=
  (engineStep_answers s).resolve_right fun hstuck => h.not_stuck hstuck.2

theorem engineStep_ne_refused (s : State) (r : Refusal) : engineStep s ≠ .refused r := by
  intro h
  rcases engineStep_answers s with ⟨t, hnext⟩ | ⟨⟨f, hfault⟩, -⟩
  · exact nomatch hnext.symm.trans h
  · exact nomatch hfault.symm.trans h

/-! ## The host -/

theorem hostStep_ne_fault (e : HostEvent) (s : State) (r : Fault) : hostStep e s ≠ .fault r := by
  intro h
  cases e
  case writeReg off bytes v =>
    rw [hostStep, writeRegister.eq_def] at h
    split at h
    · split at h
      · cases h
      · unfold writeInLen at h
        split_ifs at h
      · cases h
      · cases h
    · cases h
  case readReg | fillIn | writeOut =>
    rw [hostStep] at h
    split_ifs at h
  case quiet | readOut | reset => cases h

/-- The programs of the host that are outside the spec: a buffer write in a session (U14), too large an input (U15), and a register
access of another shape (U17). -/
inductive OutsideSpec (s : State) : HostEvent → Refusal → Prop where
  | fillIn (a : Word) (b : Byte) (h : s.phase.inSession = true) : OutsideSpec s (.fillIn a b) .bufferWriteInSession
  | writeOut (a : Word) (b : Byte) (h : s.phase.inSession = true) : OutsideSpec s (.writeOut a b) .bufferWriteInSession
  | inLen (v : Word) (h : Config.inLenMax < v.toNat) : OutsideSpec s (.writeReg 0x14 4 v) .inLenTooLarge
  | writeReg (off n : Nat) (v : Word) (h : ¬ (n = 4 ∧ off % 4 = 0 ∧ off < 64)) :
      OutsideSpec s (.writeReg off n v) .badRegisterAccess
  | readReg (off n : Nat) (h : ¬ (n = 4 ∧ off % 4 = 0 ∧ off < 64)) : OutsideSpec s (.readReg off n) .badRegisterAccess

theorem writeRegister_refused {off : Nat} {v : Word} {s : State} {r : Refusal} (h : writeRegister off v s = .refused r) :
    off = 0x14 ∧ r = .inLenTooLarge ∧ Config.inLenMax < v.toNat := by
  unfold writeRegister at h
  split at h
  · cases h
  · unfold writeInLen at h
    split_ifs at h with hsession hlarge
    exact ⟨rfl, (Host.Outcome.refused.inj h).symm, hlarge⟩
  · cases h
  · cases h

theorem hostStep_refused {e : HostEvent} {s : State} {r : Refusal} (h : hostStep e s = .refused r) : OutsideSpec s e r := by
  cases e
  case writeReg off bytes v =>
    rw [hostStep] at h
    by_cases haccess : registerAccess off bytes = true
    · rw [if_pos haccess] at h
      obtain ⟨rfl, rfl, hlarge⟩ := writeRegister_refused h
      obtain ⟨rfl, -, -⟩ : bytes = 4 ∧ 0x14 % 4 = 0 ∧ 0x14 < 64 := by simpa [registerAccess] using haccess
      exact .inLen v hlarge
    · rw [if_neg haccess] at h
      obtain rfl := Host.Outcome.refused.inj h
      exact .writeReg off bytes v (by simpa [registerAccess] using haccess)
  case readReg off bytes =>
    rw [hostStep] at h
    split_ifs at h with haccess
    obtain rfl := Host.Outcome.refused.inj h
    exact .readReg off bytes (by simpa [registerAccess] using haccess)
  case fillIn a b =>
    rw [hostStep] at h
    split_ifs at h with hsession
    obtain rfl := Host.Outcome.refused.inj h
    exact .fillIn a b hsession
  case writeOut a b =>
    rw [hostStep] at h
    split_ifs at h with hsession
    obtain rfl := Host.Outcome.refused.inj h
    exact .writeOut a b hsession
  case quiet | readOut | reset => cases h

/-! ## Both -/

/-- Settles O54: the engine refuses nothing and faults nowhere in the invariant; the host faults nowhere. -/
theorem noInputStopsTheMachine : Obligations.NoInputStopsTheMachine := by
  refine ⟨fun s r hinv h => ?_, fun s r h => ?_⟩
  · rcases step_eq s with ⟨q, hstep⟩ | ⟨e, q, -, hstep⟩
    · obtain ⟨t, ht⟩ := engineStep_runs (hinv.withQueue q)
      exact nomatch (hstep.trans ht).symm.trans h
    · exact hostStep_ne_fault _ _ _ (hstep.symm.trans h)
  · rcases step_eq s with ⟨q, hstep⟩ | ⟨e, q, hq, hstep⟩
    · exact absurd (hstep.symm.trans h) (engineStep_ne_refused _ r)
    · cases hostStep_refused (hstep.symm.trans h)
      case fillIn a b hsession => exact .inl ⟨a, b, q, rfl, hsession, .inl hq⟩
      case writeOut a b hsession => exact .inl ⟨a, b, q, rfl, hsession, .inr hq⟩
      case inLen v hlarge => exact .inr (.inl ⟨v, q, rfl, hq, hlarge⟩)
      case writeReg off n v hshape => exact .inr (.inr ⟨off, n, v, q, rfl, hshape, .inl hq⟩)
      case readReg off n hshape => exact .inr (.inr ⟨off, n, 0, q, rfl, hshape, .inr hq⟩)

end Sys2Proof.Machine
end

section
/-! A running session ends (R427): every step uses up a bit of the input or a byte of the output's room. -/

namespace Sys2Proof.Machine

/-- The bits left to read and the bytes left to write. -/
def State.budget (s : State) : Nat := (8 * s.inLen.toNat - s.bitpos.toNat) + (s.outCap.toNat - s.outLen.toNat)

/-- The session pauses or has ended (R45). -/
def Phase.stopped (p : Phase) : Prop := p = .paused ∨ p = .done ∨ p = .error

section
variable {s t : State} (hinv : s.Inv) (hbusy : s.phase.status = .busy) (h : engineStep s = .next t)
include hinv hbusy h

/-- A session that does not stop goes on (R45): the engine never returns to `IDLE`. -/
theorem engineStep_busy (hstopped : ¬ t.phase.stopped) : t.phase.status = .busy := by
  have hsession := inSession_of_busy hbusy
  have hs := hinv.cursorOk hsession
  obtain ⟨hpaused, hdone, herror⟩ : t.phase ≠ .paused ∧ t.phase ≠ .done ∧ t.phase ≠ .error := by
    simpa [Phase.stopped] using hstopped
  obtain ⟨hstarted, -⟩ := advance_blockOk hinv hs hsession (engineStep_advance hs herror hinv hbusy h)
  rw [status_eq_busy_iff]
  simp [hstarted, hpaused, hdone, herror]

/-- A step that does not stop the session lowers what is left (R427). -/
theorem engineStep_budget_lt (hstopped : ¬ t.phase.stopped) : t.budget < s.budget := by
  have hsession := inSession_of_busy hbusy
  have hsession' := inSession_of_busy (engineStep_busy hinv hbusy h hstopped)
  have hinv' := engineStep_inv hinv h
  have hview := (engineStep_keeps_hostView s t h).view
  simp only [State.hostView, Prod.mk.injEq] at hview
  obtain ⟨-, hinLen, houtCap, -⟩ := hview
  have hcursor := hinv'.cursor hsession'
  have hroom := hinv'.room hsession'
  rw [hinLen] at hcursor
  rw [houtCap] at hroom
  have hforward := engineStep_bitpos_le (hinv.cursorOk hsession) h
  have hout : s.outLen.toNat ≤ t.outLen.toNat := by
    rcases outputIsAppendOnly.1 s t hinv h with ⟨heq, -⟩ | ⟨hsucc, -⟩
    · rw [heq]
    · omega
  unfold State.budget
  rw [hinLen, houtCap]
  rcases everyStepProgresses s t hinv hbusy h with herror | hdone | hbit | ⟨-, hbyte⟩
  · exact absurd (.inr (.inr herror)) hstopped
  · exact absurd (.inr (.inl hdone)) hstopped
  · omega
  · omega

end

/-- Settles O59: by induction on what is left to read and to write. -/
theorem sessionsEnd : Obligations.SessionsEnd := by
  intro s
  induction hbudget : s.budget using Nat.strong_induction_on generalizing s with
  | _ k ih =>
    subst hbudget
    intro hinv hbusy hq
    obtain ⟨u, hengine⟩ := engineStep_runs hinv
    have hstep : step s = .next u := (step_of_empty hq).trans hengine
    have hinv' := engineStep_inv hinv hengine
    by_cases hstopped : u.phase.stopped
    · exact ⟨1, u, Nat.le_add_left 1 _, run_succ 0 hstep, hinv', hstopped⟩
    · have hlt := engineStep_budget_lt hinv hbusy hengine hstopped
      have hq' : u.hostQueue = [] := by
        have hview := (engineStep_keeps_hostView s u hengine).view
        simp only [State.hostView, Prod.mk.injEq] at hview
        obtain ⟨-, -, -, -, hqueue, -⟩ := hview
        exact hqueue.trans hq
      obtain ⟨n, t, hn, hrun, hend⟩ := ih _ hlt u rfl hinv' (engineStep_busy hinv hbusy hengine hstopped) hq'
      have hle : n ≤ u.budget + 1 := hn
      exact ⟨n + 1, t, show n + 1 ≤ s.budget + 1 by omega, (run_succ n hstep).trans hrun, hend⟩

end Sys2Proof.Machine
end

section
/-! An input that ends inside an element (R452): every format raises `UnexpectedEndOfStream` at the end of the input. -/

namespace Sys2Proof.Machine

/-- The result raises `UnexpectedEndOfStream` at the end of the input of `s` and leaves the output (D10, R452); other registers may
have been written on the way. -/
def EndsHere (s : State) (r : Result) : Prop :=
  ∃ u : State, r = .next (raise .unexpectedEndOfStream u.atEnd) ∧ u.inLen = s.inLen ∧ u.outLen = s.outLen ∧ u.outMem = s.outMem

section
variable {s : State} (hs : s.cursorOk)
include hs

theorem field_endsHere {n : Nat} (h : ¬ s.hasBits n) (k : State → Result) : EndsHere s (field n s k) :=
  ⟨s, field_of_not_hasBits hs h k, rfl, rfl, rfl⟩

/-! ## The fixed formats -/

theorem blockRow_endsHere (h : ¬ s.hasBits 3) (btype : BitVec 2) (final : Bool) : EndsHere s (exec (blockRow btype final) s) := by
  have hshort (btype : BitVec 2) (k : State → Result) : EndsHere s (blockHdr final btype s k) :=
    ⟨{ s with bfinal := if s.hasBits 1 then final else s.bfinal }, blockHdr_of_short hs h final btype k, rfl, rfl, rfl⟩
  obtain rfl | rfl | rfl | rfl := btype_cases btype
  · exact hshort 0#2 fun s => .next { s with phase := .storedHdr }
  · show EndsHere s (execFixed final s)
    exact hshort 1#2 _
  · exact hshort 2#2 fun s => .next { s with phase := .dynHdr }
  · exact hshort 3#2 fun s => .next (raise .invalidBlockType s)

/-- The pad is consumed in any case: the cursor is in the input's last byte at the latest (R203, R285). -/
theorem storedHdr_endsHere (h : ¬ (alignByte s).hasBits 32) (len nlen : BitVec 16) : EndsHere s (exec (.storedHdr len nlen) s) := by
  obtain ⟨-, -, -, hsecond, hfirst⟩ := storedHeader s len nlen hs
  by_cases h16 : (alignByte s).hasBits 16
  · exact ⟨{ s with storedLen := len }, hsecond h16 h, rfl, rfl, rfl⟩
  · exact ⟨s, hfirst h16, rfl, rfl, rfl⟩

theorem storedByte_endsHere (h : ¬ s.hasBits 8) (b : Byte) : EndsHere s (exec (.storedByte b) s) := by
  show EndsHere s (execStoredByte b s)
  exact field_endsHere hs h _

theorem dynHdr_endsHere (hlit hdist : BitVec 5) {hclen : BitVec 4} {lens : List (BitVec 3)} (hlen : lens.length = hclen.toNat + 4)
    (h : ¬ s.hasBits (14 + 3 * (hclen.toNat + 4))) : EndsHere s (exec (.dynHdr hlit hdist hclen lens) s) := by
  obtain ⟨u, hexec, hin⟩ := (exec_dynHdr_reads hlit hdist hlen).short s hs h
  have hview := (exec_keeps _ s _ hexec).view
  simp only [Instr.frame, State.mk.injEq] at hview
  obtain ⟨-, -, -, -, -, -, -, -, -, -, -, -, -, -, -, -, -, -, -, -, -, -, -, -, -, houtMem, houtLen, -⟩ := hview
  exact ⟨u, hexec, hin, houtLen, houtMem⟩

/-! ## Symbols -/

omit hs in
theorem lengthOperand_width {i : Instr} {len w : Nat} (h : lengthOperand i = some (len, w)) : i.extraBits.length = w := by
  cases i
  all_goals simp only [lengthOperand, Option.some.injEq, Prod.mk.injEq, reduceCtorEq] at h
  all_goals
    obtain ⟨-, rfl⟩ := h
    rfl

/-- A symbol whose extra field is cut off (R254, R320); `CL16` with no predecessor is another error before that (R255). -/
theorem exec_symbol_endsHere {i : Instr} (hi : i.kind = .clSymbol ∨ i.kind = .llSymbol)
    (hfirst : ∀ e, i = .clRep16 e → s.seqIdx ≠ 0) (h : ¬ s.hasBits i.extraBits.length) : EndsHere s (exec i s) := by
  rcases hlength : lengthOperand i with _ | ⟨len, w⟩
  · cases i
    case clRep16 e =>
      rw [exec_clRep16, execClRep16, if_neg (hfirst e rfl)]
      exact field_endsHere hs (by rwa [Instr.extraBits, fieldBits_length] at h) _
    case clZero17 | clZero18 => exact field_endsHere hs (by rwa [Instr.extraBits, fieldBits_length] at h) _
    case clLen | lit | eob | llInvalid286 | llInvalid287 => exact absurd hs h
    all_goals simp [Instr.kind, lengthOperand] at hi hlength
  · rw [exec_length_eq_field hlength]
    exact field_endsHere hs (by rwa [lengthOperand_width hlength] at h) _

theorem runRow_endsHere {f : Format} {row : Nat → Bits → Instr} (hf : SymbolFormat f row) (ht : f.tree.wf)
    (hrow : ∀ sym ops, (row sym ops).kind = .clSymbol ∨ (row sym ops).kind = .llSymbol)
    (hfirst : ∀ sym n e, Huffman.decode f.tree (remaining s) = some (sym, n) → ∀ ops, row sym ops = .clRep16 e → s.seqIdx ≠ 0)
    (h : decode f (remaining s) = .error .truncated) : EndsHere s (runRow f.tree row s) := by
  have hlen := remaining_length s
  have hbound := hs.1
  rcases hd : Huffman.decode f.tree (remaining s) with _ | ⟨sym, n⟩
  · rcases of_decode_eq_truncated h with ⟨-, hshort⟩ | ⟨i, m, hraw, -⟩
    · rw [runRow, huff_of_none ht hs hd, if_neg (by omega)]
      exact ⟨s, rfl, rfl, rfl, rfl⟩
    · rw [decodeRaw_of_decode_none hf hd] at hraw
      cases hraw
  · obtain ⟨-, -, hn⟩ := Huffman.decode_bounds ht hd
    have hbits : s.hasBits n := ⟨by omega, hs.2⟩
    have hpos := skip_bitpos_toNat hbits
    rw [runRow_of_decode hf hs ht hd]
    refine exec_symbol_endsHere (s := s.skip n) (hasBits_skip (n := 0) hbits) (hrow _ _) (fun e he => hfirst sym n e hd _ he) ?_
    rcases of_decode_eq_truncated h with ⟨hraw, -⟩ | ⟨i, m, hraw, hshort⟩
    all_goals rw [decodeRaw_of_decode hf hd] at hraw
    · cases hraw
    · obtain ⟨rfl, rfl⟩ := Prod.mk.inj (Option.some.inj hraw)
      rintro ⟨hle, -⟩
      rw [skip_inLen] at hle
      omega

/-! ## Every format -/

omit hs in
/-- In a fixed format the element is there but for its last bits. -/
theorem lt_of_truncated {f : Format} {bits : Bits} {i : Instr} {n : Nat} (hraw : decodeRaw f bits = some (i, n))
    (h : decode f bits = .error .truncated) : bits.length < n := by
  rcases of_decode_eq_truncated h with ⟨hnone, -⟩ | ⟨i', n', hsome, hshort⟩
  · exact nomatch hraw.symm.trans hnone
  · obtain ⟨-, rfl⟩ := Prod.mk.inj (Option.some.inj (hraw.symm.trans hsome))
    exact hshort

omit hs in
theorem clRow_eq_clRep16 {sym : Nat} {ops : Bits} {e : BitVec 2} (h : clRow sym ops = .clRep16 e) : sym = 16 := by
  unfold clRow at h
  split_ifs at h with h15 h16
  exact h16

omit hs in
theorem llRow_kind {sym : Nat} (ops : Bits) : (llRow sym ops).kind = .llSymbol := by
  by_cases h : sym < 288
  · exact (isRow_llRow h ops).kind
  · obtain ⟨k, rfl⟩ : ∃ k, sym = k + 288 := ⟨sym - 288, by omega⟩
    rfl

/-- The step that reads a truncated element (R452). -/
theorem engineStep_endsHere {f : Format} (hformat : s.format = some f) (ht : f.tree.wf)
    (hfirst : s.phase = .dynSeq → s.seqIdx = 0 → ∀ n, Huffman.decode f.tree (remaining s) ≠ some (16, n))
    (h : decode f (remaining s) = .error .truncated) : EndsHere s (engineStep s) := by
  have hlen := remaining_length s
  have hbound := hs.1
  unfold State.format at hformat
  split at hformat
  case h_1 hphase =>
    obtain rfl := Option.some.inj hformat
    have hshort := lt_of_truncated rfl h
    rw [engineStep, hphase]
    exact blockRow_endsHere hs (fun hbits => by have := hbits.1; omega) _ _
  case h_2 hphase =>
    obtain rfl := Option.some.inj hformat
    have hshort := lt_of_truncated rfl h
    have halign := alignByte_bitpos_toNat hs
    rw [padBits] at hshort
    rw [engineStep, hphase]
    exact storedHdr_endsHere hs (fun hbits => by have hle := hbits.1; rw [alignByte_inLen] at hle; omega) _ _
  case h_3 hphase =>
    obtain rfl := Option.some.inj hformat
    have hshort := lt_of_truncated rfl h
    rw [engineStep, hphase]
    exact storedByte_endsHere hs (fun hbits => by have := hbits.1; omega) _
  case h_4 hphase =>
    obtain rfl := Option.some.inj hformat
    have hshort := lt_of_truncated rfl h
    rw [engineStep, hphase, dynHdrElem_window]
    refine dynHdr_endsHere hs _ _ (getFields3_length _ _) fun hbits => ?_
    have hle := hbits.1
    rw [clCount] at hshort
    omega
  case h_5 hphase =>
    obtain ⟨t, htree, rfl⟩ := Option.map_eq_some_iff.mp hformat
    rw [engineStep, hphase, htree]
    refine runRow_endsHere hs (symbolFormat_clSymbol t) ht (fun _ _ => .inl (clRow_kind _ _)) (fun sym n e hd ops he hidx => ?_) h
    obtain rfl := clRow_eq_clRep16 he
    exact hfirst hphase hidx n hd
  case h_6 hphase =>
    obtain ⟨t, htree, rfl⟩ := Option.map_eq_some_iff.mp hformat
    rw [engineStep, hphase, htree]
    refine runRow_endsHere hs (symbolFormat_llSymbol t) ht (fun _ _ => .inr (llRow_kind _)) (fun sym n e hd ops he => ?_) h
    have hkind := llRow_kind (sym := sym) ops
    rw [he] at hkind
    cases hkind
  all_goals cases hformat

end

/-- Settles O16: each format raises it where its last bits are missing, and `CL16` is checked before its extra bits. -/
theorem endOfStreamAtTheEnd : Obligations.EndOfStreamAtTheEnd := by
  refine ⟨fun s f hq hs hformat ht hfirst h => ?_, fun s tCL n hq hs hphase htree ht hidx hd => ?_,
    fun s t hs hphase ht herror hcode => (engineStep_keeps_hostView s t ht).atEnd hs hphase herror hcode⟩
  · obtain ⟨u, hstep, hin, houtLen, houtMem⟩ := engineStep_endsHere hs hformat ht hfirst h
    have hpos : u.atEnd.bitpos.toNat = 8 * s.inLen.toNat := by
      rw [← hin]
      exact atEnd_bitpos_toNat (by rw [hin]; exact hs.2)
    exact ⟨_, (step_of_empty hq).trans hstep, rfl, rfl, hpos, rfl, houtLen, houtMem⟩
  · rw [step_of_empty hq, engineStep, hphase, htree]
    exact (runRow_of_decode (symbolFormat_clSymbol tCL) hs ht hd).trans (execClRep16_of_first (s := s.skip n) hidx _)

end Sys2Proof.Machine
end

section
/-! What a meaning reads of the state (R72, R73, R293): a calculus for "a register that `m` puts aside does not influence what the
meaning answers, up to registers that no later step reads". -/

namespace Sys2Proof.Machine

/-! ## The views -/

/-- What outlives a block (R293): the registers that later blocks or the host read. -/
def State.bare (s : State) : State :=
  { s with
    bfinal := false, btype := 0, llLen := tableOf 4 288 fun _ => 0, dLen := tableOf 4 32 fun _ => 0
    clLen := tableOf 3 19 fun _ => 0, tLL := none, tD := none, tCL := none, hlit := 0, hdist := 0, hclen := 0
    seq := tableOf 4 320 fun _ => 0, seqIdx := 0, seqTotal := 0, storedLen := 0, storedNlen := 0, storedRem := 0
    matchLen := 0, matchDist := 0, copyRem := 0 }

/-- A stored or dynamic header still knows `BFINAL`. -/
def State.blockView (s : State) : State := { s.bare with bfinal := s.bfinal }

/-- Stored data are counted down (R286). -/
def State.storedView (s : State) : State := { s.blockView with storedRem := s.storedRem }

/-- A Huffman block reads both trees (R287). -/
def State.symView (s : State) : State := { s.blockView with tLL := s.tLL, tD := s.tD }

/-- A copy goes back to the symbols (R402). -/
def State.copyView (s : State) : State := { s.symView with matchDist := s.matchDist, copyRem := s.copyRem }

theorem live_of_outside {s : State} (h : s.phase.inBlock = false) : s.live = s.bare := by
  have hout {p : Phase} (hp : p.inBlock = true) : s.phase ≠ p := fun hphase => Bool.eq_false_iff.mp h (hphase ▸ hp)
  simp [State.live, State.bare, h, hout (p := .sym) rfl, hout (p := .copy) rfl, hout (p := .dynSeq) rfl,
    hout (p := .storedData) rfl]

/-! ## The statement about one meaning -/

/-- What later steps read of an answer. -/
def liveResult (r : Result) : Result :=
  match r with
  | .next t => .next t.live
  | .fault f => .fault f
  | .refused f => .refused f

/-- In the states `P` the meaning `f` answers the same, up to what no later step reads, where `m` puts registers aside. -/
def Ignores (P : State → Prop) (m : State → State) (f : State → Result) : Prop :=
  ∀ s, P s → liveResult (f (m s)) = liveResult (f s)

/-- `m` puts aside registers that the reader, the output and `RAISE` do not use. -/
structure Mask (m : State → State) : Prop where
  bitpos : ∀ s, (m s).bitpos = s.bitpos := by intros; rfl
  inLen : ∀ s, (m s).inLen = s.inLen := by intros; rfl
  window : ∀ s, window (m s) = window s := by intros; rfl
  outLen : ∀ s, (m s).outLen = s.outLen := by intros; rfl
  outCap : ∀ s, (m s).outCap = s.outCap := by intros; rfl
  skip : ∀ n s, m (s.skip n) = (m s).skip n := by intros; rfl
  atEnd : ∀ s : State, m s.atEnd = (m s).atEnd := by intros; rfl
  appended : ∀ b s, m (s.appended b) = (m s).appended b := by intros; rfl
  bare : ∀ s, (m s).bare = s.bare := by
    intros; simp only [State.copyView, State.symView, State.storedView, State.blockView, State.bare]

/-- `RAISE` ends the block, and nothing of it is read again (R460). -/
theorem raise_live (e : Err) (s : State) : (raise e s).live = raise e s.bare := live_of_outside rfl

theorem Mask.raise {m : State → State} (hm : Mask m) (e : Err) (s : State) :
    (Machine.raise e (m s)).live = (Machine.raise e s).live := by
  rw [raise_live, raise_live, hm.bare]

namespace Ignores
variable {P : State → Prop} {m : State → State}

/-! ## One rule per way a meaning is built -/

theorem ofNext {g : State → State} (hg : ∀ s, P s → (g (m s)).live = (g s).live := by intros; rfl) :
    Ignores P m fun s => .next (g s) := fun s hs => congrArg Host.Outcome.next (hg s hs)

theorem ofFault (f : Fault) : Ignores P m fun _ => .fault f := fun _ _ => rfl

/-- The register that `g` writes may be shown afterwards. -/
theorem ofUpdate {m' g : State → State} {f : State → Result} (hf : Ignores P m' f)
    (hP : ∀ s, P s → P (g s) := by exact fun _ h => h) (hPm : ∀ s, P s → P (g (m s)) := by exact fun _ h => h)
    (hg : ∀ s, P s → m' (g (m s)) = m' (g s) := by
      intros; simp only [State.copyView, State.symView, State.storedView, State.blockView, State.bare, alignByte]) :
    Ignores P m fun s => f (g s) := by
  intro s hs
  rw [← hf (g (m s)) (hPm s hs), hg s hs, hf (g s) (hP s hs)]

theorem ofIte {p : State → Prop} [∀ s, Decidable (p s)] {f g : State → Result} (hf : Ignores P m f) (hg : Ignores P m g)
    (hp : ∀ s, p (m s) ↔ p s := by exact fun _ => Iff.rfl) : Ignores P m fun s => if p s then f s else g s := by
  intro s hs
  by_cases h : p s
  · simpa only [(hp s).mpr h, h, if_true] using hf s hs
  · simpa only [mt (hp s).mp h, h, if_false] using hg s hs

/-- A meaning may look something up that `m` shows. -/
theorem ofLookup {α : Type} {a : State → α} {f : α → State → Result} (hf : ∀ x, Ignores P m (f x))
    (ha : ∀ s, P s → a (m s) = a s := by intros; rfl) : Ignores P m fun s => f (a s) s := by
  intro s hs
  simp only [ha s hs]
  exact hf (a s) s hs

variable (hm : Mask m)
include hm

theorem ofRaise (e : Err) : Ignores P m fun s => .next (raise e s) := ofNext fun s _ => hm.raise e s

theorem ofField {n : Nat} {k : State → Result} (hk : Ignores P m k) (hP : ∀ s, P s → P (s.skip n) := by exact fun _ h => h) :
    Ignores P m fun s => field n s k := by
  intro s hs
  show liveResult (field n (m s) k) = liveResult (field n s k)
  by_cases hbits : s.bitpos.toNat + n ≤ 8 * s.inLen.toNat
  · rw [field_of_hasBits hbits, field_of_hasBits (by rwa [hm.bitpos, hm.inLen]), ← hm.skip]
    exact hk _ (hP s hs)
  · have hshort := Nat.not_le.mp hbits
    rw [field_of_short hshort, field_of_short (by rwa [hm.bitpos, hm.inLen]), ← hm.atEnd]
    exact congrArg Host.Outcome.next (hm.raise _ _)

theorem ofAppend {b : State → Byte} {k : State → Result} (hk : Ignores P m k)
    (hP : ∀ b s, P s → P (s.appended b) := by exact fun _ _ h => h) (hb : ∀ s, b (m s) = b s := by intros; rfl) :
    Ignores P m fun s => append (b s) s k := by
  intro s hs
  simp only [hb]
  by_cases hroom : s.outLen = s.outCap
  · rw [append_of_full hroom, append_of_full (by rwa [hm.outLen, hm.outCap])]
    exact congrArg Host.Outcome.next (hm.raise _ s)
  · have happend (u : State) (hu : u.outLen ≠ u.outCap) : append (b s) u k = k (u.appended (b s)) := append_of_room hu k
    rw [happend s hroom, happend (m s) (by rwa [hm.outLen, hm.outCap]), ← hm.appended]
    exact hk _ (hP _ s hs)

theorem ofHuff {tree : Tree} {k : Nat → State → Result} (hk : ∀ sym, Ignores P m (k sym))
    (hP : ∀ n s, P s → P (s.skip n) := by exact fun _ _ h => h) : Ignores P m fun s => huff tree s k := by
  intro s hs
  rcases h : Huffman.decode tree (window s) with _ | ⟨sym, n⟩
  · simpa only [huff, hm.window, h] using ofField hm (ofRaise hm .invalidHuffmanCode) (hP _) s hs
  · simpa only [huff, hm.window, h] using ofField hm (hk sym) (hP n) s hs

omit hm in
theorem ofBuildThen {ls : State → List Nat} {g : State → State} {k : Tree → State → Result} (hk : ∀ tree, Ignores P m (k tree))
    (hraise : ∀ s, P s → (raise .invalidHuffmanTree (g (m s))).live = (raise .invalidHuffmanTree (g s)).live := by intros; rfl)
    (hls : ∀ s, P s → ls (m s) = ls s := by intros; rfl) :
    Ignores P m fun s => buildThen (ls s) (g s) fun tree => k tree s := by
  intro s hs
  simp only [hls s hs]
  rcases h : Huffman.build (ls s) with _ | tree
  · simp only [buildThen_none h]
    exact congrArg Host.Outcome.next (hraise s hs)
  · simpa only [buildThen_some h] using hk tree s hs

end Ignores

/-! ## What each phase shows -/

section
variable {s : State}

theorem live_of_storedHdr (h : s.phase = .storedHdr) : s.live = s.blockView := by
  simp [State.live, State.blockView, State.bare, h, Phase.inBlock]

theorem live_of_dynHdr (h : s.phase = .dynHdr) : s.live = s.blockView := by
  simp [State.live, State.blockView, State.bare, h, Phase.inBlock]

theorem live_of_storedData (h : s.phase = .storedData) : s.live = s.storedView := by
  simp [State.live, State.storedView, State.blockView, State.bare, h, Phase.inBlock]

theorem live_of_sym (h : s.phase = .sym) : s.live = s.symView := by
  simp [State.live, State.symView, State.blockView, State.bare, h, Phase.inBlock]

theorem live_of_copy (h : s.phase = .copy) : s.live = s.copyView := by
  simp [State.live, State.copyView, State.symView, State.blockView, State.bare, h, Phase.inBlock]

end

/-- In a phase with the view `view`, states of the same view are read alike. -/
theorem live_congr {p : Phase} {view : State → State} (hlive : ∀ {s : State}, s.phase = p → s.live = view s) {s t : State}
    (hs : s.phase = p) (ht : t.phase = p) (h : view s = view t) : s.live = t.live := by
  rw [hlive hs, hlive ht, h]

theorem mask_bare : Mask State.bare := {}
theorem mask_blockView : Mask State.blockView := {}
theorem mask_storedView : Mask State.storedView := {}
theorem mask_symView : Mask State.symView := {}
theorem mask_copyView : Mask State.copyView := {}

end Sys2Proof.Machine
end

section
/-! No step reads a register that the statement counts as dead (R72, R73, R293): the elements phase by phase, then the host. -/

namespace Sys2Proof.Machine

open Ignores

/-! ## The end of a block -/

/-- Behind a block only what outlives it is read (R290, R293). -/
theorem blockEnd_live (s : State) : (blockEnd s).live = (blockEnd s).bare :=
  live_of_outside (phaseAfterBlock_outside s.bfinal s.blockStep).2

theorem blockEnd_ignores {P : State → Prop} {m g : State → State}
    (hg : ∀ s, P s → (blockEnd (g (m s))).bare = (blockEnd (g s)).bare := by intros; rfl) :
    Ignores P m fun s => .next (blockEnd (g s)) :=
  ofNext fun s hs => by rw [blockEnd_live, blockEnd_live, hg s hs]

/-! ## Block headers and stored blocks -/

section
variable {P : State → Prop}

/-- Before a header nothing of a block is read (R280). -/
theorem blockHdr_ignores (final : Bool) (btype : BitVec 2) {k : State → Result} (hk : Ignores (fun _ => True) State.blockView k) :
    Ignores (fun _ => True) State.bare fun s => blockHdr final btype s k :=
  ofField mask_bare <| ofUpdate (f := fun s => field 2 s _) (g := fun s => { s with bfinal := final }) <|
  ofField mask_blockView <| ofUpdate (f := k) (g := fun s => { s with btype := btype }) hk

theorem buildTrees_ignores {m : State → State} {ll d : State → List Nat} {g : State → State}
    (hll : ∀ s, P s → ll (m s) = ll s := by intros; rfl) (hd : ∀ s, P s → d (m s) = d s := by intros; rfl)
    (hraise : ∀ tree s, P s → (raise .invalidHuffmanTree { g (m s) with tLL := tree }).live =
      (raise .invalidHuffmanTree { g s with tLL := tree }).live := by intros; rfl)
    (hnext : ∀ tLL tD s, P s → State.live { g (m s) with tLL := some tLL, tD := some tD, phase := .sym } =
      State.live { g s with tLL := some tLL, tD := some tD, phase := .sym } := by intros; rfl) :
    Ignores P m fun s => buildTrees (ll s) (d s) (g s) :=
  ofBuildThen (hls := hll) (hraise := fun s hs => hraise none s hs) fun tLL =>
  ofBuildThen (hls := hd) (g := fun s => { g s with tLL := some tLL }) (hraise := hraise (some tLL)) fun tD =>
  ofNext (hnext tLL tD)

theorem execFixed_ignores (final : Bool) : Ignores (fun _ => True) State.bare (execFixed final) :=
  blockHdr_ignores final 1#2 buildTrees_ignores

theorem blockRow_ignores (btype : BitVec 2) (final : Bool) : Ignores (fun _ => True) State.bare (exec (blockRow btype final)) := by
  obtain rfl | rfl | rfl | rfl := btype_cases btype
  · exact blockHdr_ignores final 0#2 (ofNext (g := fun s => { s with phase := .storedHdr }))
  · exact execFixed_ignores final
  · exact blockHdr_ignores final 2#2 (ofNext (g := fun s => { s with phase := .dynHdr }))
  · exact blockHdr_ignores final 3#2 (ofRaise mask_blockView .invalidBlockType)

theorem execStoredHdr_ignores (len nlen : BitVec 16) : Ignores (fun _ => True) State.blockView (execStoredHdr len nlen) :=
  ofUpdate (g := alignByte) <| ofField mask_blockView <|
  ofUpdate (f := fun s => field 16 s _) (g := fun s => { s with storedLen := len }) <| ofField mask_blockView <|
  ofIte (ofUpdate (g := fun s => { s with storedNlen := nlen }) (ofRaise mask_blockView .storedBlockLengthMismatch)) <|
  ofIte (blockEnd_ignores (g := fun s => { s with storedNlen := nlen, storedRem := len })) <|
  ofNext (g := fun s => { s with storedNlen := nlen, storedRem := len, phase := .storedData })

/-- A stored byte reads `STORED_REM` (R286). -/
theorem execStoredByte_ignores (b : Byte) : Ignores (fun s => s.phase = .storedData) State.storedView (execStoredByte b) := by
  refine ofField mask_storedView <| ofAppend (b := fun _ => b) mask_storedView ?_
  refine ofNext (g := fun s => if s.storedRem - 1 = 0 then blockEnd { s with storedRem := s.storedRem - 1 }
    else { s with storedRem := s.storedRem - 1 }) fun s hs => ?_
  show State.live (if s.storedRem - 1 = 0 then _ else _) = State.live (if s.storedRem - 1 = 0 then _ else _)
  by_cases hlast : s.storedRem - 1 = 0
  · rw [if_pos hlast, if_pos hlast, blockEnd_live, blockEnd_live]
    rfl
  · rw [if_neg hlast, if_neg hlast]
    refine live_congr live_of_storedData hs hs ?_
    simp only [State.storedView, State.blockView, State.bare]

end

/-! ## Literals, lengths and distances -/

section

/-- A Huffman block's symbols stand in `SYM`. -/
theorem symView_live {s : State} (h : s.phase = .sym) : s.symView.live = s.live := by
  refine live_congr live_of_sym h h ?_
  simp only [State.symView, State.blockView, State.bare]

theorem execLit_ignores (b : Byte) : Ignores (fun s => s.phase = .sym) State.symView (execLit b) :=
  ofAppend (b := fun _ => b) mask_symView (ofNext fun _ hs => symView_live hs)

/-- While a distance is read, `MATCH_LEN` and `MATCH_DIST` are kept for the copy (R320, R360). -/
def State.matchView (s : State) : State := { s.symView with matchLen := s.matchLen }

theorem mask_matchView : Mask State.matchView where
  bare s := by simp only [State.matchView, State.symView, State.blockView, State.bare]

theorem copyStart_ignores (dist : BitVec 16) :
    Ignores (fun s => s.phase = .sym) State.matchView fun s => .next (copyStart { s with matchDist := dist }) := by
  have hcases (s : State) : Host.Outcome.next (copyStart { s with matchDist := dist }) =
      if dist.toNat < 1 ∨ s.outLen.toNat < dist.toNat then .next (raise .invalidDistance { s with matchDist := dist })
      else (.next { s with matchDist := dist, copyRem := s.matchLen, phase := .copy } : Result) := apply_ite _ _ _ _
  rw [funext hcases]
  exact ofIte (ofNext (g := fun s => raise .invalidDistance { s with matchDist := dist }))
    (ofNext (g := fun s => { s with matchDist := dist, copyRem := s.matchLen, phase := .copy }))

theorem exec_dRow_ignores (sym : Nat) (ops : Bits) :
    Ignores (fun s => s.phase = .sym) State.matchView (exec (dRow sym ops)) := by
  by_cases hvalid : sym ≤ 29
  · obtain ⟨-, htable, -⟩ := matchTables
    rw [funext (exec_distance_eq_field (htable sym ops hvalid))]
    exact ofField mask_matchView (copyStart_ignores _)
  by_cases h30 : sym = 30
  · subst h30
    exact ofRaise mask_matchView .invalidSymbol
  · obtain ⟨k, rfl⟩ : ∃ k, sym = k + 31 := ⟨sym - 31, by omega⟩
    exact ofRaise mask_matchView .invalidSymbol

/-- `DISTANCE` reads `T_D`, `MATCH_LEN` and the output's length (R360). -/
theorem distance_ignores : Ignores (fun s => s.phase = .sym) State.matchView distance := by
  intro s hs
  rcases htree : s.tD with _ | tree
  · simp only [distance, show s.matchView.tD = none from htree, htree]
  · rw [distance_eq_runRow htree, distance_eq_runRow (s := s.matchView) htree]
    exact ofHuff mask_matchView (fun sym => ofLookup (a := window) (f := fun bits => exec (dRow sym bits))
      fun bits => exec_dRow_ignores sym bits) (fun _ _ h => h) s hs

theorem exec_length_ignores {i : Instr} {len w : Nat} (h : lengthOperand i = some (len, w)) :
    Ignores (fun s => s.phase = .sym) State.symView (exec i) := by
  rw [funext (exec_length_eq_field h)]
  exact ofField mask_symView (ofUpdate (f := distance) (g := fun s => { s with matchLen := BitVec.ofNat 9 len })
    distance_ignores (hg := fun _ _ => by simp only [State.matchView, State.symView, State.blockView, State.bare]))

theorem llRow_ignores (sym : Nat) (ops : Bits) : Ignores (fun s => s.phase = .sym) State.symView (exec (llRow sym ops)) := by
  by_cases hlit : sym < 256
  · rw [llRow_of_lt hlit]
    exact execLit_ignores _
  by_cases heob : sym = 256
  · subst heob
    exact blockEnd_ignores (g := fun s => s)
  by_cases hvalid : sym ≤ 285
  · obtain ⟨htable, -⟩ := matchTables
    exact exec_length_ignores (htable sym ops (by omega) hvalid)
  by_cases h286 : sym = 286
  · subst h286
    exact ofRaise mask_symView .invalidSymbol
  · obtain ⟨k, rfl⟩ : ∃ k, sym = k + 287 := ⟨sym - 287, by omega⟩
    rcases k with _ | k
    all_goals exact ofRaise mask_symView .invalidSymbol

/-- A copy step reads its distance, its count and the output (R402). -/
theorem copyStep_ignores : Ignores (fun s => s.phase = .copy) State.copyView copyStep := by
  refine ofIte (ofFault .copySourceAbsent) <| ofAppend mask_copyView
    (b := fun s => Memory.read s.outMem (s.outLen.toNat - s.matchDist.toNat)) <| ofNext
    (g := fun s => { s with copyRem := s.copyRem - 1, phase := if s.copyRem = 1 then .sym else s.phase }) fun s hs => ?_
  by_cases hlast : s.copyRem = 1
  · refine live_congr live_of_sym (if_pos hlast) (if_pos hlast) ?_
    simp only [State.copyView, State.symView, State.blockView, State.bare, hlast, if_true]
  · refine live_congr live_of_copy ((if_neg hlast).trans hs) ((if_neg hlast).trans hs) ?_
    simp only [State.copyView, State.symView, State.blockView, State.bare, hlast, if_false]

end

end Sys2Proof.Machine
end

section
/-! The descriptor reads of `SEQ` only what it has written (R250, R253, R259). -/

namespace Sys2Proof.Machine

open Ignores

/-! ## The part of `SEQ` that is read -/

/-- The first `n` entries of `SEQ`, the others put aside. -/
def seqPrefix (n : Nat) (q : Vector (BitVec 4) 320) : Vector (BitVec 4) 320 :=
  tableOf 4 320 fun i => if i < n then tableGet q i else 0

theorem seqPrefix_congr {n : Nat} {q q' : Vector (BitVec 4) 320} (h : ∀ i, i < n → tableGet q i = tableGet q' i) :
    seqPrefix n q = seqPrefix n q' := by
  unfold seqPrefix
  congr 1
  funext i
  by_cases hi : i < n
  · rw [if_pos hi, if_pos hi, h i hi]
  · rw [if_neg hi, if_neg hi]

theorem tableGet_seqPrefix {n i : Nat} (hi : i < n) (q : Vector (BitVec 4) 320) :
    tableGet (seqPrefix n q) i = tableGet q i := by
  rw [seqPrefix, tableGet_tableOf, if_pos hi]
  by_cases h : i < 320
  · rw [if_pos h]
  · rw [if_neg h, tableGet_beyond _ _ (by omega)]

/-- In a descriptor the tree, the counts and the sequence so far are read (R253). -/
def State.seqView (s : State) : State :=
  { s.blockView with
    tCL := s.tCL, hlit := s.hlit, hdist := s.hdist, seqIdx := s.seqIdx, seqTotal := s.seqTotal
    seq := seqPrefix s.seqIdx.toNat s.seq }

theorem live_of_dynSeq {s : State} (h : s.phase = .dynSeq) : s.live = s.seqView := by
  simp [State.live, State.seqView, seqPrefix, State.blockView, State.bare, h, Phase.inBlock]

theorem mask_seqView : Mask State.seqView where
  bare s := by simp only [State.seqView, State.blockView, State.bare]

@[simp] theorem seqView_seqIdx (s : State) : s.seqView.seqIdx = s.seqIdx := rfl

/-! ## The header (R250) -/

/-- A dynamic header keeps its two counts and the lengths it has read. -/
def State.headerView (s : State) : State := { s.blockView with hlit := s.hlit, hdist := s.hdist, clLen := s.clLen }

theorem mask_headerView : Mask State.headerView where
  bare s := by simp only [State.headerView, State.blockView, State.bare]

theorem clLengths_ignores (ils : List (Nat × BitVec 3)) {k : State → Result}
    (hk : Ignores (fun _ => True) State.headerView k) : Ignores (fun _ => True) State.headerView fun s => clLengths ils s k := by
  induction ils with
  | nil => exact hk
  | cons il rest ih =>
    exact ofField mask_headerView <| ofUpdate (f := fun s => clLengths rest s k)
      (g := fun s => { s with clLen := tableSet s.clLen il.1 il.2 }) ih
      (hg := fun _ _ => by simp only [State.headerView, State.blockView, State.bare])

theorem execDynHdr_ignores (hlit hdist : BitVec 5) (hclen : BitVec 4) (lens : List (BitVec 3)) :
    Ignores (fun _ => True) State.blockView (execDynHdr hlit hdist hclen lens) :=
  ofField mask_blockView <| ofUpdate (f := fun s => field 5 s _) (m' := fun s => { s.blockView with hlit := s.hlit })
    (g := fun s => { s with hlit := hlit }) <|
  ofField {} <| ofUpdate (f := fun s => field 4 s _) (m' := fun s => { s.blockView with hlit := s.hlit, hdist := s.hdist })
    (g := fun s => { s with hdist := hdist }) <|
  ofField {} <| ofUpdate (f := fun s => clLengths (clOrder.zip lens) s _)
    (g := fun s => { s with hclen := hclen, clLen := tableOf 3 19 fun _ => 0 })
    (hg := fun _ _ => by simp only [State.headerView, State.blockView, State.bare]) <|
  clLengths_ignores _ <| ofBuildThen fun tCL =>
  ofNext (g := fun s => { s with tCL := some tCL, seqTotal := seqTotalOf hlit hdist, seqIdx := 0, phase := .dynSeq })
    fun s _ => by
      refine live_congr live_of_dynSeq rfl rfl ?_
      have hempty : seqPrefix (0 : BitVec 9).toNat (tableOf 4 320 fun _ => 0) = seqPrefix (0 : BitVec 9).toNat s.seq :=
        seqPrefix_congr fun i hi => absurd hi (Nat.not_lt_zero i)
      simp only [State.seqView, State.headerView, State.blockView, State.bare, hempty]

/-! ## The end of the sequence (R259, R260) -/

/-- What holds while code-length symbols are read (R253). -/
def State.SeqOk (s : State) : Prop :=
  s.phase = .dynSeq ∧ s.seqIdx.toNat < s.seqTotal.toNat ∧ s.seqTotal = seqTotalOf s.hlit s.hdist

theorem State.SeqOk.total_le {s : State} (h : s.SeqOk) : s.seqTotal.toNat ≤ 320 := by
  obtain ⟨-, -, htotal⟩ := h
  have hlit := s.hlit.isLt
  have hdist := s.hdist.isLt
  rw [htotal, seqTotalOf_toNat]
  omega

/-- The two slices lie below `SEQ_TOTAL` (R259). -/
theorem slices_congr {s s' : State} (hhlit : s'.hlit = s.hlit) (hhdist : s'.hdist = s.hdist)
    (hseq : ∀ i, i < (seqTotalOf s.hlit s.hdist).toNat → tableGet s'.seq i = tableGet s.seq i) :
    sliceLL s' = sliceLL s ∧ sliceD s' = sliceD s := by
  rw [seqTotalOf_toNat] at hseq
  unfold sliceLL sliceD
  rw [hhlit, hhdist]
  constructor
  · congr 1
    funext i
    by_cases hi : i ≤ s.hlit.toNat + 256
    · rw [if_pos hi, if_pos hi, hseq i (by omega)]
    · rw [if_neg hi, if_neg hi]
  · congr 1
    funext i
    by_cases hi : i ≤ s.hdist.toNat
    · rw [if_pos hi, if_pos hi, hseq _ (by omega)]
    · rw [if_neg hi, if_neg hi]

/-- Two trees built from the same lengths leave nothing of the descriptor to read (R260). -/
theorem buildTrees_live (ll d : List Nat) {s s' : State} (h : s'.blockView = s.blockView) :
    liveResult (buildTrees ll d s') = liveResult (buildTrees ll d s) := by
  have hview : Ignores (fun _ => True) State.blockView (buildTrees ll d) :=
    buildTrees_ignores (ll := fun _ => ll) (d := fun _ => d) (g := fun s => s)
  rw [← hview s' trivial, h, hview s trivial]

/-- The end of a code-length symbol reads of `SEQ` what stands below `SEQ_IDX` (R253, R260). -/
theorem clFinish_live {s : State} (hs : s.SeqOk) {idx : BitVec 9} {q q' : Vector (BitVec 4) 320}
    (hq : ∀ i, i < idx.toNat → tableGet q' i = tableGet q i) :
    liveResult (clFinish { s.seqView with seq := q', seqIdx := idx }) = liveResult (clFinish { s with seq := q, seqIdx := idx }) := by
  obtain ⟨hphase, -, htotal⟩ := hs
  by_cases hidx : idx = s.seqTotal
  · rw [clFinish_of_complete (s := { s.seqView with seq := q', seqIdx := idx }) hidx,
      clFinish_of_complete (s := { s with seq := q, seqIdx := idx }) hidx]
    rw [hidx, htotal] at hq
    obtain ⟨hLL, hD⟩ := slices_congr (s := { s with seq := q, seqIdx := idx })
      (s' := { s.seqView with seq := q', seqIdx := idx }) rfl rfl hq
    rw [descriptorFinish, descriptorFinish, hLL, hD]
    exact buildTrees_live _ _ (by simp only [State.seqView, State.blockView, State.bare])
  · rw [clFinish_of_incomplete (s := { s.seqView with seq := q', seqIdx := idx }) hidx,
      clFinish_of_incomplete (s := { s with seq := q, seqIdx := idx }) hidx]
    refine congrArg Host.Outcome.next (live_congr live_of_dynSeq hphase hphase ?_)
    simp only [State.seqView, State.blockView, State.bare, seqPrefix_congr hq]

/-! ## Code-length symbols (R254–R257) -/

theorem clRun_ignores (r : Nat) (v : BitVec 4) : Ignores State.SeqOk State.seqView (clRun r v) := by
  intro s hs
  have hidx := hs.2.1
  have htotal := hs.total_le
  by_cases hpast : s.seqTotal.toNat < s.seqIdx.toNat + r
  · rw [clRun_of_past hpast, clRun_of_past (s := s.seqView) hpast]
    exact congrArg Host.Outcome.next (mask_seqView.raise _ s)
  · have hle := Nat.not_lt.mp hpast
    rw [clRun_of_within hle, clRun_of_within (s := s.seqView) hle]
    refine clFinish_live hs fun i hi => ?_
    rw [seqView_seqIdx, seqIdx_add_toNat hle] at hi
    rw [seqView_seqIdx]
    rw [tableGet_tableFill r _ _ v (by omega), tableGet_tableFill r _ _ v (by omega)]
    by_cases hnew : s.seqIdx.toNat ≤ i
    · rw [if_pos ⟨hnew, hi⟩, if_pos ⟨hnew, hi⟩]
    · rw [if_neg (fun h => hnew h.1), if_neg (fun h => hnew h.1)]
      exact tableGet_seqPrefix (Nat.not_le.mp hnew) s.seq

theorem execClLen_ignores (v : BitVec 4) : Ignores State.SeqOk State.seqView (execClLen v) := by
  intro s hs
  have hidx := hs.2.1
  have htotal := hs.total_le
  refine clFinish_live hs fun i hi => ?_
  rw [seqView_seqIdx] at hi ⊢
  have hadd : (s.seqIdx + 1).toNat = s.seqIdx.toNat + 1 := seqIdx_add_toNat (r := 1) hidx
  rw [tableGet_tableSet, tableGet_tableSet]
  by_cases hnew : i = s.seqIdx.toNat
  · rw [if_pos ⟨hnew, by omega⟩, if_pos ⟨hnew, by omega⟩]
  · rw [if_neg (fun h => hnew h.1), if_neg (fun h => hnew h.1)]
    exact tableGet_seqPrefix (by omega) s.seq

/-- `CL16` reads the entry before `SEQ_IDX` (R255). -/
theorem execClRep16_ignores (e : BitVec 2) : Ignores State.SeqOk State.seqView (exec (.clRep16 e)) := by
  intro s hs
  by_cases hidx : s.seqIdx = 0
  · rw [execClRep16_of_first hidx, execClRep16_of_first (s := s.seqView) hidx]
    exact congrArg Host.Outcome.next (mask_seqView.raise _ s)
  · have hlt := hs.2.1
    have htotal := hs.total_le
    have hpos : s.seqIdx.toNat ≠ 0 := fun h => hidx (BitVec.eq_of_toNat_eq h)
    have hlast : tableGet s.seqView.seq (s.seqView.seqIdx.toNat - 1) = tableGet s.seq (s.seqIdx.toNat - 1) := by
      rw [seqView_seqIdx]
      exact tableGet_seqPrefix (by omega) s.seq
    rw [exec_of_isRun (s := s) (.inl ⟨e, rfl, rfl, rfl, hidx, rfl⟩),
      exec_of_isRun (s := s.seqView) (.inl ⟨e, rfl, rfl, rfl, hidx, rfl⟩), hlast]
    exact ofField mask_seqView (clRun_ignores _ _) (fun _ h => h) s hs

theorem clRow_ignores (sym : Nat) (ops : Bits) : Ignores State.SeqOk State.seqView (exec (clRow sym ops)) := by
  unfold clRow
  split_ifs
  · exact execClLen_ignores _
  · exact execClRep16_ignores _
  · exact ofField mask_seqView (clRun_ignores _ _)
  · exact ofField mask_seqView (clRun_ignores _ _)

end Sys2Proof.Machine
end

section
/-! Two states that are read alike step alike (R72, R73, R293). -/

namespace Sys2Proof.Machine

open Ignores

/-! ## Putting aside what is put aside -/

theorem live_live (s : State) : s.live.live = s.live := by
  rcases hphase : s.phase
  case idle | hdr | paused | done | error =>
    have hout : s.phase.inBlock = false := by
      rw [hphase]
      rfl
    rw [live_of_outside hout, live_of_outside (s := s.bare) hout]
    rfl
  case storedHdr =>
    rw [live_of_storedHdr hphase, live_of_storedHdr (s := s.blockView) hphase]
    simp only [State.blockView, State.bare]
  case dynHdr =>
    rw [live_of_dynHdr hphase, live_of_dynHdr (s := s.blockView) hphase]
    simp only [State.blockView, State.bare]
  case storedData =>
    rw [live_of_storedData hphase, live_of_storedData (s := s.storedView) hphase]
    simp only [State.storedView, State.blockView, State.bare]
  case sym =>
    rw [live_of_sym hphase, live_of_sym (s := s.symView) hphase]
    simp only [State.symView, State.blockView, State.bare]
  case copy =>
    rw [live_of_copy hphase, live_of_copy (s := s.copyView) hphase]
    simp only [State.copyView, State.symView, State.blockView, State.bare]
  case dynSeq =>
    have hseq : seqPrefix s.seqIdx.toNat (seqPrefix s.seqIdx.toNat s.seq) = seqPrefix s.seqIdx.toNat s.seq :=
      seqPrefix_congr fun i hi => tableGet_seqPrefix hi s.seq
    rw [live_of_dynSeq hphase, live_of_dynSeq (s := s.seqView) hphase]
    simp only [State.seqView, State.blockView, State.bare, hseq]

/-! ## The engine's step -/

theorem runSymbol_ignores {P : State → Prop} {m : State → State} (hm : Mask m) (tree : Option Tree) {row : Nat → Bits → Instr}
    (hP : ∀ n s, P s → P (s.skip n)) (hrow : ∀ sym bits, Ignores P m (exec (row sym bits))) : Ignores P m (runSymbol tree row) := by
  rcases tree with _ | tree
  · exact ofFault .treeAbsent
  · exact ofHuff hm (fun sym => ofLookup (a := window) (f := fun bits => exec (row sym bits)) (fun bits => hrow sym bits)
      fun s _ => hm.window s) hP

/-- The engine reads of a state what its phase shows (R161). -/
theorem engineStep_live {s : State} (hinv : s.Inv) : liveResult (engineStep s.live) = liveResult (engineStep s) := by
  rcases hphase : s.phase
  case hdr =>
    have hstep (u : State) (hu : u.phase = .hdr) : engineStep u = exec (blockHdrElem (window u)) u := by rw [engineStep, hu]
    rw [live_of_outside (by rw [hphase]; rfl), hstep s hphase, hstep s.bare hphase]
    exact ofLookup (a := window) (f := fun bits => exec (blockHdrElem bits)) (fun bits => blockRow_ignores _ _)
      (fun s _ => mask_bare.window s) s trivial
  case storedHdr =>
    have hstep (u : State) (hu : u.phase = .storedHdr) : engineStep u = exec (storedHdrElem (padBits u) (window u)) u := by
      rw [engineStep, hu]
    rw [live_of_storedHdr hphase, hstep s hphase, hstep s.blockView hphase]
    exact ofLookup (a := fun s => (padBits s, window s)) (f := fun x => exec (storedHdrElem x.1 x.2))
      (fun x => execStoredHdr_ignores _ _) (fun s _ => rfl) s trivial
  case storedData =>
    have hstep (u : State) (hu : u.phase = .storedData) : engineStep u = exec (storedByteElem (window u)) u := by rw [engineStep, hu]
    rw [live_of_storedData hphase, hstep s hphase, hstep s.storedView hphase]
    exact ofLookup (a := window) (f := fun bits => exec (storedByteElem bits)) (fun bits => execStoredByte_ignores _)
      (fun s _ => mask_storedView.window s) s hphase
  case dynHdr =>
    have hstep (u : State) (hu : u.phase = .dynHdr) : engineStep u = exec (dynHdrElem (window u)) u := by rw [engineStep, hu]
    rw [live_of_dynHdr hphase, hstep s hphase, hstep s.blockView hphase]
    exact ofLookup (a := window) (f := fun bits => exec (dynHdrElem bits)) (fun bits => execDynHdr_ignores _ _ _ _)
      (fun s _ => mask_blockView.window s) s trivial
  case dynSeq =>
    have hstep (u : State) (hu : u.phase = .dynSeq) : engineStep u = runSymbol u.tCL clRow u := by rw [engineStep, hu]
    obtain ⟨-, hidx, htotal⟩ := hinv.sequence hphase
    rw [live_of_dynSeq hphase, hstep s hphase, hstep s.seqView hphase]
    exact runSymbol_ignores mask_seqView s.tCL (fun _ _ h => h) clRow_ignores s ⟨hphase, hidx, htotal⟩
  case sym =>
    have hstep (u : State) (hu : u.phase = .sym) : engineStep u = runSymbol u.tLL llRow u := by rw [engineStep, hu]
    rw [live_of_sym hphase, hstep s hphase, hstep s.symView hphase]
    exact runSymbol_ignores mask_symView s.tLL (fun _ _ h => h) llRow_ignores s hphase
  case copy =>
    rw [live_of_copy hphase, engineStep_of_copy hphase, engineStep_of_copy (s := s.copyView) hphase]
    exact copyStep_ignores s hphase
  case idle | paused | done | error =>
    have hstopped : s.phase ∈ [Phase.idle, .paused, .done, .error] := by simp [hphase]
    rw [engineStep_of_stopped hstopped, engineStep_of_stopped (s := s.live) hstopped]
    exact congrArg Host.Outcome.next (live_live s)

/-! ## The host's step -/

/-- `START` and `RESUME` begin before a header, where nothing of a block is read (R421, R422). -/
theorem writeCtrl_live (v : Word) (s : State) : (writeCtrl v s.live).live = (writeCtrl v s).live := by
  have hstored : (State.live { s.live with blockStep := v.getLsbD 8 }) = State.live { s with blockStep := v.getLsbD 8 } :=
    live_live { s with blockStep := v.getLsbD 8 }
  by_cases hbusy : s.phase.status = .busy
  · rw [writeCtrl_of_busy hbusy, writeCtrl_of_busy (s := s.live) hbusy, hstored]
  cases h0 : v.getLsbD 0
  case true =>
    rw [writeCtrl_start h0, writeCtrl_start h0, start_of_not_busy (s := { s with blockStep := v.getLsbD 8 }) hbusy,
      start_of_not_busy (s := { s.live with blockStep := v.getLsbD 8 }) hbusy]
    refine live_congr (p := .hdr) (view := State.bare) (fun hp => live_of_outside (by rw [hp]; rfl)) rfl rfl ?_
    simp only [State.bare, State.live]
  case false =>
    by_cases hpaused : s.phase = .paused
    · cases h1 : v.getLsbD 1
      · rw [writeCtrl_neither h0 h1, writeCtrl_neither h0 h1, hstored]
      · rw [writeCtrl_resume h0 h1, writeCtrl_resume h0 h1, resume_of_paused (s := { s with blockStep := v.getLsbD 8 }) hpaused,
          resume_of_paused (s := { s.live with blockStep := v.getLsbD 8 }) hpaused]
        refine live_congr (p := .hdr) (view := State.bare) (fun hp => live_of_outside (by rw [hp]; rfl)) rfl rfl ?_
        simp only [State.bare, State.live]
    · rw [writeCtrl_of_not_paused h0 hpaused, writeCtrl_of_not_paused (s := s.live) h0 hpaused, hstored]

theorem writeInLen_ignores (v : Word) : Ignores (fun _ => True) State.live (writeInLen v) :=
  ofIte (ofNext fun s _ => live_live s) <| ofIte (fun _ _ => rfl) <| ofNext fun s _ => live_live { s with inLen := v }

theorem writeOutCap_live (v : Word) (s : State) : (writeOutCap v s.live).live = (writeOutCap v s).live := by
  by_cases hsession : s.phase.inSession = true
  · rw [writeOutCap_of_inSession hsession, writeOutCap_of_inSession (s := s.live) hsession, live_live]
  · have hout := Bool.eq_false_iff.mpr hsession
    rw [writeOutCap_of_not_inSession hout, writeOutCap_of_not_inSession (s := s.live) hout]
    exact live_live { s with outCap := v }

theorem writeRegister_ignores (off : Nat) (v : Word) : Ignores (fun _ => True) State.live (writeRegister off v) := by
  by_cases h0 : off = 0x00
  · subst h0
    exact ofNext fun s _ => writeCtrl_live v s
  by_cases h14 : off = 0x14
  · subst h14
    exact writeInLen_ignores v
  by_cases h18 : off = 0x18
  · subst h18
    exact ofNext fun s _ => writeOutCap_live v s
  · rw [funext (writeRegister_of_ignored h0 h14 h18 v)]
    exact ofNext fun s _ => live_live s

theorem hostStep_ignores (e : HostEvent) : Ignores (fun _ => True) State.live (hostStep e) := by
  cases e
  case quiet => exact ofNext fun s _ => live_live s
  case writeReg off bytes v => exact ofIte (writeRegister_ignores off v) fun _ _ => rfl
  case readReg off bytes =>
    exact ofIte (ofNext (g := fun s => { s with hostData := readRegister off s })
      fun s _ => live_live { s with hostData := readRegister off s }) fun _ _ => rfl
  case fillIn a b =>
    exact ofIte (fun _ _ => rfl) (ofNext fun s _ => live_live { s with inMem := Memory.write a.toNat b s.inMem })
  case readOut a => exact ofNext fun s _ => live_live { s with hostData := (Memory.read s.outMem a.toNat).setWidth 32 }
  case writeOut a b =>
    exact ofIte (fun _ _ => rfl) (ofNext fun s _ => live_live { s with outMem := Memory.write a.toNat b s.outMem })
  case reset => exact ofNext fun _ _ => rfl

/-! ## Both -/

theorem step_live {s : State} (hinv : s.Inv) : liveResult (step s.live) = liveResult (step s) := by
  rcases hq : s.hostQueue with _ | ⟨e, q⟩
  · rw [step_of_empty hq, step_of_empty (s := s.live) hq]
    exact engineStep_live hinv
  · by_cases he : e = .quiet
    · subst he
      rw [step_of_quiet hq, step_of_quiet (s := s.live) hq]
      exact engineStep_live (hinv.withQueue q)
    · rw [step_of_event hq he, step_of_event (s := s.live) hq he]
      exact hostStep_ignores e { s with hostQueue := q } trivial

theorem of_liveResult_eq_next {r : Result} {u : State} (h : liveResult r = .next u) : ∃ t, r = .next t ∧ t.live = u := by
  cases r
  case next t => exact ⟨t, rfl, Host.Outcome.next.inj h⟩
  all_goals cases h

/-- Settles O60: both steps answer what the step of the common live state answers. -/
theorem noStaleStateIsRead : Obligations.NoStaleStateIsRead := by
  intro s s' t hinv hinv' hlive ht
  have hnext : liveResult (step s') = .next t.live := by
    rw [← step_live hinv', ← hlive, step_live hinv, ht]
    rfl
  obtain ⟨t', ht', hlive'⟩ := of_liveResult_eq_next hnext
  exact ⟨t', ht', hlive'.symm⟩

end Sys2Proof.Machine
end
